-- ==== Sys2Proof/Word.lean ====
section
/-! DEFINITION. The data types of RBDL that are not state: words, descriptors, floating-point patterns and the
extended integers of spec rules R12, R13, R16 and R17. Only types stand here; everything computed on them is in Machine/. -/

namespace Sys2Proof

/-- One byte (a descriptor word passed as bytes is little-endian, R37). -/
abbrev Byte := BitVec 8

/-- A descriptor word (R12: "Descriptor words are 32 bits wide"). -/
abbrev Word := BitVec 32

/-- A descriptor `Dsc = W3 W2 W1 W0`, or a store micro-operation `U` (R55, R58): W0 is the low word. -/
abbrev Descriptor := BitVec 128

/-- A binary32 value held as its bit pattern (R16). -/
abbrev F32 := BitVec 32

/-- A binary64 value held as its bit pattern (R16). -/
abbrev F64 := BitVec 64

/-- An IEEE 754 binary interchange format: the widths of its fraction and exponent fields (the table of 10_state.md). -/
structure FloatFormat where
  fracBits : Nat
  expBits  : Nat
  deriving DecidableEq, Repr

/-- What a pattern stands for: `finite neg m e` is `(-1)^neg * m * 2^e`, exactly. -/
inductive FloatValue where
  | nan
  | inf (neg : Bool)
  | finite (neg : Bool) (significand : Nat) (exponent : Int)
  deriving DecidableEq, Repr

/-- The extended integers of R13, where `-inf < every integer < +inf`. -/
inductive ExtInt where
  | negInf
  | int (n : Int)
  | posInf
  deriving DecidableEq, Repr

/-- The address of one 32-bit cell: a channel and a position or sample index in it (R34, R47).
RBDL has no byte-addressable storage (R37), so a cell is the smallest addressable unit. -/
structure CellAddr where
  channel : Nat
  index   : Nat
  deriving DecidableEq, Repr

end Sys2Proof
end

