-- ==== Sys2Proof/Syntax.lean ====
section
/-! DEFINITION. The instructions: the eight rows of spec/opcode_table.json, one constructor each, with the operands R59
assembles from the descriptor's fields; and the three interfaces an instruction can arrive at (R60). -/

namespace Sys2Proof

/-- Where a descriptor arrives (the `port` column of R60): the host agent's command port, the control agent's parameter
port, or the internal store interface that no agent can reach (R58). -/
inductive Port where
  | command
  | parameter
  | store
  deriving DecidableEq, Repr

/-- One constructor per row of the opcode table. Integer operands are mathematical integers (R13); their ranges are
checked by `Instr.wellFormed`. -/
inductive Instr where
  /-- PREPARE (R94): sampleRate, maxBlockLength. -/
  | prepare (sampleRate : F64) (maxBlockLength : Int)
  /-- RELEASE (R97). -/
  | release
  /-- PROCESS (R74): numChannels, numSamples. -/
  | process (numChannels numSamples : Int)
  /-- SETGAIN (R98): a binary32 pattern. -/
  | setgain (val : F32)
  /-- SETDELAY (R99): a binary32 pattern. -/
  | setdelay (val : F32)
  /-- SWRITE (R72): channel, logical position, binary32 pattern. -/
  | swrite (channel : Nat) (position : Int) (value : F32)
  /-- SREAD (R73): channel, logical position. -/
  | sread (channel : Nat) (position : Int)
  /-- SRESIZE (R71): numChannels, capacitySamples. -/
  | sresize (numChannels : Nat) (capacitySamples : Int)
  deriving DecidableEq, Repr

end Sys2Proof
end

