-- ==== Sys2Proof/WellFormed.lean ====
section
/-! DEFINITION. Which instructions a descriptor can hold: the ranges of the operand fields of R56 to R59. -/

namespace Sys2Proof

/-- An `int32` operand: "a 32-bit field read as two's complement" (R13). -/
def isInt32 (n : Int) : Bool := decide (-2147483648 ≤ n) && decide (n ≤ 2147483647)

/-- A POS operand: "40-bit two's complement" (R58). -/
def isInt40 (n : Int) : Bool := decide (-549755813888 ≤ n) && decide (n ≤ 549755813887)

/-- A CH operand: "unsigned 16" (R58). -/
def isUint16 (n : Nat) : Bool := decide (n < 65536)

/-- The operands fit the fields of the instruction's format. -/
def Instr.wellFormed : Instr → Bool
  | .prepare _ mbl  => isInt32 mbl
  | .release        => true
  | .process nc ns  => isInt32 nc && isInt32 ns
  | .setgain _      => true
  | .setdelay _     => true
  | .swrite c p _   => isUint16 c && isInt40 p
  | .sread c p      => isUint16 c && isInt40 p
  | .sresize n cap  => isUint16 n && isInt40 cap

end Sys2Proof
end

