-- ==== Sys2Proof/Decode.lean ====
section
/-! DEFINITION. Decode, total on any descriptor and on any bytes, rejecting by name (R55 to R65); then the encoder,
written from the same tables. Decode reads no state (R62). -/

namespace Sys2Proof

/-- Why a descriptor or a micro-operation has no meaning. On the ports all of these are IllegalCommand (R61);
on the store interface they are a model fault (R63). -/
inductive DecodeError where
  /-- W0[31:8] is not 0 (R61 (b)). -/
  | reservedBits
  /-- A word that the opcode reserves is not 0 (R61 (c), (d); parameter port (c)). -/
  | reservedOperand
  /-- The opcode belongs to the other port (R61, last sentence). -/
  | wrongPort
  /-- No row of the opcode map has this OPC (R60). -/
  | unknownOpcode
  /-- UOP = 00 (R63). -/
  | unknownMicroOp
  /-- A reserved field of U is not 0, or DATA is not 0 on SREAD or SRESIZE (R63). -/
  | reservedMicroField
  /-- Fewer than sixteen bytes: a descriptor is always four whole words (R39, R65). -/
  | truncated
  deriving DecidableEq, Repr

/-! ### Fields (R56, R57, R58) -/

/-- OPC, W0[7:0]. -/
def fieldOpc (d : Descriptor) : BitVec 8 := d.extractLsb' 0 8

/-- W0[31:8], reserved on both ports. -/
def fieldReserved (d : Descriptor) : BitVec 24 := d.extractLsb' 8 24

/-- W1. -/
def fieldW1 (d : Descriptor) : Word := d.extractLsb' 32 32

/-- W2. -/
def fieldW2 (d : Descriptor) : Word := d.extractLsb' 64 32

/-- W3. -/
def fieldW3 (d : Descriptor) : Word := d.extractLsb' 96 32

/-- UOP, U[1:0]. -/
def fieldUop (u : Descriptor) : BitVec 2 := u.extractLsb' 0 2

/-- U[7:2], reserved. -/
def fieldUReserved (u : Descriptor) : BitVec 6 := u.extractLsb' 2 6

/-- CH, U[23:8]. -/
def fieldCh (u : Descriptor) : BitVec 16 := u.extractLsb' 8 16

/-- POS, U[63:24]. -/
def fieldPos (u : Descriptor) : BitVec 40 := u.extractLsb' 24 40

/-- DATA, U[95:64]. -/
def fieldData (u : Descriptor) : Word := u.extractLsb' 64 32

/-- U[127:96], reserved. -/
def fieldUTop (u : Descriptor) : Word := u.extractLsb' 96 32

/-! ### Decode -/

/-- The command port (R62, first half; operands as in R59). -/
def decodeCommand (d : Descriptor) : Except DecodeError Instr :=
  if fieldReserved d ≠ 0 then .error .reservedBits
  else if fieldOpc d = 0x01 then
    .ok (.prepare (fieldW2 d ++ fieldW1 d) (fieldW3 d).toInt)
  else if fieldOpc d = 0x02 then
    if fieldW1 d = 0 ∧ fieldW2 d = 0 ∧ fieldW3 d = 0 then .ok .release else .error .reservedOperand
  else if fieldOpc d = 0x03 then
    if fieldW3 d = 0 then .ok (.process (fieldW1 d).toInt (fieldW2 d).toInt) else .error .reservedOperand
  else if fieldOpc d = 0x10 ∨ fieldOpc d = 0x11 then .error .wrongPort
  else .error .unknownOpcode

/-- The parameter port (R62, second half). -/
def decodeParameter (d : Descriptor) : Except DecodeError Instr :=
  if fieldReserved d ≠ 0 then .error .reservedBits
  else if fieldW2 d ≠ 0 ∨ fieldW3 d ≠ 0 then .error .reservedOperand
  else if fieldOpc d = 0x10 then .ok (.setgain (fieldW1 d))
  else if fieldOpc d = 0x11 then .ok (.setdelay (fieldW1 d))
  else if fieldOpc d = 0x01 ∨ fieldOpc d = 0x02 ∨ fieldOpc d = 0x03 then .error .wrongPort
  else .error .unknownOpcode

/-- The internal store interface (R58, R63): channel = zext(CH), position = sext(POS). -/
def decodeMicroOp (u : Descriptor) : Except DecodeError Instr :=
  if fieldUReserved u ≠ 0 ∨ fieldUTop u ≠ 0 then .error .reservedMicroField
  else if fieldUop u = 1 then .ok (.swrite (fieldCh u).toNat (fieldPos u).toInt (fieldData u))
  else if fieldUop u = 0 then .error .unknownMicroOp
  else if fieldData u ≠ 0 then .error .reservedMicroField
  else if fieldUop u = 2 then .ok (.sread (fieldCh u).toNat (fieldPos u).toInt)
  else .ok (.sresize (fieldCh u).toNat (fieldPos u).toInt)

/-- Decode at a port. -/
def decode : Port → Descriptor → Except DecodeError Instr
  | .command, d   => decodeCommand d
  | .parameter, d => decodeParameter d
  | .store, u     => decodeMicroOp u

/-! ### Bytes (R37: "byte 0 is bits [7:0]", words in the order W0 to W3) -/

/-- The number whose little-endian bytes these are. -/
def natOfBytes : List Byte → Nat
  | []      => 0
  | b :: bs => b.toNat + 256 * natOfBytes bs

/-- The first `n` little-endian bytes of a number. -/
def bytesOfNat : Nat → Nat → List Byte
  | 0, _     => []
  | n + 1, v => BitVec.ofNat 8 v :: bytesOfNat n (v / 256)

/-- The sixteen bytes of a descriptor. -/
def descriptorBytes (d : Descriptor) : List Byte := bytesOfNat 16 d.toNat

/-- Decode the first sixteen bytes and give the rest back. -/
def decodeBytes (p : Port) (bs : List Byte) : Except DecodeError (Instr × List Byte) :=
  if bs.length < 16 then .error .truncated
  else match decode p (BitVec.ofNat 128 (natOfBytes (bs.take 16))) with
    | .ok i    => .ok (i, bs.drop 16)
    | .error e => .error e

/-! ### Encode -/

/-- The port an instruction is issued at (R60). -/
def Instr.port : Instr → Port
  | .prepare _ _  => .command
  | .release      => .command
  | .process _ _  => .command
  | .setgain _    => .parameter
  | .setdelay _   => .parameter
  | .swrite _ _ _ => .store
  | .sread _ _    => .store
  | .sresize _ _  => .store

/-- Four words, W3 first: `Dsc = W3 W2 W1 W0` (R55). -/
def wordsToDescriptor (w3 w2 w1 w0 : Word) : Descriptor := w3 ++ w2 ++ w1 ++ w0

/-- The fields of a micro-operation, U[127:96] and the reserved U[7:2] being 0 (R58). -/
def microToDescriptor (data : Word) (pos : BitVec 40) (ch : BitVec 16) (uop : BitVec 2) : Descriptor :=
  (0 : Word) ++ data ++ pos ++ ch ++ (0 : BitVec 6) ++ uop

/-- The descriptor of an instruction (R56, R57, R58). -/
def encode : Instr → Descriptor
  | .prepare sr mbl => wordsToDescriptor (BitVec.ofInt 32 mbl) (sr.extractLsb' 32 32) (sr.extractLsb' 0 32) 0x01
  | .release        => wordsToDescriptor 0 0 0 0x02
  | .process nc ns  => wordsToDescriptor 0 (BitVec.ofInt 32 ns) (BitVec.ofInt 32 nc) 0x03
  | .setgain v      => wordsToDescriptor 0 0 v 0x10
  | .setdelay v     => wordsToDescriptor 0 0 v 0x11
  | .swrite c p v   => microToDescriptor v (BitVec.ofInt 40 p) (BitVec.ofNat 16 c) 1
  | .sread c p      => microToDescriptor 0 (BitVec.ofInt 40 p) (BitVec.ofNat 16 c) 2
  | .sresize n cap  => microToDescriptor 0 (BitVec.ofInt 40 cap) (BitVec.ofNat 16 n) 3

/-! ### Words of the opcode table

One 128-bit word can be legal at more than one port: the table's words for PREPARE and SWRITE overlap, as do those for
RELEASE and SREAD and for PROCESS and SRESIZE. A bare word is read at the command port, then at the parameter port, then
at the store interface (DESIGN CHOICE, log entry 8); a descriptor on a port is read at that port and nowhere else. -/

/-- The port a bare word is read at: the first that decodes it, or the command port (which answers IllegalCommand). -/
def portOfWord (d : Descriptor) : Port :=
  match decodeCommand d, decodeParameter d, decodeMicroOp d with
  | .ok _, _, _             => .command
  | .error _, .ok _, _      => .parameter
  | .error _, .error _, .ok _    => .store
  | .error _, .error _, .error _ => .command

/-- The descriptor of an opcode-table word: the bits above `nbits` are 0. -/
def descriptorOfTableWord (nbits w : Nat) : Descriptor := BitVec.ofNat 128 (w % 2 ^ nbits)

/-- The instruction the decoder reads from a bare descriptor, through its bytes. -/
def decodeAnyPort (d : Descriptor) : Option Instr :=
  match decodeBytes (portOfWord d) (descriptorBytes d) with
  | .ok (i, _) => some i
  | .error _   => none

/-- The instruction the decoder reads from a word of the opcode table. -/
def decodeTableWord (nbits w : Nat) : Option Instr := decodeAnyPort (descriptorOfTableWord nbits w)

end Sys2Proof
end

