-- ==== Sys2Proof/Machine/Float.lean ====
section
/-! DEFINITION. IEEE 754 arithmetic as R16 and R17 use it: round to nearest, ties to even, subnormals kept, no flags.
Every operation converts its operands to exact values, computes exactly, and rounds once at the end. A NaN result has no
fixed pattern (93_implementation_defined.md I6), so an operation answers `none` for it and its caller draws the pattern.
PRESUMED, log entry 17: the definitions are IEEE 754's, which R16 names and does not spell out. -/

namespace Sys2Proof.Machine

/-- binary32: [31] sign, [30:23] exponent, [22:0] fraction. -/
def binary32 : FloatFormat := ⟨23, 8⟩

/-- binary64: [63] sign, [62:52] exponent, [51:0] fraction. -/
def binary64 : FloatFormat := ⟨52, 11⟩

/-- The exponent of one unit in the last place of a subnormal: -149 for binary32, -1074 for binary64. -/
def minExponent (f : FloatFormat) : Int := 2 - (2 : Int) ^ (f.expBits - 1) - f.fracBits

/-- The pattern of +inf, which is also one more than the largest finite magnitude pattern. -/
def infMagnitude (f : FloatFormat) : Nat := (2 ^ f.expBits - 1) * 2 ^ f.fracBits

/-- What a pattern stands for. -/
def decodeFloat (f : FloatFormat) (bits : Nat) : FloatValue :=
  let neg := bits.testBit (f.fracBits + f.expBits)
  let e := bits / 2 ^ f.fracBits % 2 ^ f.expBits
  let m := bits % 2 ^ f.fracBits
  if e = 2 ^ f.expBits - 1 then
    if m = 0 then .inf neg else .nan
  else if e = 0 then .finite neg m (minExponent f)
  else .finite neg (m + 2 ^ f.fracBits) (minExponent f + (e - 1))

/-- The pattern with this sign and this magnitude pattern. -/
def signed (f : FloatFormat) (neg : Bool) (magnitude : Nat) : Nat :=
  if neg then magnitude + 2 ^ (f.fracBits + f.expBits) else magnitude

/-- The integer nearest to `n / d`, ties to even. -/
def roundHalfEven (n d : Nat) : Nat :=
  let q := n / d
  let r := n % d
  if 2 * r < d then q else if d < 2 * r then q + 1 else q + q % 2

/-- `floor (log2 (n / d))` for positive `n` and `d`. -/
def floorLog2 (n d : Nat) : Int :=
  let l : Int := (n.log2 : Int) - (d.log2 : Int)
  if n * 2 ^ (-l).toNat < d * 2 ^ l.toNat then l - 1 else l

/-- The magnitude pattern nearest to `n / d * 2^e`, ties to even (R16). Magnitude patterns count units in the last place
upwards from 0, through the subnormals and the binades, so a carry out of the fraction is an addition and a magnitude
past the largest finite one is +inf. -/
def roundMagnitude (f : FloatFormat) (n d : Nat) (e : Int) : Nat :=
  if n = 0 then 0
  else
    let ulp := max (minExponent f) (floorLog2 n d + e - f.fracBits)
    let q := roundHalfEven (n * 2 ^ (e - ulp).toNat) (d * 2 ^ (ulp - e).toNat)
    min (infMagnitude f) ((ulp - minExponent f).toNat * 2 ^ f.fracBits + q)

/-- A signed integer from a sign and a magnitude. -/
def signedInt (neg : Bool) (m : Nat) : Int := if neg then -(m : Int) else m

/-- IEEE 754 multiplication. -/
def floatMul (f : FloatFormat) (a b : Nat) : Option Nat :=
  match decodeFloat f a, decodeFloat f b with
  | .nan, _ => none
  | .inf _, .nan => none
  | .finite _ _ _, .nan => none
  | .inf s, .inf t => some (signed f (s ^^ t) (infMagnitude f))
  | .inf s, .finite t m _ => if m = 0 then none else some (signed f (s ^^ t) (infMagnitude f))
  | .finite s m _, .inf t => if m = 0 then none else some (signed f (s ^^ t) (infMagnitude f))
  | .finite s m x, .finite t n y => some (signed f (s ^^ t) (roundMagnitude f (m * n) 1 (x + y)))

/-- IEEE 754 division. -/
def floatDiv (f : FloatFormat) (a b : Nat) : Option Nat :=
  match decodeFloat f a, decodeFloat f b with
  | .nan, _ => none
  | .inf _, .nan => none
  | .finite _ _ _, .nan => none
  | .inf _, .inf _ => none
  | .inf s, .finite t _ _ => some (signed f (s ^^ t) (infMagnitude f))
  | .finite s _ _, .inf t => some (signed f (s ^^ t) 0)
  | .finite s m x, .finite t n y =>
    if n = 0 then
      if m = 0 then none else some (signed f (s ^^ t) (infMagnitude f))
    else some (signed f (s ^^ t) (roundMagnitude f m n (x - y)))

/-- IEEE 754 addition. An exact zero sum is +0, unless both operands are -0. -/
def floatAdd (f : FloatFormat) (a b : Nat) : Option Nat :=
  match decodeFloat f a, decodeFloat f b with
  | .nan, _ => none
  | .inf _, .nan => none
  | .finite _ _ _, .nan => none
  | .inf s, .inf t => if s = t then some (signed f s (infMagnitude f)) else none
  | .inf s, .finite _ _ _ => some (signed f s (infMagnitude f))
  | .finite _ _ _, .inf t => some (signed f t (infMagnitude f))
  | .finite s m x, .finite t n y =>
    let e := min x y
    let sum := signedInt s (m * 2 ^ (x - e).toNat) + signedInt t (n * 2 ^ (y - e).toNat)
    if sum = 0 then some (signed f (s && t) 0)
    else some (signed f (decide (sum < 0)) (roundMagnitude f sum.natAbs 1 e))

/-- `f32_add` (R16). -/
def f32Add (a b : F32) : Option F32 := (floatAdd binary32 a.toNat b.toNat).map (BitVec.ofNat 32)

/-- `f32_mul` (R16). -/
def f32Mul (a b : F32) : Option F32 := (floatMul binary32 a.toNat b.toNat).map (BitVec.ofNat 32)

/-- `f64_mul` (R16). -/
def f64Mul (a b : F64) : Option F64 := (floatMul binary64 a.toNat b.toNat).map (BitVec.ofNat 64)

/-- `f64_div` (R16). -/
def f64Div (a b : F64) : Option F64 := (floatDiv binary64 a.toNat b.toNat).map (BitVec.ofNat 64)

/-- `f32_to_f64`, "the exact widening" (R16): every binary32 value is a binary64 value, so nothing is rounded away. -/
def f32ToF64 (a : F32) : Option F64 :=
  match decodeFloat binary32 a.toNat with
  | .nan => none
  | .inf s => some (BitVec.ofNat 64 (signed binary64 s (infMagnitude binary64)))
  | .finite s m e => some (BitVec.ofNat 64 (signed binary64 s (roundMagnitude binary64 m 1 e)))

/-- `isNaN`, "true for every NaN pattern" (R16). -/
def f32IsNaN (a : F32) : Bool := decide (decodeFloat binary32 a.toNat = .nan)

/-- `floor (n * 2^e)` for an integer `n`. -/
def floorScaled (n : Int) (e : Int) : Int := if n = 0 then 0 else (n * 2 ^ e.toNat) / 2 ^ (-e).toNat

/-- `ceil` of a value, "+inf kept as +inf" (R92). `none` for a NaN. -/
def ceilFloat : FloatValue → Option ExtInt
  | .nan => none
  | .inf true => some .negInf
  | .inf false => some .posInf
  | .finite s m e => some (.int (-floorScaled (-signedInt s m) e))

/-- `roundHalfAway` (R17): `sign(x) * floor(|x| + 1/2)` on the exact value, infinities kept. `none` for a NaN, to which
R17 does not apply it. -/
def roundHalfAway : FloatValue → Option ExtInt
  | .nan => none
  | .inf true => some .negInf
  | .inf false => some .posInf
  | .finite s m e =>
    if m = 0 then some (.int 0)
    else
      -- |x| + 1/2 = (2 * |x| + 1) / 2, put over the denominator 2^(-e) when e is negative
      some (.int (signedInt s ((2 * (m * 2 ^ e.toNat) + 2 ^ (-e).toNat) / (2 * 2 ^ (-e).toNat))))

/-- `clamp(v, lo, hi) = min(max(v, lo), hi)` on the extended integers (R13). -/
def clampExt (v : ExtInt) (lo hi : Int) : Int :=
  match v with
  | .negInf => min lo hi
  | .int n => min (max n lo) hi
  | .posInf => hi

end Sys2Proof.Machine
end

