-- ==== Sys2Proof/Config.lean ====
section
/-! DEFINITION. What one build of RBDL fixes (the OPEN parameters of 00_scope.md section 4, which a model takes as
arguments), and the free values: constants with no body, so that no claim can use what they are. -/

namespace Sys2Proof

/-- The parameters of one build. They stand in State (field `cfg`), which no step changes, so that a statement about
every state is a statement about every build (DESIGN CHOICE, log entry 1). -/
structure Config where
  /-- NUM_CH, 1 .. 65535 (R7). -/
  numCh : BitVec 16
  /-- CAP_MAX, 1 .. 2^31 - 1 (R8). -/
  capMax : BitVec 31
  /-- MAX_DELAY_SECONDS, a finite binary64 above 0 whose reference value is 2.0 (R9). -/
  maxDelaySeconds : F64
  /-- PARAM_GAIN_RESET (R10). -/
  paramGainReset : F32
  /-- PARAM_DELAY_RESET (R10). -/
  paramDelayReset : F32
  /-- What SAMPLE_RATE holds before the first PREPARE. The spec says "holds no value" (R26); log entry 3. -/
  sampleRateAtReset : F64
  /-- What MAX_BLOCK holds before the first PREPARE. The spec says "holds no value" (R27); log entry 3. -/
  maxBlockAtReset : Word
  deriving DecidableEq, Repr

/-- PARAM_GAIN_RESET of the reference build: OPEN (R10, D21), so no value is given here (DESIGN CHOICE, log entry 4). -/
opaque Config.openGainReset : F32

/-- PARAM_DELAY_RESET of the reference build: OPEN (R10, D21), so no value is given here (DESIGN CHOICE, log entry 4). -/
opaque Config.openDelayReset : F32

/-- SAMPLE_RATE before the first PREPARE: a value that no claim can use (R26, D22; DESIGN CHOICE, log entry 3). -/
opaque Config.unsetSampleRate : F64

/-- MAX_BLOCK before the first PREPARE: a value that no claim can use (R27, D22; DESIGN CHOICE, log entry 3). -/
opaque Config.unsetMaxBlock : Word

/-- FREE VALUE: the sign of the k-th NaN that arithmetic produces (93_implementation_defined.md I6; log entry 5). -/
opaque Config.freeNaNSign : Nat → Bool

/-- FREE VALUE: the fraction field, less one, of the k-th NaN that arithmetic produces. Every nonzero 23-bit fraction is
possible (93_implementation_defined.md I6: "exponent all ones, fraction nonzero"; log entry 5). -/
opaque Config.freeNaNFraction : Nat → Fin 8388607

/-- The k-th free NaN: every binary32 NaN pattern, of either sign, is possible and no other pattern is. -/
def Config.freeNaN (k : Nat) : F32 :=
  BitVec.ofBool (Config.freeNaNSign k) ++ (0xFF : BitVec 8) ++ BitVec.ofNat 23 ((Config.freeNaNFraction k).val + 1)

/-- The build that `State.reset` is of: the parameters of the vectors of 95_test_vectors.md (L2.4: MAX_DELAY_SECONDS = 2.0,
CAP_MAX = 100000, NUM_CH = 1). DESIGN CHOICE, log entry 2: no statement rests on NUM_CH or CAP_MAX here. -/
def Config.reference : Config where
  numCh             := 1
  capMax            := 100000
  maxDelaySeconds   := 0x4000000000000000
  paramGainReset    := Config.openGainReset
  paramDelayReset   := Config.openDelayReset
  sampleRateAtReset := Config.unsetSampleRate
  maxBlockAtReset   := Config.unsetMaxBlock

end Sys2Proof
end

