-- ==== Sys2Proof/Machine/State.lean ====
section
/-! DEFINITION. The state of RBDL (10_state.md), of its two ports and of the block memory the host shares with it, the
reasons a step can stop, and the state after reset (R36, R116). Plain data throughout. -/

namespace Sys2Proof.Machine

/-- A sparse memory of 32-bit cells: addresses strictly rising, no entry equal to what an unlisted address reads as
(DEDUCED from R37, log entry 11). -/
abbrev Memory := List (CellAddr × F32)

/-- What an unlisted cell of STORE reads as: +0.0, the value SRESIZE leaves in every cell (R71, R48). -/
def unlistedStore : Option F32 := some 0

/-- What an unlisted cell of block memory reads as: no sample is there (R45). -/
def unlistedBlock : Option F32 := none

/-- The status codes of R103. -/
inductive StatusCode where
  | ok
  | invalidCapacity
  | capacityExceedsStorage
  | illegalCommand
  deriving DecidableEq, Repr

/-- The hidden state of a PROCESS in progress (R35): the gain G and the delay time T as far as they have been sampled.
PHASE is which of the two are present (`Sampling.phase`); wc and D are views of what State holds (`State.blockCursor`,
`State.delayOf`; log entry 7). -/
structure Sampling where
  gain  : Option F32
  delay : Option F32
  deriving DecidableEq, Repr

/-- What the store interface returned last: "SREAD returns one binary32 value. SRESIZE returns a status code: 0, 1 or 2.
SWRITE returns nothing" (R58). -/
inductive StoreReply where
  | nothing
  | value (v : F32)
  | code (c : StatusCode)
  deriving DecidableEq, Repr

/-- An access to block memory by an outside agent (R44, R46, R50; the host action `block` of R67 is a row of writes and
`expect` a row of reads). -/
inductive BlockAccess where
  | read (a : CellAddr)
  | write (a : CellAddr) (v : F32)
  /-- The sample is no longer supplied: later blocks are shorter. -/
  | withdraw (a : CellAddr)
  deriving DecidableEq, Repr

/-- Whose turn the next step is: the interleaving of the agents and of the sampling steps of PROCESS (R20, R49, R77;
DESIGN CHOICE, log entries 6 and 9). -/
inductive Turn where
  /-- The command port runs the descriptor at its head to completion. -/
  | command
  /-- As `command`, but a PROCESS stops once it is in progress, before its sampling steps that remain. -/
  | commandStart
  /-- As `commandStart`, and the PROCESS makes its gain read step if it has not made it. -/
  | commandReadGain
  /-- As `commandStart`, and the PROCESS makes its delay read step if it has not made it. -/
  | commandReadDelay
  /-- The parameter port takes one descriptor. -/
  | parameter
  /-- An outside agent makes one access to block memory. -/
  | blockAccess
  /-- The store interface takes one micro-operation from outside the engine. No agent can do this on the hardware (R58). -/
  | store
  deriving DecidableEq, Repr

/-- The reasons the machine stops. None is the outcome of a port descriptor whose host duties are kept (R109). -/
inductive Fault where
  /-- Raised by `execSwrite` and `execSread`: CAPACITY is 0 (R70). Safe: no command sequence reaches it. -/
  | storeUnprepared
  /-- Raised by `execSwrite` and `execSread`: channel ≥ NUM_CH (R70). Safe: no command sequence reaches it. -/
  | storeChannelOutOfRange
  /-- Raised by `execSresize`: numChannels ≠ NUM_CH (R71). Safe: no command sequence reaches it. -/
  | resizeChannelMismatch
  /-- Raised by the store interface: a micro-operation that R63 gives no meaning. Safe: no rule produces one. -/
  | illegalMicroOp
  /-- Stuck (R45), raised by `execProcess`: block memory lacks a sample the PROCESS needs. Safe: the host's duty. -/
  | blockSampleMissing
  /-- Stuck (R46), raised by the block-access turn: a PROCESS is in progress. Safe: the host's duty. -/
  | blockAccessDuringProcess
  deriving DecidableEq, Repr

/-- The reasons an instruction has no meaning in this model. -/
inductive Refusal where
  /-- Raised by an arm of `exec` whose instruction is not modelled. Safe. No arm raises it: R109 (3) says that no
  descriptor is refused. -/
  | notModelled (mnemonic : String)
  deriving DecidableEq, Repr

/-- Everything the spec gives the machine, then what the model adds to hold its surroundings (INVENTORY.md, State). -/
structure State where
  /-- The parameters of the build (00_scope.md section 4). No step changes them. -/
  cfg : Config
  /-- Register 0, CAPACITY (R24). -/
  capacity : Word
  /-- Register 1, WRITE_CURSOR (R25). -/
  writeCursor : Word
  /-- Register 2, SAMPLE_RATE (R26). -/
  sampleRate : F64
  /-- Register 3, MAX_BLOCK (R27). -/
  maxBlock : Word
  /-- Register 4, STATUS: the code of bits [1:0]; the other bits are hardwired 0 (R28). -/
  status : StatusCode
  /-- Register 5, PARAM_GAIN (R30). -/
  paramGain : F32
  /-- Register 6, PARAM_DELAY_MS (R31). -/
  paramDelayMs : F32
  /-- Register 7, PSTATUS (R29). -/
  pstatus : StatusCode
  /-- STORE (R32): NUM_CH rows of CAPACITY cells, those not listed being +0.0. -/
  store : Memory
  /-- The PROCESS in progress, if there is one, with what it has sampled (R35). -/
  inProgress : Option Sampling
  /-- Block memory (R44): the samples the host supplies. -/
  block : Memory
  /-- The descriptors waiting at the command port, the one being executed first (R21; DESIGN CHOICE, log entry 19). -/
  commandPort : List Descriptor
  /-- The descriptors waiting at the parameter port (R21). -/
  paramPort : List Descriptor
  /-- Micro-operations driven onto the store interface from outside the engine: none on the hardware (R58; log entry 12). -/
  microPort : List Descriptor
  /-- The accesses to block memory that the outside agents are to make. -/
  blockAccesses : List BlockAccess
  /-- Whose turn each coming step is. -/
  schedule : List Turn
  /-- MODEL'S OWN, log entry 12: what the store interface returned last (R58). -/
  storeReply : StoreReply
  /-- MODEL'S OWN, log entry 13: what the last outside read of block memory returned (R50). -/
  blockReply : Option F32
  /-- MODEL'S OWN, log entries 5 and 16: how many NaN draws have been used (93_implementation_defined.md I6). -/
  draws : Nat
  deriving DecidableEq, Repr

/-- The state after reset of a build (R36): unprepared, no cells, both status registers OK, the parameters at their reset
values, no PROCESS in progress, nothing waiting at the ports (log entries 3, 4, 18). -/
def State.resetOf (cfg : Config) : State where
  cfg           := cfg
  capacity      := 0
  writeCursor   := 0
  sampleRate    := cfg.sampleRateAtReset
  maxBlock      := cfg.maxBlockAtReset
  status        := .ok
  paramGain     := cfg.paramGainReset
  paramDelayMs  := cfg.paramDelayReset
  pstatus       := .ok
  store         := []
  inProgress    := none
  block         := []
  commandPort   := []
  paramPort     := []
  microPort     := []
  blockAccesses := []
  schedule      := []
  storeReply    := .nothing
  blockReply    := none
  draws         := 0

/-- The state after reset of the reference build. -/
def State.reset : State := State.resetOf Config.reference

end Sys2Proof.Machine
end

