-- ==== Sys2Proof/Machine/Ops.lean ====
section
/-! DEFINITION. The named operations over memory, registers and status that the meanings share. -/

namespace Sys2Proof.Machine

/-! ### Addresses and the sparse memory -/

/-- Channels first, then positions. -/
def cellLt (a b : CellAddr) : Bool :=
  decide (a.channel < b.channel) || (decide (a.channel = b.channel) && decide (a.index < b.index))

/-- The value listed at an address. -/
def Memory.listed : Memory → CellAddr → Option F32
  | [], _ => none
  | (k, v) :: m, a => if k = a then some v else Memory.listed m a

/-- List a value at an address, in its place. -/
def Memory.put : Memory → CellAddr → F32 → Memory
  | [], a, v => [(a, v)]
  | (k, w) :: m, a, v =>
    if cellLt a k then (a, v) :: (k, w) :: m
    else if k = a then (a, v) :: m
    else (k, w) :: Memory.put m a v

/-- List nothing at an address. -/
def Memory.unlist : Memory → CellAddr → Memory
  | [], _ => []
  | (k, w) :: m, a => if k = a then Memory.unlist m a else (k, w) :: Memory.unlist m a

/-- Read a cell, an unlisted one reading as `dflt`. -/
def Memory.read (dflt : Option F32) (m : Memory) (a : CellAddr) : Option F32 := (m.listed a).or dflt

/-- Write a cell; writing what an unlisted cell reads as removes the entry. -/
def Memory.write (dflt : Option F32) (m : Memory) (a : CellAddr) (v : F32) : Memory :=
  if dflt = some v then m.unlist a else m.put a v

/-- The canonical form: addresses strictly rising, and no entry equal to what an unlisted address reads as. -/
abbrev Memory.wf (dflt : Option F32) (m : Memory) : Prop :=
  m.Pairwise (fun x y => cellLt x.1 y.1 = true) ∧ ∀ e ∈ m, some e.2 ≠ dflt

/-! ### Loops -/

/-- `for i in 0 .. n-1`, in increasing order (R19). -/
def forUpto {σ : Type} : Nat → (Nat → σ → σ) → σ → σ
  | 0, _, s => s
  | n + 1, body, s => body n (forUpto n body s)

/-- Some `i` below `n` fails the test, or none does. -/
def allUpto : Nat → (Nat → Bool) → Bool
  | 0, _ => true
  | n + 1, p => allUpto n p && p n

/-! ### STORE (R68 to R73) -/

/-- The wraparound index mapping, the source's formula with `%` the truncated remainder (R68). -/
def physicalPosition (p : Int) (cap : Nat) : Nat := (Int.tmod (Int.tmod p cap + cap) cap).toNat

/-- The cell that a logical position of a channel names (R47, R68). -/
def State.storeCell (s : State) (c : Nat) (p : Int) : CellAddr := ⟨c, physicalPosition p s.capacity.toNat⟩

/-- `StoreRead(c, p)` (R73). -/
def State.storeRead (s : State) (c : Nat) (p : Int) : F32 := (s.store.read unlistedStore (s.storeCell c p)).getD 0

/-- `StoreWrite(c, p, v)`: "the 32-bit pattern is stored unchanged" (R72). -/
def State.storeWrite (s : State) (c : Nat) (p : Int) (v : F32) : State :=
  { s with store := s.store.write unlistedStore (s.storeCell c p) v }

/-- The precondition of SWRITE and SREAD (R70): what is broken, if anything. -/
def State.storeFault (s : State) (c : Nat) : Option Fault :=
  if s.capacity = 0 then some .storeUnprepared
  else if s.cfg.numCh.toNat ≤ c then some .storeChannelOutOfRange
  else none

/-- What SRESIZE answers: the code it returns with the state it leaves, or the fault of R71. -/
def resizeStore (numChannels : Nat) (capacitySamples : Int) (s : State) : Except Fault (StatusCode × State) :=
  if capacitySamples ≤ 0 then .ok (.invalidCapacity, s)
  else if (s.cfg.capMax.toNat : Int) < capacitySamples then .ok (.capacityExceedsStorage, s)
  else if numChannels ≠ s.cfg.numCh.toNat then .error .resizeChannelMismatch
  else .ok (.ok, { s with store := [], capacity := BitVec.ofInt 32 capacitySamples, writeCursor := 0 })

/-- Discard STORE (RELEASE, R97). -/
def State.discardStore (s : State) : State := { s with store := [], capacity := 0, writeCursor := 0 }

/-! ### Block memory (R44, R45) -/

/-- `IoRead(c, i)` (R44). The sample is there whenever PROCESS reads it: `State.blockHolds` is checked first
(log entry 22). -/
def State.ioRead (s : State) (c i : Nat) : F32 := (s.block.read unlistedBlock ⟨c, i⟩).getD 0

/-- `IoWrite(c, i, v)` (R44). -/
def State.ioWrite (s : State) (c i : Nat) (v : F32) : State :=
  { s with block := s.block.write unlistedBlock ⟨c, i⟩ v }

/-- Block memory holds a sample at every (c, i) with c < channels and i < samples (R45). -/
def State.blockHolds (s : State) (channels samples : Nat) : Bool :=
  allUpto channels fun c => allUpto samples fun i => (s.block.read unlistedBlock ⟨c, i⟩).isSome

/-! ### Status (R103, R104) -/

/-- `raise Status(code)` on the command port: STATUS gets the code and no other state changes (R104). With code OK it is
also how a command completes. -/
def State.raiseStatus (code : StatusCode) (s : State) : State := { s with status := code }

/-- The same on the parameter port (R29, R61). -/
def State.raiseParamStatus (code : StatusCode) (s : State) : State := { s with pstatus := code }

/-- The store interface returns (R58). -/
def State.replyStore (r : StoreReply) (s : State) : State := { s with storeReply := r }

/-! ### Parameter registers (R41) -/

/-- An atomic write of PARAM_GAIN. -/
def State.writeGain (v : F32) (s : State) : State := { s with paramGain := v }

/-- An atomic write of PARAM_DELAY_MS. -/
def State.writeDelay (v : F32) (s : State) : State := { s with paramDelayMs := v }

/-! ### Turns and ports (R20, R21) -/

/-- Whose turn the next step is. With no schedule left, the first interface with something waiting, in this order
(DESIGN CHOICE, log entry 6). -/
def State.nextTurn (s : State) : Turn :=
  match s.schedule with
  | t :: _ => t
  | [] =>
    if s.commandPort ≠ [] then .command
    else if s.paramPort ≠ [] then .parameter
    else if s.blockAccesses ≠ [] then .blockAccess
    else if s.microPort ≠ [] then .store
    else .command

/-- The turn is over. -/
def State.passTurn (s : State) : State := { s with schedule := s.schedule.tail }

/-- The command port's turn is over. Its descriptor stays at the head while a PROCESS is in progress: the port "completes
each command before it takes the next" (R21). -/
def State.retireCommand (s : State) : State :=
  if s.inProgress.isSome then s.passTurn else { s.passTurn with commandPort := s.commandPort.tail }

/-- The parameter port has completed a descriptor. -/
def State.retireParameter (s : State) : State := { s.passTurn with paramPort := s.paramPort.tail }

/-- An outside agent has made its access to block memory. -/
def State.retireBlockAccess (s : State) : State := { s.passTurn with blockAccesses := s.blockAccesses.tail }

/-- The store interface has completed a micro-operation. -/
def State.retireMicroOp (s : State) : State := { s.passTurn with microPort := s.microPort.tail }

/-- Apply a change to the next state of an outcome. -/
def mapNext (f : State → State) : Host.Outcome State Fault Refusal → Host.Outcome State Fault Refusal
  | .next s => .next (f s)
  | .fault r => .fault r
  | .refused r => .refused r

end Sys2Proof.Machine
end

