-- ==== Sys2Proof/Machine/Operands.lean ====
section
/-! DEFINITION. The values the commands compute from their operands and the registers: the requested capacity (R91, R92),
the delay offset (R78), the processed channels (R79), the mix (R82) and the cursor advance (R84). -/

namespace Sys2Proof.Machine

/-- The capacity a PREPARE asks for, `ceil(f64_mul(sampleRate, MAX_DELAY_SECONDS))` (R91). `none` when the product is a NaN. -/
def requestedCapacity (maxDelaySeconds sampleRate : F64) : Option ExtInt :=
  (f64Mul sampleRate maxDelaySeconds).bind fun y => ceilFloat (decodeFloat binary64 y.toNat)

/-- `CapField` (R92): the requested capacity as the capacitySamples operand of SRESIZE. -/
def capField (capMax : Nat) : Option ExtInt → Int
  | none => 0
  | some .negInf => 0
  | some .posInf => capMax + 1
  | some (.int n) => if n ≤ 0 then 0 else if (capMax : Int) < n then capMax + 1 else n

/-- 1000.0 in binary64. -/
def f64Thousand : F64 := 0x408F400000000000

/-- The delay in samples before rounding: `f64_div(f64_mul(f32_to_f64(T), sr), 1000.0)` (R78). `none` when it is a NaN. -/
def delayExact (t : F32) (sampleRate : F64) : Option F64 :=
  (f32ToF64 t).bind fun w => (f64Mul w sampleRate).bind fun y => f64Div y f64Thousand

/-- `DelaySamples` (R78): the delay offset D, in [0, cap - 1]; 0 for a NaN. -/
def delaySamples (t : F32) (sampleRate : F64) (cap : Nat) : Int :=
  match (delayExact t sampleRate).bind fun x => roundHalfAway (decodeFloat binary64 x.toNat) with
  | none => 0
  | some r => clampExt r 0 (cap - 1)

/-- How many channels a PROCESS handles, `min(numChannels, NUM_CH)`, none when that is negative (R79). -/
def processedChannels (numChannels : Int) (numCh : Nat) : Nat := (min numChannels numCh).toNat

/-- `f32_add(dry, f32_mul(G, s))`, two roundings and no fused multiply-add (R82). `none` when it is a NaN. -/
def mixExact (dry g wet : F32) : Option F32 := (f32Mul g wet).bind fun p => f32Add dry p

/-- The mixed sample; a NaN has the pattern of the `k`-th free draw (93_implementation_defined.md I6). -/
def mix (k : Nat) (dry g wet : F32) : F32 := (mixExact dry g wet).getD (Config.freeNaN k)

/-- `emod(wc + numSamples, CAPACITY)` (R84). -/
def advanceCursor (wc : Word) (numSamples : Int) (capacity : Word) : Word :=
  BitVec.ofInt 32 (Int.emod (wc.toNat + numSamples) capacity.toNat)

end Sys2Proof.Machine
end

