-- ==== Sys2Proof/Machine/Engine.lean ====
section
/-! DEFINITION. The Delay Engine: PROCESS (41_delay_engine.md). PROCESS is a start, two sampling steps in either order, and
a body that is one atomic step (R77). Between them other agents may step, as the schedule in State says; where the schedule
gives nobody else a turn, they run in one go (DEDUCED, log entries 7 and 9). -/

namespace Sys2Proof.Machine

/-- One iteration of the write phase: SWRITE(c, wc + i, IoRead(c, i)), the dry input (R80). -/
def State.writeSample (wc : Int) (c i : Nat) (s : State) : State :=
  s.storeWrite c (wc + i) (s.ioRead c i)

/-- One iteration of the read phase: SREAD(c, rc + i), mixed onto the dry input in place (R81, R82).
`k` is the number of the free draw that the sample uses if it is a NaN. -/
def State.mixSample (rc : Int) (g : F32) (k : Nat) (c i : Nat) (s : State) : State :=
  s.ioWrite c i (mix k (s.ioRead c i) g (s.storeRead c (rc + i)))

/-- One channel: its write phase, then its read phase (R80, R81). -/
def State.processChannel (wc d : Int) (g : F32) (len k : Nat) (c : Nat) (s : State) : State :=
  forUpto len (fun i => State.mixSample (wc - d) g (k + c * len + i) c i)
    (forUpto len (State.writeSample wc c) s)

/-- The end of a PROCESS: STATUS is OK and nothing is in progress (R85). -/
def State.completeProcess (s : State) : State := { s.raiseStatus .ok with inProgress := none }

/-- The cursor advance (R84), and the count of the draws the block has used. -/
def State.advanceBlock (numSamples : Int) (draws : Nat) (s : State) : State :=
  { s with writeCursor := advanceCursor s.writeCursor numSamples s.capacity, draws := s.draws + draws }

/-- `wc`, "the WRITE_CURSOR value at the start of the block" (R35). While a PROCESS is in progress nothing writes WRITE_CURSOR
before the cursor advance, so it is WRITE_CURSOR itself and needs no storage of its own. -/
def State.blockCursor (s : State) : Int := s.writeCursor.toNat

/-- `D`, "the delay in samples computed from T" (R35, R78). SAMPLE_RATE and CAPACITY do not change while a PROCESS is in
progress, so it is a view of T. -/
def State.delayOf (s : State) (t : F32) : Int := delaySamples t s.sampleRate s.capacity.toNat

/-- PHASE, "which of G and T have been sampled so far" (R35): G, then T. -/
def Sampling.phase (p : Sampling) : Bool × Bool := (p.gain.isSome, p.delay.isSome)

/-- The body of PROCESS for a sampled gain and delay time, one atomic step (R74, from "body"). -/
def State.processBody (numChannels numSamples : Int) (g t : F32) (s : State) : State :=
  let n := processedChannels numChannels s.cfg.numCh.toNat
  let len := numSamples.toNat
  let s' := forUpto n (State.processChannel s.blockCursor (s.delayOf t) g len s.draws) s
  (s'.advanceBlock numSamples (n * len)).completeProcess

/-- The gain read step, made once (R77): a value already sampled stays. -/
def Sampling.readGain (p : Sampling) (s : State) : Sampling := { p with gain := some (p.gain.getD s.paramGain) }

/-- The delay read step, made once (R77). -/
def Sampling.readDelay (p : Sampling) (s : State) : Sampling := { p with delay := some (p.delay.getD s.paramDelayMs) }

/-- A PROCESS in progress, with the samples it needs in block memory (R45), goes as far as the turn lets it. -/
def State.runProcess (numChannels numSamples : Int) (p : Sampling) (s : State) : State :=
  match s.nextTurn with
  | .commandStart     => { s with inProgress := some p }
  | .commandReadGain  => { s with inProgress := some (p.readGain s) }
  | .commandReadDelay => { s with inProgress := some (p.readDelay s) }
  | .command | .parameter | .blockAccess | .store =>
    s.processBody numChannels numSamples (p.gain.getD s.paramGain) (p.delay.getD s.paramDelayMs)

/-- PROCESS (R74): a no-op while unprepared (R75) or for an empty block (R76); stuck when block memory lacks a sample
(R45; DEDUCED, log entry 14). A PROCESS in progress goes on from what it has sampled. -/
def execProcess (numChannels numSamples : Int) (s : State) : Host.Outcome State Fault Refusal :=
  if s.capacity = 0 ∨ numSamples ≤ 0 then .next s.completeProcess
  else if s.blockHolds (processedChannels numChannels s.cfg.numCh.toNat) numSamples.toNat then
    .next (s.runProcess numChannels numSamples (s.inProgress.getD ⟨none, none⟩))
  else .fault .blockSampleMissing

end Sys2Proof.Machine
end

