-- ==== Sys2Proof/Machine/Lifecycle.lean ====
section
/-! DEFINITION. The Lifecycle Controller: PREPARE and RELEASE (42_lifecycle.md). -/

namespace Sys2Proof.Machine

/-- The registers a successful PREPARE writes after the resize (R94). -/
def State.startSession (sampleRate : F64) (maxBlockLength : Int) (s : State) : State :=
  { s with sampleRate := sampleRate, maxBlock := BitVec.ofInt 32 maxBlockLength, writeCursor := 0 }

/-- The capacitySamples operand that PREPARE gives SRESIZE (R91, R92). -/
def State.capacityOperand (s : State) (sampleRate : F64) : Int :=
  capField s.cfg.capMax.toNat (requestedCapacity s.cfg.maxDelaySeconds sampleRate)

/-- PREPARE (R94): resize to the requested capacity; a nonzero code is raised and nothing else changes (R95). -/
def execPrepare (sampleRate : F64) (maxBlockLength : Int) (s : State) : Host.Outcome State Fault Refusal :=
  match resizeStore s.cfg.numCh.toNat (s.capacityOperand sampleRate) s with
  | .error f => .fault f
  | .ok (.ok, s') => .next ((s'.startSession sampleRate maxBlockLength).raiseStatus .ok)
  | .ok (code, _) => .next (s.raiseStatus code)

/-- RELEASE (R97): the eager reading of 92_eei_decisions.md D13. -/
def execRelease (s : State) : Host.Outcome State Fault Refusal :=
  .next (s.discardStore.raiseStatus .ok)

end Sys2Proof.Machine
end

