-- ==== Sys2Proof/Machine/Parameters.lean ====
section
/-! DEFINITION. The Parameter Surface: SETGAIN and SETDELAY (43_parameter_surface.md). -/

namespace Sys2Proof.Machine

/-- SETGAIN (R98): VAL is stored unchanged, with no range check (R100). -/
def execSetgain (val : F32) (s : State) : Host.Outcome State Fault Refusal :=
  .next ((s.writeGain val).raiseParamStatus .ok)

/-- SETDELAY (R99): VAL is stored unchanged, with no range check (R100). -/
def execSetdelay (val : F32) (s : State) : Host.Outcome State Fault Refusal :=
  .next ((s.writeDelay val).raiseParamStatus .ok)

end Sys2Proof.Machine
end

