-- ==== Sys2Proof/Machine/Store.lean ====
section
/-! DEFINITION. The Ring Buffer Store's micro-operations as instructions: SWRITE, SREAD, SRESIZE (40_ring_buffer_store.md).
PREPARE and PROCESS use the same operations of Machine/Ops.lean directly. -/

namespace Sys2Proof.Machine

/-- SWRITE (R72), under the precondition of R70. It returns nothing (R58). -/
def execSwrite (channel : Nat) (position : Int) (value : F32) (s : State) : Host.Outcome State Fault Refusal :=
  match s.storeFault channel with
  | some f => .fault f
  | none => .next ((s.storeWrite channel position value).replyStore .nothing)

/-- SREAD (R73), under the precondition of R70: the value read is what the store interface returns. -/
def execSread (channel : Nat) (position : Int) (s : State) : Host.Outcome State Fault Refusal :=
  match s.storeFault channel with
  | some f => .fault f
  | none => .next (s.replyStore (.value (s.storeRead channel position)))

/-- SRESIZE (R71): the code is what the store interface returns. -/
def execSresize (numChannels : Nat) (capacitySamples : Int) (s : State) : Host.Outcome State Fault Refusal :=
  match resizeStore numChannels capacitySamples s with
  | .error f => .fault f
  | .ok (code, s') => .next (s'.replyStore (.code code))

end Sys2Proof.Machine
end

