-- ==== Sys2Proof/Machine/Dispatch.lean ====
section
/-! DEFINITION. One arm per constructor of Instr: its meaning. -/

namespace Sys2Proof.Machine

/-- The meaning of every instruction (R60). -/
def exec (i : Instr) (s : State) : Host.Outcome State Fault Refusal :=
  match i with
  -- command port
  | .prepare sampleRate maxBlockLength => Sys2Proof.Machine.execPrepare sampleRate maxBlockLength s
  | .release => Sys2Proof.Machine.execRelease s
  | .process numChannels numSamples => Sys2Proof.Machine.execProcess numChannels numSamples s
  -- parameter port
  | .setgain val => Sys2Proof.Machine.execSetgain val s
  | .setdelay val => Sys2Proof.Machine.execSetdelay val s
  -- store interface
  | .swrite channel position value => Sys2Proof.Machine.execSwrite channel position value s
  | .sread channel position => Sys2Proof.Machine.execSread channel position s
  | .sresize numChannels capacitySamples => Sys2Proof.Machine.execSresize numChannels capacitySamples s

end Sys2Proof.Machine
end

