-- ==== Sys2Proof/Machine/Ports.lean ====
section
/-! DEFINITION. What one turn of each agent does: taking a descriptor from a port, decoding it and executing it, and the
outside agents' accesses to block memory (R20, R21, R46, R61). -/

namespace Sys2Proof.Machine

/-- A turn of the command port. An illegal descriptor changes nothing but STATUS (R61). -/
def commandTurn (s : State) : Host.Outcome State Fault Refusal :=
  match s.commandPort with
  | [] => .next s.passTurn
  | d :: _ =>
    match decodeCommand d with
    | .ok i => mapNext State.retireCommand (exec i s)
    | .error _ => .next (s.raiseStatus .illegalCommand).retireCommand

/-- A turn of the parameter port. An illegal descriptor changes nothing but PSTATUS (R61). -/
def parameterTurn (s : State) : Host.Outcome State Fault Refusal :=
  match s.paramPort with
  | [] => .next s.passTurn
  | d :: _ =>
    match decodeParameter d with
    | .ok i => mapNext State.retireParameter (exec i s)
    | .error _ => .next (s.raiseParamStatus .illegalCommand).retireParameter

/-- A turn of the store interface. A micro-operation with no meaning is a model fault (R63). -/
def storeTurn (s : State) : Host.Outcome State Fault Refusal :=
  match s.microPort with
  | [] => .next s.passTurn
  | u :: _ =>
    match decodeMicroOp u with
    | .ok i => mapNext State.retireMicroOp (exec i s)
    | .error _ => .fault .illegalMicroOp

/-- One access to block memory by an outside agent (R44). -/
def State.accessBlock (s : State) : BlockAccess → State
  | .read a => { s with blockReply := s.block.read unlistedBlock a }
  | .write a v => { s with block := s.block.write unlistedBlock a v }
  | .withdraw a => { s with block := s.block.unlist a }

/-- A turn of the outside agents at block memory: stuck while a PROCESS is in progress (R46). -/
def blockAccessTurn (s : State) : Host.Outcome State Fault Refusal :=
  match s.blockAccesses with
  | [] => .next s.passTurn
  | a :: _ =>
    if s.inProgress.isSome then .fault .blockAccessDuringProcess
    else .next (s.accessBlock a).retireBlockAccess

/-- What the next turn does. -/
def takeTurn (s : State) : Host.Outcome State Fault Refusal :=
  match s.nextTurn with
  | .command          => commandTurn s
  | .commandStart     => commandTurn s
  | .commandReadGain  => commandTurn s
  | .commandReadDelay => commandTurn s
  | .parameter        => parameterTurn s
  | .blockAccess      => blockAccessTurn s
  | .store            => storeTurn s

/-- A descriptor at the head of a port, with the next turn given to that port to run it to completion. The command port
takes a descriptor only when no PROCESS is in progress (R21; DESIGN CHOICE, log entry 10). -/
def State.presentAt (p : Port) (d : Descriptor) (s : State) : State :=
  match p with
  | .command   => { s with commandPort := d :: s.commandPort, schedule := .command :: s.schedule, inProgress := none }
  | .parameter => { s with paramPort := d :: s.paramPort, schedule := .parameter :: s.schedule }
  | .store     => { s with microPort := d :: s.microPort, schedule := .store :: s.schedule }

end Sys2Proof.Machine
end

