-- ==== Sys2Proof/Machine/Step.lean ====
section
/-! DEFINITION. One step: one turn of one agent. -/

namespace Sys2Proof.Machine

/-- One step of the machine (R20): whoever's turn it is steps. -/
def step (s : State) : Host.Outcome State Fault Refusal := takeTurn s

/-- `s` with the instruction of an opcode-table word at the port that the next step serves. -/
def State.withFetchWord (s : State) (nbits w : Nat) : State :=
  s.presentAt (portOfWord (descriptorOfTableWord nbits w)) (descriptorOfTableWord nbits w)

end Sys2Proof.Machine
end

