-- ==== Sys2Proof/Machine/Assembler.lean ====
section
/-! DEFINITION. The assembly syntax of R66, "one line per descriptor", and the host actions of R67. Text is a list of
characters. Nothing in a step depends on this file: it is how the programs of 95_test_vectors.md are spelled. What R66 leaves open of the
spelling is a DESIGN CHOICE, log entry 21. -/

namespace Sys2Proof.Machine

/-! ### Characters and lines -/

/-- The value of a decimal digit. -/
def decimalDigit (c : Char) : Option Nat :=
  if '0' ≤ c ∧ c ≤ '9' then some (c.toNat - '0'.toNat) else none

/-- The value of a hexadecimal digit, of either case. -/
def hexDigit (c : Char) : Option Nat :=
  if '0' ≤ c ∧ c ≤ '9' then some (c.toNat - '0'.toNat)
  else if 'a' ≤ c ∧ c ≤ 'f' then some (c.toNat - 'a'.toNat + 10)
  else if 'A' ≤ c ∧ c ≤ 'F' then some (c.toNat - 'A'.toNat + 10)
  else none

/-- A numeral in a base, most significant digit first. `none` when a character is no digit. -/
def numeral (digit : Char → Option Nat) (base : Nat) : Nat → List Char → Option Nat
  | acc, [] => some acc
  | acc, c :: cs =>
    match digit c with
    | some d => numeral digit base (base * acc + d) cs
    | none => none

/-- "A `;` starts a comment that runs to the end of the line." -/
def dropComment : List Char → List Char
  | [] => []
  | c :: cs => if c = ';' then [] else c :: dropComment cs

/-- The characters before the first one that passes the test, and those after it; `none` when none does. -/
def splitAtFirst (p : Char → Bool) : List Char → Option (List Char × List Char)
  | [] => none
  | c :: cs =>
    if p c then some ([], cs)
    else match splitAtFirst p cs with
      | some (a, b) => some (c :: a, b)
      | none => none

/-- A space or a tab. -/
def isBlank (c : Char) : Bool := decide (c = ' ') || decide (c = '\t')

/-- No blanks before or after. -/
def trimBlanks (cs : List Char) : List Char := ((cs.dropWhile isBlank).reverse.dropWhile isBlank).reverse

/-! ### Operands -/

/-- An optional sign, and what follows it. -/
def splitSign : List Char → Bool × List Char
  | '-' :: cs => (true, cs)
  | '+' :: cs => (false, cs)
  | cs => (false, cs)

/-- An integer operand: "decimal literals in [-2^31, 2^31 - 1]". -/
def parseInt32 (cs : List Char) : Option Int :=
  let (neg, digits) := splitSign cs
  if digits = [] then none
  else match numeral decimalDigit 10 0 digits with
    | none => none
    | some n => if isInt32 (signedInt neg n) then some (signedInt neg n) else none

/-- The digits of a decimal real literal as a fraction: `12.5` is (125, 10). -/
def parseDecimal (cs : List Char) : Option (Nat × Nat) :=
  match splitAtFirst (fun c => decide (c = '.')) cs with
  | none => if cs = [] then none else (numeral decimalDigit 10 0 cs).map fun n => (n, 1)
  | some (whole, frac) =>
    if whole = [] ∨ frac = [] then none
    else (numeral decimalDigit 10 0 (whole ++ frac)).map fun n => (n, 10 ^ frac.length)

/-- The quiet NaN magnitude that `nan` stands for: exponent all ones, the top fraction bit 1. -/
def quietNanMagnitude (f : FloatFormat) : Nat := infMagnitude f + 2 ^ (f.fracBits - 1)

/-- A real operand without its sign: `nan`, `inf`, or a decimal literal rounded to nearest, ties to even. -/
def parseMagnitude (f : FloatFormat) (cs : List Char) : Option Nat :=
  if cs = ['n', 'a', 'n'] then some (quietNanMagnitude f)
  else if cs = ['i', 'n', 'f'] then some (infMagnitude f)
  else (parseDecimal cs).map fun (n, d) => roundMagnitude f n d 0

/-- What follows a prefix, if the text has it. -/
def afterPrefix : List Char → List Char → Option (List Char)
  | [], cs => some cs
  | p :: ps, c :: cs => if p = c then afterPrefix ps cs else none
  | _ :: _, [] => none

/-- A real operand: the exact pattern in `digits` hex digits after its tag (`f64:0x` or `f32:0x`), or a signed magnitude. -/
def parseReal (f : FloatFormat) (tag : List Char) (digits : Nat) (cs : List Char) : Option Nat :=
  match afterPrefix tag cs with
  | some hex => if hex.length = digits then numeral hexDigit 16 0 hex else none
  | none =>
    let (neg, rest) := splitSign cs
    (parseMagnitude f rest).map (signed f neg)

/-- A binary64 operand. -/
def parseF64 (cs : List Char) : Option F64 :=
  (parseReal binary64 ['f', '6', '4', ':', '0', 'x'] 16 cs).map (BitVec.ofNat 64)

/-- A binary32 operand. -/
def parseF32 (cs : List Char) : Option F32 :=
  (parseReal binary32 ['f', '3', '2', ':', '0', 'x'] 8 cs).map (BitVec.ofNat 32)

/-! ### Lines -/

/-- The two operands of a line, separated by a comma. -/
def twoOperands (cs : List Char) : Option (List Char × List Char) :=
  (splitAtFirst (fun c => decide (c = ',')) cs).map fun (a, b) => (trimBlanks a, trimBlanks b)

/-- What a line of assembly is. -/
inductive AsmLine where
  /-- A blank line, or a comment. -/
  | empty
  | instr (i : Instr)
  /-- No line of R66. -/
  | error
  deriving DecidableEq, Repr

/-- `error` where an operand cannot be read. -/
def AsmLine.ofOption : Option Instr → AsmLine
  | some i => .instr i
  | none => .error

/-- The instruction of a mnemonic and its operand text. -/
def assembleInstr (mnemonic operands : List Char) : Option Instr :=
  if mnemonic = ['p', 'r', 'e', 'p', 'a', 'r', 'e'] then
    match twoOperands operands with
    | none => none
    | some (a, b) =>
      match parseF64 a, parseInt32 b with
      | some sr, some n => some (.prepare sr n)
      | some _, none => none
      | none, _ => none
  else if mnemonic = ['r', 'e', 'l', 'e', 'a', 's', 'e'] then
    if operands = [] then some .release else none
  else if mnemonic = ['p', 'r', 'o', 'c', 'e', 's', 's'] then
    match twoOperands operands with
    | none => none
    | some (a, b) =>
      match parseInt32 a, parseInt32 b with
      | some c, some n => some (.process c n)
      | some _, none => none
      | none, _ => none
  else if mnemonic = ['s', 'e', 't', 'g', 'a', 'i', 'n'] then (parseF32 operands).map .setgain
  else if mnemonic = ['s', 'e', 't', 'd', 'e', 'l', 'a', 'y'] then (parseF32 operands).map .setdelay
  else none

/-- One line of assembly (R66). -/
def assembleLine (line : List Char) : AsmLine :=
  let text := trimBlanks (dropComment line)
  if text = [] then .empty
  else match splitAtFirst isBlank text with
    | none => .ofOption (assembleInstr text [])
    | some (mnemonic, operands) => .ofOption (assembleInstr mnemonic (trimBlanks operands))

/-- The descriptor of a line, with the port it is issued at. -/
def assembleDescriptor (line : List Char) : Option (Port × Descriptor) :=
  match assembleLine line with
  | .instr i => some (i.port, encode i)
  | .empty => none
  | .error => none

/-! ### Host actions (R67) -/

/-- `block c: [v0, v1, ...]`: "writes samples v0, v1, ... into channel c of block memory before the next process", the first
of them at index `i`. -/
def blockAction (c : Nat) : Nat → List F32 → List BlockAccess
  | _, [] => []
  | i, v :: vs => .write ⟨c, i⟩ v :: blockAction c (i + 1) vs

/-- `expect c: [v0, v1, ...]`: "the block memory contents of channel c", from index `i` on. -/
def State.expects (s : State) (c : Nat) : Nat → List F32 → Bool
  | _, [] => true
  | i, v :: vs => decide (s.block.read unlistedBlock ⟨c, i⟩ = some v) && s.expects c (i + 1) vs

end Sys2Proof.Machine
end

