-- ==== Sys2Proof/Machine/Flags.lean ====
section
/-! DEFINITION. The two status registers as their agents read them (R28, R29): the code in bits [1:0], bits [31:2] hardwired 0
(log entry 15). RBDL has no other condition code. -/

namespace Sys2Proof.Machine

/-- The number of a status code (R103). -/
def StatusCode.bits : StatusCode → BitVec 2
  | .ok => 0
  | .invalidCapacity => 1
  | .capacityExceedsStorage => 2
  | .illegalCommand => 3

/-- A status register as a word. -/
def statusWord (c : StatusCode) : Word := c.bits.zeroExtend 32

/-- STATUS as returned to the host agent (R28). -/
def State.readStatus (s : State) : Word := statusWord s.status

/-- PSTATUS as returned to the control agent (R29). -/
def State.readPstatus (s : State) : Word := statusWord s.pstatus

end Sys2Proof.Machine
end

