-- ==== Sys2Proof/Safety.lean ====
section
/-! DEFINITION. What counts as a good build, a good state and a safe step, in the terms the statements use. -/

namespace Sys2Proof.Machine

/-- A finite binary64 above 0 (R9). -/
def isFinitePositive (x : F64) : Bool :=
  match decodeFloat binary64 x.toNat with
  | .finite false m _ => decide (m ≠ 0)
  | .finite true _ _ => false
  | .inf _ => false
  | .nan => false

/-- The ranges of the parameters of 00_scope.md section 4 (R7, R8, R9). Their upper ends are the widths of the fields. -/
structure LegalBuild (cfg : Config) : Prop where
  someChannel : cfg.numCh ≠ 0
  someStorage : cfg.capMax ≠ 0
  maxDelay    : isFinitePositive cfg.maxDelaySeconds = true

/-- Every listed cell of STORE is one of its NUM_CH x CAPACITY cells (R32). -/
def State.storeInShape (s : State) : Prop :=
  ∀ e ∈ s.store, e.1.channel < s.cfg.numCh.toNat ∧ e.1.index < s.capacity.toNat

/-- R33 (a): unprepared. -/
structure State.Unprepared (s : State) : Prop where
  capacity : s.capacity = 0
  cursor   : s.writeCursor = 0
  noCells  : s.store = []

/-- R33 (b): prepared. -/
structure State.Prepared (s : State) : Prop where
  capacityPos : 1 ≤ s.capacity.toNat
  capacityMax : s.capacity.toNat ≤ s.cfg.capMax.toNat
  cursor      : s.writeCursor.toNat < s.capacity.toNat
  cells       : s.storeInShape
  rate        : requestedCapacity s.cfg.maxDelaySeconds s.sampleRate = some (.int s.capacity.toNat)

/-- The canonical form of both memories. -/
structure State.MemoryOk (s : State) : Prop where
  store : s.store.wf unlistedStore
  block : s.block.wf unlistedBlock

/-- While a PROCESS is in progress its descriptor stands at the head of the command port, RBDL is prepared, the block is
not empty and the host has supplied its samples (R21, R45, R75, R76). -/
def State.ProcessOk (s : State) : Prop :=
  s.inProgress ≠ none → s.capacity ≠ 0 ∧ ∃ d rest nc ns, s.commandPort = d :: rest ∧
    decodeCommand d = .ok (.process nc ns) ∧ 0 < ns ∧
    s.blockHolds (processedChannels nc s.cfg.numCh.toNat) ns.toNat = true

/-- The invariant of the machine: R33, the legal values of PSTATUS (10_state.md, register table), the canonical memories,
the state of a PROCESS in progress, and a store interface that only the engine drives (R58). -/
structure State.Inv (s : State) : Prop where
  build     : LegalBuild s.cfg
  session   : s.Unprepared ∨ s.Prepared
  memory    : s.MemoryOk
  pstatus   : s.pstatus = .ok ∨ s.pstatus = .illegalCommand
  process   : s.ProcessOk
  noMicroOp : s.microPort = []

/-! ### Turns -/

/-- The turns that the command port is served on. -/
def Turn.servesCommand : Turn → Bool
  | .command | .commandStart | .commandReadGain | .commandReadDelay => true
  | .parameter | .blockAccess | .store => false

/-- The turns on which a PROCESS runs to completion: all but the three that stop it at one of its own steps (R77). -/
def Turn.completes : Turn → Bool
  | .commandStart | .commandReadGain | .commandReadDelay => false
  | .command | .parameter | .blockAccess | .store => true

/-- What a port does with its descriptor once it is done with it. -/
def retireAt : Port → State → State
  | .command   => State.retireCommand
  | .parameter => State.retireParameter
  | .store     => State.retireMicroOp

/-! ### Host duties and safe steps -/

/-- The samples of block memory that a PROCESS of these operands works on are there (R45). -/
def State.Supplied (s : State) (numChannels numSamples : Int) : Prop :=
  ∀ c < processedChannels numChannels s.cfg.numCh.toNat, ∀ i < numSamples.toNat,
    (s.block.read unlistedBlock ⟨c, i⟩).isSome = true

/-- The host's duties at this step (R45, R46): no access to block memory while a PROCESS is in progress, and, on a turn of
the command port, the samples of the PROCESS it runs are there. While unprepared, and for an empty block, it needs none
(R75, R76), and while another agent has the turn the host may still be writing the block (R50). -/
structure State.HostDuties (s : State) : Prop where
  ownership : s.nextTurn = .blockAccess → s.blockAccesses ≠ [] → s.inProgress = none
  supplied  : s.nextTurn.servesCommand = true → s.capacity ≠ 0 → ∀ d rest nc ns,
    s.commandPort = d :: rest → decodeCommand d = .ok (.process nc ns) → s.Supplied nc ns

/-! ### PROCESS in the terms of R80 to R87 -/

/-- The largest `i` below `n` for which `wc + i` names the same cell as `p`: the last SWRITE of the write phase to it
(R69, R80). -/
def lastWrite (wc p : Int) (cap : Nat) : Nat → Option Nat
  | 0 => none
  | n + 1 => if (wc + n) % cap = p % cap then some n else lastWrite wc p cap n

/-- What a logical position of a processed channel holds after the write phase (R80): the dry input of the last write to
its cell, or what was there. -/
def State.afterWrites (s : State) (c len : Nat) (p : Int) : F32 :=
  match lastWrite s.writeCursor.toNat p s.capacity.toNat len with
  | some j => s.ioRead c j
  | none => s.storeRead c p

/-- The gain G that a PROCESS in this state has sampled or is to sample (R77). -/
def State.sampledGain (s : State) : F32 := (s.inProgress.bind Sampling.gain).getD s.paramGain

/-- The delay time T that a PROCESS in this state has sampled or is to sample (R77). -/
def State.sampledDelay (s : State) : F32 := (s.inProgress.bind Sampling.delay).getD s.paramDelayMs

/-- The state after the body of PROCESS as R74 and R80 to R85 give it, said through reads: `g` and `t` are the gain and the
delay time sampled for the block, `n` the processed channels, `len` the samples. -/
structure BlockDone (n len : Nat) (g t : F32) (s s' : State) : Prop where
  /-- The mix, in place (R81, R82). -/
  outputs : ∀ c < n, ∀ i < len, s'.ioRead c i =
    mix (s.draws + c * len + i) (s.ioRead c i) g (s.afterWrites c len (s.writeCursor.toNat - s.delayOf t + i))
  /-- Every other sample of block memory is as it was (R44, R79). -/
  others : ∀ a : CellAddr, ¬ (a.channel < n ∧ a.index < len) →
    s'.block.read unlistedBlock a = s.block.read unlistedBlock a
  /-- The rows of the processed channels hold the dry input (R80, R83). -/
  rows : ∀ c < n, ∀ p : Int, s'.storeRead c p = s.afterWrites c len p
  /-- The other rows are as they were (R79). -/
  otherRows : ∀ a : CellAddr, n ≤ a.channel → s'.store.read unlistedStore a = s.store.read unlistedStore a
  /-- The cursor advance (R84). -/
  cursor : (s'.writeCursor.toNat : Int) = (s.writeCursor.toNat + len) % s.capacity.toNat
  /-- STATUS is OK and no PROCESS is in progress (R85). -/
  status : s'.status = .ok
  idle   : s'.inProgress = none
  /-- Everything else is as it was: the registers, the parameters, the ports, the replies (R101). -/
  frame  :
    { s' with
      block := s.block, store := s.store, writeCursor := s.writeCursor, status := s.status,
      inProgress := s.inProgress, draws := s.draws } = s
  /-- MODEL'S OWN: one draw is counted for each output sample. -/
  draws  : s'.draws = s.draws + n * len

/-- The absolute history of a channel (R87): `x` numbers its dry input samples from the start of the session, `b` of them
have been delivered, and STORE holds the last CAPACITY of them, with +0.0 before the first. -/
structure HistoryHolds (s : State) (c : Nat) (x : Nat → F32) (b : Nat) : Prop where
  cursor : s.writeCursor.toNat = b % s.capacity.toNat
  cells  : ∀ p : Int, (b : Int) - s.capacity.toNat ≤ p → p < b → s.storeRead c p = if p < 0 then 0 else x p.toNat

/-- `m* = m + C * floor((b + L - 1 - m) / C)` (R87). -/
def lastAlias (cap b len : Nat) (m : Int) : Int := m + cap * (((b : Int) + len - 1 - m) / cap)

/-- The same instruction, executed `n` times. -/
def execTimes (i : Instr) : Nat → State → Host.Outcome State Fault Refusal
  | 0, s => .next s
  | n + 1, s =>
    match exec i s with
    | .next t => execTimes i n t
    | .fault f => .fault f
    | .refused r => .refused r

/-- `n` steps of the machine. -/
def stepTimes : Nat → State → Host.Outcome State Fault Refusal
  | 0, s => .next s
  | n + 1, s =>
    match step s with
    | .next t => stepTimes n t
    | .fault f => .fault f
    | .refused r => .refused r

/-! ### Bits of a descriptor, read as numbers (R12) -/

/-- `v[hi:lo]`, "bits hi down to lo of v, inclusive, as an unsigned number". -/
def bitsOf (d : Descriptor) (hi lo : Nat) : Nat := d.toNat / 2 ^ lo % 2 ^ (hi + 1 - lo)

/-- `sext_n(v)` of an `n`-bit number, "reading its top bit as the sign". -/
def sext (n v : Nat) : Int := if v < 2 ^ (n - 1) then v else v - 2 ^ n

/-- R61, first list: the descriptor is illegal on the command port. -/
def IllegalOnCommandPort (d : Descriptor) : Prop :=
  (bitsOf d 7 0 ≠ 0x01 ∧ bitsOf d 7 0 ≠ 0x02 ∧ bitsOf d 7 0 ≠ 0x03) ∨
  bitsOf d 31 8 ≠ 0 ∨
  (bitsOf d 7 0 = 0x02 ∧ (bitsOf d 63 32 ≠ 0 ∨ bitsOf d 95 64 ≠ 0 ∨ bitsOf d 127 96 ≠ 0)) ∨
  (bitsOf d 7 0 = 0x03 ∧ bitsOf d 127 96 ≠ 0)

/-- R61, second list: the descriptor is illegal on the parameter port. -/
def IllegalOnParameterPort (d : Descriptor) : Prop :=
  (bitsOf d 7 0 ≠ 0x10 ∧ bitsOf d 7 0 ≠ 0x11) ∨
  bitsOf d 31 8 ≠ 0 ∨
  bitsOf d 95 64 ≠ 0 ∨ bitsOf d 127 96 ≠ 0

/-- R63: the micro-operation has no meaning. -/
def IllegalMicroOp (u : Descriptor) : Prop :=
  bitsOf u 1 0 = 0 ∨ bitsOf u 7 2 ≠ 0 ∨ bitsOf u 127 96 ≠ 0 ∨
  ((bitsOf u 1 0 = 2 ∨ bitsOf u 1 0 = 3) ∧ bitsOf u 95 64 ≠ 0)

/-! ### IEEE 754 rounding (R16) -/

/-- The exact value of a sign, significand and exponent. -/
def exactValue (neg : Bool) (m : Nat) (e : Int) : Rat := (if neg then -1 else 1) * (m : Rat) * (2 : Rat) ^ e

/-- What a magnitude pattern of a format is worth. -/
def magnitudeValue (f : FloatFormat) (magnitude : Nat) : Rat :=
  match decodeFloat f magnitude with
  | .finite _ m e => exactValue false m e
  | .inf _ => 0
  | .nan => 0

/-- The magnitude pattern is `x` "rounded to nearest, ties to even" (R16): a finite one is as near to `x` as every other, and
even if another is just as near; +inf is reached from half a unit in the last place past the largest finite value on. -/
structure NearestEven (f : FloatFormat) (x : Rat) (magnitude : Nat) : Prop where
  range    : magnitude ≤ infMagnitude f
  nearest  : magnitude < infMagnitude f → ∀ q < infMagnitude f,
    |x - magnitudeValue f magnitude| ≤ |x - magnitudeValue f q|
  even     : magnitude < infMagnitude f → ∀ q < infMagnitude f, q ≠ magnitude →
    |x - magnitudeValue f magnitude| = |x - magnitudeValue f q| → magnitude % 2 = 0
  overflow : magnitude = infMagnitude f ↔
    magnitudeValue f (infMagnitude f - 1) +
      (magnitudeValue f (infMagnitude f - 1) - magnitudeValue f (infMagnitude f - 2)) / 2 ≤ x

/-- The infinities of binary32, as patterns. -/
def f32Infinity (neg : Bool) : F32 := if neg then 0xFF800000 else 0x7F800000

/-- The infinities of binary64, as patterns. -/
def f64Infinity (neg : Bool) : F64 := if neg then 0xFFF0000000000000 else 0x7FF0000000000000

/-- The zeros of binary64, as patterns. -/
def f64Zero (neg : Bool) : F64 := if neg then 0x8000000000000000 else 0x0000000000000000

end Sys2Proof.Machine
end

