-- ==== Sys2Proof/Certificates/Slice0/Obligations.lean ====
section
/-! DEFINITION. The statements for the provers. Each docstring names the rule of the spec it formalises. A statement about
every state is one about every build, since the parameters of the build are a field of State. -/

open Sys2Proof Sys2Proof.Machine

/-! ### Encoding -/

/-- No bit of an instruction is lost: decoding what the encoder writes gives the instruction back, for every operand that
the fields of R56 to R59 admit. -/
def Obligations.DecodeOfEncodeIsTheInstruction : Prop :=
  ∀ i : Instr, i.wellFormed = true → decode i.port (encode i) = .ok i

/-- A legal descriptor has one meaning and no other descriptor has it: what a port decodes is well formed, belongs to the
port, and encodes to that very descriptor (R59, R60, R61). -/
def Obligations.EncodeOfDecodeIsTheDescriptor : Prop :=
  ∀ (p : Port) (d : Descriptor) (i : Instr), decode p d = .ok i → i.wellFormed = true ∧ i.port = p ∧ encode i = d

/-- A descriptor's bytes are little-endian, sixteen of them, and decoding takes exactly those (R37, R65). -/
def Obligations.DescriptorBytesAreLittleEndian : Prop :=
  ∀ (p : Port) (d : Descriptor) (rest : List Byte),
    (descriptorBytes d).length = 16 ∧
    (∀ k < 16, (descriptorBytes d)[k]? = some (BitVec.ofNat 8 (bitsOf d (8 * k + 7) (8 * k)))) ∧
    decodeBytes p (descriptorBytes d ++ rest) = (decode p d).map fun i => (i, rest)

/-- Decode on the command port (R62, first half), bit by bit. -/
def Obligations.CommandPortDecodesAsStated : Prop :=
  ∀ d : Descriptor,
    (bitsOf d 31 8 = 0 → bitsOf d 7 0 = 0x01 → decode .command d =
      .ok (.prepare (BitVec.ofNat 64 (bitsOf d 95 64 * 2 ^ 32 + bitsOf d 63 32)) (sext 32 (bitsOf d 127 96)))) ∧
    (bitsOf d 31 8 = 0 → bitsOf d 7 0 = 0x02 → bitsOf d 127 32 = 0 → decode .command d = .ok .release) ∧
    (bitsOf d 31 8 = 0 → bitsOf d 7 0 = 0x03 → bitsOf d 127 96 = 0 → decode .command d =
      .ok (.process (sext 32 (bitsOf d 63 32)) (sext 32 (bitsOf d 95 64)))) ∧
    (IllegalOnCommandPort d ↔ ∃ e, decode .command d = .error e)

/-- Decode on the parameter port (R62, second half), bit by bit. -/
def Obligations.ParameterPortDecodesAsStated : Prop :=
  ∀ d : Descriptor,
    (bitsOf d 31 8 = 0 → bitsOf d 127 64 = 0 → bitsOf d 7 0 = 0x10 → decode .parameter d =
      .ok (.setgain (BitVec.ofNat 32 (bitsOf d 63 32)))) ∧
    (bitsOf d 31 8 = 0 → bitsOf d 127 64 = 0 → bitsOf d 7 0 = 0x11 → decode .parameter d =
      .ok (.setdelay (BitVec.ofNat 32 (bitsOf d 63 32)))) ∧
    (IllegalOnParameterPort d ↔ ∃ e, decode .parameter d = .error e)

/-- Decode on the store interface: the fields of R58 as R59 extends them. -/
def Obligations.MicroOperationDecodesAsStated : Prop :=
  ∀ u : Descriptor,
    (¬ IllegalMicroOp u → bitsOf u 1 0 = 1 → decode .store u =
      .ok (.swrite (bitsOf u 23 8) (sext 40 (bitsOf u 63 24)) (BitVec.ofNat 32 (bitsOf u 95 64)))) ∧
    (¬ IllegalMicroOp u → bitsOf u 1 0 = 2 → decode .store u =
      .ok (.sread (bitsOf u 23 8) (sext 40 (bitsOf u 63 24)))) ∧
    (¬ IllegalMicroOp u → bitsOf u 1 0 = 3 → decode .store u =
      .ok (.sresize (bitsOf u 23 8) (sext 40 (bitsOf u 63 24)))) ∧
    (IllegalMicroOp u ↔ ∃ e, decode .store u = .error e)

/-- Words written out from the spec's encodings (30_encoding.md section 7, 95_test_vectors.md L2.2): one or more of every
family. A sanity statement. -/
def Obligations.EncodingExamplesDecode : Prop :=
  decode .command 0x000001E040E770000000000000000001 = .ok (.prepare 0x40E7700000000000 480) ∧
  decode .command 0x00000000000000000000000000000002 = .ok .release ∧
  decode .command 0x00000000000001E00000000200000003 = .ok (.process 2 480) ∧
  decode .command 0x00000000FFFFFFFD0000000100000003 = .ok (.process 1 (-3)) ∧
  decode .parameter 0x00000000000000003F7D70A400000010 = .ok (.setgain 0x3F7D70A4) ∧
  decode .parameter 0x000000000000000045BB800000000011 = .ok (.setdelay 0x45BB8000) ∧
  decode .store 0x000000007FC00001FFFFFFFFFF000001 = .ok (.swrite 0 (-1) 0x7FC00001) ∧
  decode .store 0x0000000000000000FFFFFFFFFE000002 = .ok (.sread 0 (-2)) ∧
  decode .store 0x00000000000000000000017700000203 = .ok (.sresize 2 96000)

/-- A line of assembly (R66) gives an instruction of one of the two ports whose operands fit its fields, so that decoding
the descriptor it assembles to gives that instruction back; "SU micro-operations have no assembly syntax". The literals
the assembler takes are log entry 21's. -/
def Obligations.AssemblyGivesPortInstructions : Prop :=
  ∀ (line : List Char) (i : Instr), assembleLine line = .instr i →
    i.wellFormed = true ∧ i.port ≠ .store ∧ assembleDescriptor line = some (i.port, encode i) ∧
      decode i.port (encode i) = .ok i

/-! ### Steps and ports -/

/-- A step of the port whose turn it is runs the instruction its descriptor decodes to, and adds: the turn is over, and
the descriptor leaves the port, unless a PROCESS is then in progress, whose descriptor stays (R21). Turns and queues are
the model's way to hold the agents: log entries 6 and 19. -/
def Obligations.StepRunsTheDecodedInstruction : Prop :=
  ∀ (s : State) (d : Descriptor) (rest : List Descriptor) (i : Instr),
    (s.nextTurn.servesCommand = true → s.commandPort = d :: rest → decode .command d = .ok i →
      step s = mapNext State.retireCommand (exec i s)) ∧
    (s.nextTurn = .parameter → s.paramPort = d :: rest → decode .parameter d = .ok i →
      step s = mapNext State.retireParameter (exec i s)) ∧
    (s.nextTurn = .store → s.microPort = d :: rest → decode .store d = .ok i →
      step s = mapNext State.retireMicroOp (exec i s)) ∧
    (s.inProgress = none → s.retireCommand =
      { s with schedule := s.schedule.tail, commandPort := s.commandPort.tail }) ∧
    (s.inProgress ≠ none → s.retireCommand = { s with schedule := s.schedule.tail }) ∧
    s.retireParameter = { s with schedule := s.schedule.tail, paramPort := s.paramPort.tail } ∧
    s.retireMicroOp = { s with schedule := s.schedule.tail, microPort := s.microPort.tail }

/-- The very next step after `withFetchWord` runs the instruction that `decodeTableWord` reads from the word, whatever the
state was. The model's own: log entries 8 and 10. -/
def Obligations.FetchWordRunsItsInstruction : Prop :=
  ∀ (s : State) (w : Nat) (i : Instr), decodeTableWord 128 w = some i →
    step (s.withFetchWord 128 w) = mapNext (retireAt i.port) (exec i (s.withFetchWord 128 w)) ∧
    (s.withFetchWord 128 w).nextTurn.completes = true

/-- R61: "An illegal command-port descriptor changes no state except STATUS <- 3 (IllegalCommand)", and an illegal
parameter-port one none except PSTATUS <- 3, a PROCESS in progress or not. The descriptor leaves the port and the turn is
over. What is illegal is R61's two lists, in which an opcode of the other port is illegal. The turn and the queue are the
model's: log entries 6 and 19. -/
def Obligations.IllegalDescriptorsChangeOnlyTheirStatus : Prop :=
  ∀ (s : State) (d : Descriptor) (rest : List Descriptor),
    (s.nextTurn.servesCommand = true → s.inProgress = none → s.commandPort = d :: rest → IllegalOnCommandPort d →
      step s = .next { s with status := .illegalCommand, commandPort := rest, schedule := s.schedule.tail }) ∧
    (s.nextTurn = .parameter → s.paramPort = d :: rest → IllegalOnParameterPort d →
      step s = .next { s with pstatus := .illegalCommand, paramPort := rest, schedule := s.schedule.tail })

/-- A micro-operation with no meaning is a model fault (R63). -/
def Obligations.IllegalMicroOperationFaults : Prop :=
  ∀ (s : State) (u : Descriptor) (rest : List Descriptor),
    s.nextTurn = .store → s.microPort = u :: rest → IllegalMicroOp u → step s = .fault .illegalMicroOp

/-- A status register reads as its code in bits [1:0] with bits [31:2] 0, the codes being numbered 0 to 3 (R28, R29,
R103). Where the bits [31:2] are held is log entry 15's. -/
def Obligations.StatusWordsAsStated : Prop :=
  ∀ s : State,
    s.readStatus = (match s.status with
      | .ok => 0 | .invalidCapacity => 1 | .capacityExceedsStorage => 2 | .illegalCommand => 3) ∧
    s.readPstatus = (match s.pstatus with
      | .ok => 0 | .invalidCapacity => 1 | .capacityExceedsStorage => 2 | .illegalCommand => 3) ∧
    s.readStatus.toNat / 4 = 0 ∧ s.readPstatus.toNat / 4 = 0

/-! ### Reset and invariants -/

/-- The state after reset (R36), for every build. Which build `State.reset` is of is log entries 2 and 4's choice. -/
def Obligations.ResetStateAsStated : Prop :=
  ∀ cfg : Config,
    (State.resetOf cfg).capacity = 0 ∧ (State.resetOf cfg).writeCursor = 0 ∧ (State.resetOf cfg).store = [] ∧
    (State.resetOf cfg).readStatus = 0 ∧ (State.resetOf cfg).readPstatus = 0 ∧
    (State.resetOf cfg).paramGain = cfg.paramGainReset ∧ (State.resetOf cfg).paramDelayMs = cfg.paramDelayReset ∧
    (State.resetOf cfg).inProgress = none ∧ State.reset = State.resetOf Config.reference

/-- The invariant holds at reset, for every legal build and for the reference build. -/
def Obligations.ResetMeetsTheInvariant : Prop :=
  (∀ cfg : Config, LegalBuild cfg → (State.resetOf cfg).Inv) ∧ State.reset.Inv

/-- R33, made inductive: every step, of any agent, keeps the invariant. -/
def Obligations.EveryStepKeepsTheInvariant : Prop :=
  ∀ s t : State, s.Inv → step s = .next t → t.Inv

/-- Every step keeps both memories in canonical form, on the store interface too. The form is log entry 11's. -/
def Obligations.EveryStepKeepsMemoryCanonical : Prop :=
  ∀ s t : State, s.MemoryOk → step s = .next t → t.MemoryOk

/-- No command sequence reaches a model fault or a refusal: what can stop a step is a host duty that is not kept (R70,
R109). A state that the spec calls stuck is a named fault: log entry 14. -/
def Obligations.OnlyBrokenHostDutiesStop : Prop :=
  ∀ s : State, s.Inv →
    (∀ f, step s = .fault f → f = .blockSampleMissing ∨ f = .blockAccessDuringProcess) ∧
    (∀ r, step s ≠ .refused r)

/-- While the host keeps its duties every step goes on (R109, R124): that of an unprepared PROCESS without a block and that of
another agent while a PROCESS waits for its block among them. The spec's stuck states are the faults of log entry 14. -/
def Obligations.StepsGoOnWhileDutiesAreKept : Prop :=
  ∀ s : State, s.Inv → s.HostDuties → ∃ t, step s = .next t

/-- No step changes the parameters of the build (R7: "fixed when the block is built"). Where the build stands is log entry
1's. -/
def Obligations.StepsNeverChangeTheBuild : Prop :=
  ∀ s t : State, step s = .next t → t.cfg = s.cfg

/-! ### The Ring Buffer Store -/

/-- The wraparound mapping: the source's formula is emod, it stays in [0, CAPACITY), and positions a multiple of CAPACITY
apart name one cell (R15, R68, R69). -/
def Obligations.WraparoundIsEuclidean : Prop :=
  ∀ (p : Int) (cap : Nat), 0 < cap →
    (physicalPosition p cap : Int) = Int.tmod (Int.tmod p cap + cap) cap ∧
    (physicalPosition p cap : Int) = p % cap ∧ physicalPosition p cap < cap ∧
    ∀ k : Int, physicalPosition (p + k * cap) cap = physicalPosition p cap

/-- SWRITE (R72): the cell the position wraps to holds the pattern, bit for bit; every other cell reads as before; nothing
else changes but the reply of the store interface. (The reply's place is log entry 12's.) -/
def Obligations.SwriteWritesOneCell : Prop :=
  ∀ (s : State) (c : Nat) (p : Int) (v : F32), s.capacity ≠ 0 → c < s.cfg.numCh.toNat →
    ∃ t, exec (.swrite c p v) s = .next t ∧
      (∀ p' : Int, p' % s.capacity.toNat = p % s.capacity.toNat → t.storeRead c p' = v) ∧
      (∀ a : CellAddr, a ≠ ⟨c, physicalPosition p s.capacity.toNat⟩ →
        t.store.read unlistedStore a = s.store.read unlistedStore a) ∧
      { t with store := s.store, storeReply := s.storeReply } = s ∧ t.storeReply = .nothing

/-- SREAD (R73): the store interface returns what the cell holds, +0.0 where nothing is listed for it (no SWRITE since the
last SRESIZE, or one of +0.0), and no state of RBDL changes. (The reply's place is log entry 12's.) -/
def Obligations.SreadReturnsTheCell : Prop :=
  ∀ (s : State) (c : Nat) (p : Int), s.capacity ≠ 0 → c < s.cfg.numCh.toNat →
    ∃ v, s.store.read unlistedStore ⟨c, physicalPosition p s.capacity.toNat⟩ = some v ∧
      (s.store.listed ⟨c, physicalPosition p s.capacity.toNat⟩ = none → v = 0x00000000) ∧
      exec (.sread c p) s = .next { s with storeReply := .value v }

/-- SWRITE and SREAD fault with CAPACITY = 0, or with a channel the store does not have (R70). -/
def Obligations.StoreAccessOutsideItsPreconditionFaults : Prop :=
  ∀ (s : State) (c : Nat) (p : Int) (v : F32),
    (s.capacity = 0 → exec (.swrite c p v) s = .fault .storeUnprepared ∧ exec (.sread c p) s = .fault .storeUnprepared) ∧
    (s.capacity ≠ 0 → s.cfg.numCh.toNat ≤ c →
      exec (.swrite c p v) s = .fault .storeChannelOutOfRange ∧ exec (.sread c p) s = .fault .storeChannelOutOfRange)

/-- SRESIZE (R71): the two codes that change nothing, the fault, and the success that clears every cell and the cursor.
(The reply's place is log entry 12's.) -/
def Obligations.SresizeAsStated : Prop :=
  ∀ (s : State) (n : Nat) (cap : Int),
    (cap ≤ 0 → exec (.sresize n cap) s = .next { s with storeReply := .code .invalidCapacity }) ∧
    (0 < cap → s.cfg.capMax.toNat < cap →
      exec (.sresize n cap) s = .next { s with storeReply := .code .capacityExceedsStorage }) ∧
    (0 < cap → cap ≤ s.cfg.capMax.toNat → n ≠ s.cfg.numCh.toNat →
      exec (.sresize n cap) s = .fault .resizeChannelMismatch) ∧
    (0 < cap → cap ≤ s.cfg.capMax.toNat → n = s.cfg.numCh.toNat →
      ∃ t, exec (.sresize n cap) s = .next t ∧ t.storeReply = .code .ok ∧ (t.capacity.toNat : Int) = cap ∧
        t.writeCursor = 0 ∧ (∀ c p, t.storeRead c p = 0) ∧
        { t with store := s.store, capacity := s.capacity, writeCursor := s.writeCursor, storeReply := s.storeReply } = s)

/-! ### The Lifecycle Controller -/

/-- PREPARE succeeds when the requested capacity fits (R94): the new session's registers, every cell +0.0, and nothing else
changes. -/
def Obligations.PrepareStartsASession : Prop :=
  ∀ (s : State) (sr : F64) (mbl n : Int), requestedCapacity s.cfg.maxDelaySeconds sr = some (.int n) →
    1 ≤ n → n ≤ s.cfg.capMax.toNat →
    ∃ t, exec (.prepare sr mbl) s = .next t ∧ (t.capacity.toNat : Int) = n ∧ t.sampleRate = sr ∧
      t.maxBlock = BitVec.ofInt 32 mbl ∧ t.writeCursor = 0 ∧ t.status = .ok ∧ (∀ c p, t.storeRead c p = 0) ∧
      { t with
        capacity := s.capacity, sampleRate := s.sampleRate, maxBlock := s.maxBlock, writeCursor := s.writeCursor,
        status := s.status, store := s.store } = s

/-- A PREPARE that fails changes nothing but STATUS (R95): InvalidCapacity exactly when the requested capacity is at most 0
or not a number, CapacityExceedsStorage exactly when it is larger than CAP_MAX (R92, R93). -/
def Obligations.FailedPrepareChangesOnlyStatus : Prop :=
  ∀ (s : State) (sr : F64) (mbl : Int),
    (requestedCapacity s.cfg.maxDelaySeconds sr = none ∨ requestedCapacity s.cfg.maxDelaySeconds sr = some .negInf ∨
        (∃ n : Int, n ≤ 0 ∧ requestedCapacity s.cfg.maxDelaySeconds sr = some (.int n)) →
      exec (.prepare sr mbl) s = .next { s with status := .invalidCapacity }) ∧
    (requestedCapacity s.cfg.maxDelaySeconds sr = some .posInf ∨
        (∃ n : Int, (s.cfg.capMax.toNat : Int) < n ∧ requestedCapacity s.cfg.maxDelaySeconds sr = some (.int n)) →
      exec (.prepare sr mbl) s = .next { s with status := .capacityExceedsStorage })

/-- "Two successful PREPAREs with the same operands leave the same state: the same CAPACITY, WRITE_CURSOR = 0, and every cell
+0.0, whatever PROCESS commands came between them" (R96): from any two states of one build, so whatever came before each. -/
def Obligations.PrepareForgetsTheOldSession : Prop :=
  ∀ (s u : State) (sr : F64) (mbl n : Int), requestedCapacity s.cfg.maxDelaySeconds sr = some (.int n) →
    1 ≤ n → n ≤ s.cfg.capMax.toNat → u.cfg = s.cfg →
    ∃ t v, exec (.prepare sr mbl) s = .next t ∧ exec (.prepare sr mbl) u = .next v ∧
      v.capacity = t.capacity ∧ v.writeCursor = 0 ∧ t.writeCursor = 0 ∧ v.store = t.store ∧
      (∀ c p, t.storeRead c p = 0 ∧ v.storeRead c p = 0) ∧
      v.sampleRate = t.sampleRate ∧ v.maxBlock = t.maxBlock ∧ v.status = t.status

/-- RELEASE (R97): no cells, CAPACITY and WRITE_CURSOR 0, STATUS OK, and nothing else changes: what R115 says survives
does. -/
def Obligations.ReleaseEndsTheSession : Prop :=
  ∀ s : State, exec .release s = .next { s with store := [], capacity := 0, writeCursor := 0, status := .ok }

/-! ### The Parameter Surface -/

/-- SETGAIN (R98) and SETDELAY (R99): the register holds the pattern unchanged, whatever it is (R100), PSTATUS is OK, and
nothing else changes. -/
def Obligations.ParameterWritesStoreThePattern : Prop :=
  ∀ (s : State) (v : F32),
    exec (.setgain v) s = .next { s with paramGain := v, pstatus := .ok } ∧
    exec (.setdelay v) s = .next { s with paramDelayMs := v, pstatus := .ok }

/-- The parameter port never waits (R102): a descriptor on it completes in one step, a PROCESS in progress or not, and
changes nothing but the parameter registers, PSTATUS, its own port and the schedule. -/
def Obligations.ParameterPortNeverWaits : Prop :=
  ∀ (s : State) (d : Descriptor) (rest : List Descriptor), s.nextTurn = .parameter → s.paramPort = d :: rest →
    ∃ t, step s = .next t ∧ t.paramPort = rest ∧
      { t with
        paramGain := s.paramGain, paramDelayMs := s.paramDelayMs, pstatus := s.pstatus, paramPort := s.paramPort,
        schedule := s.schedule } = s

/-- Only the parameter port changes PARAM_GAIN, PARAM_DELAY_MS (R101) and PSTATUS (R106): a step that changes one is a step
of that port with a descriptor on it. Turns and queues are the model's: log entries 6 and 19. -/
def Obligations.OnlyTheParameterPortChangesParameters : Prop :=
  ∀ s t : State, step s = .next t →
    t.paramGain ≠ s.paramGain ∨ t.paramDelayMs ≠ s.paramDelayMs ∨ t.pstatus ≠ s.pstatus ∨ t.paramPort ≠ s.paramPort →
    s.nextTurn = .parameter ∧ s.paramPort ≠ []

/-- Who writes which register (10_state.md, register table): CAPACITY and STORE's shape only PREPARE, RELEASE and SRESIZE;
WRITE_CURSOR those and PROCESS; SAMPLE_RATE and MAX_BLOCK only PREPARE; STATUS only the command port's three; PARAM_GAIN only
SETGAIN; PARAM_DELAY_MS only SETDELAY; PSTATUS only those two. -/
def Obligations.RegisterWritersAsStated : Prop :=
  ∀ (i : Instr) (s t : State), exec i s = .next t →
    (t.capacity ≠ s.capacity → (∃ sr m, i = .prepare sr m) ∨ i = .release ∨ ∃ n c, i = .sresize n c) ∧
    (t.writeCursor ≠ s.writeCursor →
      (∃ sr m, i = .prepare sr m) ∨ i = .release ∨ (∃ n c, i = .sresize n c) ∨ ∃ nc ns, i = .process nc ns) ∧
    (t.sampleRate ≠ s.sampleRate ∨ t.maxBlock ≠ s.maxBlock → ∃ sr m, i = .prepare sr m) ∧
    (t.status ≠ s.status → i.port = .command) ∧
    (t.paramGain ≠ s.paramGain → ∃ v, i = .setgain v) ∧
    (t.paramDelayMs ≠ s.paramDelayMs → ∃ v, i = .setdelay v) ∧
    (t.pstatus ≠ s.pstatus → i.port = .parameter) ∧
    (t.block ≠ s.block → ∃ nc ns, i = .process nc ns)

/-! ### PROCESS -/

/-- PROCESS while unprepared (R75), or of an empty or negative block (R76), does nothing but set STATUS to OK. -/
def Obligations.ProcessOfNothingIsANoOp : Prop :=
  ∀ (s : State) (nc ns : Int), s.inProgress = none → s.capacity = 0 ∨ ns ≤ 0 →
    exec (.process nc ns) s = .next { s with status := .ok }

/-- PROCESS is stuck when block memory lacks a sample it needs (R45), at whatever turn. Stuck is a named fault, and the
check stands at every turn: log entry 14. -/
def Obligations.ProcessIsStuckWithoutItsSamples : Prop :=
  ∀ (s : State) (nc ns : Int), s.capacity ≠ 0 → 0 < ns → ¬ s.Supplied nc ns →
    exec (.process nc ns) s = .fault .blockSampleMissing

/-- The steps of PROCESS before its body (R77): it can stop once in progress, after its gain read step or after its delay
read step, in either order. Each read step takes the register as it then is, a parameter already sampled stays, and
nothing else changes. Which turns stop where is log entry 9's. -/
def Obligations.ProcessReadStepsAsStated : Prop :=
  ∀ (s : State) (nc ns : Int) (p : Sampling), s.capacity ≠ 0 → 0 < ns → s.Supplied nc ns →
    (s.inProgress = some p ∨ (s.inProgress = none ∧ p = ⟨none, none⟩)) →
    (s.nextTurn = .commandStart → exec (.process nc ns) s = .next { s with inProgress := some p }) ∧
    (s.nextTurn = .commandReadGain → p.gain = none →
      exec (.process nc ns) s = .next { s with inProgress := some ⟨some s.paramGain, p.delay⟩ }) ∧
    (s.nextTurn = .commandReadDelay → p.delay = none →
      exec (.process nc ns) s = .next { s with inProgress := some ⟨p.gain, some s.paramDelayMs⟩ }) ∧
    (s.nextTurn = .commandReadGain → p.gain ≠ none → exec (.process nc ns) s = .next { s with inProgress := some p }) ∧
    (s.nextTurn = .commandReadDelay → p.delay ≠ none → exec (.process nc ns) s = .next { s with inProgress := some p })

/-- PROCESS does the block (R74, R79 to R85): from every state in which RBDL is prepared, the block is not empty and the
host has supplied its samples, with the gain and the delay time it has sampled (or samples now), it completes, and its
outputs, STORE, the cursor, STATUS and the frame are as `BlockDone` says. The processed channels are those below both
numChannels and NUM_CH. The numbers of the free NaN patterns are log entries 5 and 16's. -/
def Obligations.ProcessDoesTheBlock : Prop :=
  ∀ (s : State) (nc ns : Int), s.capacity ≠ 0 → 0 < ns → s.Supplied nc ns → s.nextTurn.completes = true →
    (∀ c : Nat, c < processedChannels nc s.cfg.numCh.toNat ↔ (c : Int) < nc ∧ c < s.cfg.numCh.toNat) ∧
    ∃ t, exec (.process nc ns) s = .next t ∧
      BlockDone (processedChannels nc s.cfg.numCh.toNat) ns.toNat s.sampledGain s.sampledDelay s t

/-- With no other agent stepping in between, every order and grouping of the steps of PROCESS ends in the state that one
uninterrupted step gives (R77). The schedules are those of log entries 6 and 9. -/
def Obligations.ReadOrderIsUnobservableAlone : Prop :=
  ∀ (s : State) (d : Descriptor) (rest : List Descriptor) (nc ns : Int), s.schedule = [] → s.inProgress = none →
    s.commandPort = d :: rest → decode .command d = .ok (.process nc ns) → s.capacity ≠ 0 → 0 < ns → s.Supplied nc ns →
    stepTimes 3 { s with schedule := [.commandReadGain, .commandReadDelay, .command] } = step s ∧
    stepTimes 3 { s with schedule := [.commandReadDelay, .commandReadGain, .command] } = step s ∧
    stepTimes 2 { s with schedule := [.commandStart, .command] } = step s

/-- A parameter write after a register's read step is not seen by the block, and one before it is (R77, R119). The
schedules are those of log entries 6 and 9. -/
def Obligations.ParameterWritesAreSeenFromTheReadStepOn : Prop :=
  ∀ (s : State) (d e : Descriptor) (rest prest : List Descriptor) (nc ns : Int) (v : F32), s.schedule = [] →
    s.inProgress = none → s.commandPort = d :: rest → decode .command d = .ok (.process nc ns) → s.capacity ≠ 0 →
    0 < ns → s.Supplied nc ns → s.paramPort = e :: prest →
    (decode .parameter e = .ok (.setgain v) →
      stepTimes 3 { s with schedule := [.commandReadGain, .parameter, .command] } =
        mapNext (fun t => { t with paramGain := v, pstatus := .ok, paramPort := prest }) (step s) ∧
      stepTimes 3 { s with schedule := [.commandReadDelay, .parameter, .command] } =
        mapNext (fun t => { t with pstatus := .ok, paramPort := prest }) (step { s with paramGain := v })) ∧
    (decode .parameter e = .ok (.setdelay v) →
      stepTimes 3 { s with schedule := [.commandReadDelay, .parameter, .command] } =
        mapNext (fun t => { t with paramDelayMs := v, pstatus := .ok, paramPort := prest }) (step s) ∧
      stepTimes 3 { s with schedule := [.commandReadGain, .parameter, .command] } =
        mapNext (fun t => { t with pstatus := .ok, paramPort := prest }) (step { s with paramDelayMs := v }))

/-- One block may see an old gain with a new delay time, although the control agent wrote the gain first (R49, R120). The
schedule is that of log entries 6 and 9. -/
def Obligations.OneBlockMayMixOldGainAndNewDelay : Prop :=
  ∀ (s : State) (d e f : Descriptor) (rest prest : List Descriptor) (nc ns : Int) (v w : F32), s.schedule = [] →
    s.inProgress = none → s.commandPort = d :: rest → decode .command d = .ok (.process nc ns) → s.capacity ≠ 0 →
    0 < ns → s.Supplied nc ns → s.paramPort = e :: f :: prest → decode .parameter e = .ok (.setgain v) →
    decode .parameter f = .ok (.setdelay w) →
    stepTimes 4 { s with schedule := [.commandReadGain, .parameter, .parameter, .command] } =
      mapNext (fun t => { t with paramGain := v, pstatus := .ok, paramPort := prest }) (step { s with paramDelayMs := w })

/-- STORE holds dry history only (R83): after a PROCESS every cell of STORE holds what it held, or a dry input sample of the
block for its own channel. -/
def Obligations.StoreHoldsDryHistoryOnly : Prop :=
  ∀ (s t : State) (nc ns : Int), exec (.process nc ns) s = .next t →
    ∀ (c : Nat) (p : Int), t.storeRead c p = s.storeRead c p ∨ ∃ i < ns.toNat, t.storeRead c p = s.ioRead c i

/-- "Each channel touches only its own STORE row and its own block-memory channel" (R79): what a PROCESS leaves in a channel
does not depend on any other channel's row or samples. -/
def Obligations.ChannelsAreIndependent : Prop :=
  ∀ (s u : State) (nc ns : Int) (c : Nat), s.capacity ≠ 0 → 0 < ns → s.Supplied nc ns → u.Supplied nc ns →
    s.nextTurn.completes = true → u = { s with store := u.store, block := u.block } →
    (∀ i, u.ioRead c i = s.ioRead c i) → (∀ p, u.storeRead c p = s.storeRead c p) →
    ∃ t v, exec (.process nc ns) s = .next t ∧ exec (.process nc ns) u = .next v ∧
      (∀ i, v.ioRead c i = t.ioRead c i) ∧ ∀ p, v.storeRead c p = t.storeRead c p

/-- The closed form of a session (R87), one block at a time: if STORE holds the history `x` of a channel up to `b`, a
block of `len` samples of that history leaves it holding the history up to `b + len`, and output sample `n = b + i` is the
dry sample mixed with `x[m*]`, `m* = m + C * floor((b + L - 1 - m) / C)`, `m = n - D`, which is +0.0 before the session
began. The numbers of the free NaN patterns are log entries 5 and 16's. -/
def Obligations.BlockFollowsTheClosedForm : Prop :=
  ∀ (s : State) (nc ns : Int) (c b : Nat) (x : Nat → F32), s.capacity ≠ 0 → 0 < ns → s.Supplied nc ns →
    s.nextTurn.completes = true → c < processedChannels nc s.cfg.numCh.toNat → HistoryHolds s c x b →
    (∀ i < ns.toNat, s.ioRead c i = x (b + i)) →
    ∃ t, exec (.process nc ns) s = .next t ∧ HistoryHolds t c x (b + ns.toNat) ∧
      ∀ i < ns.toNat,
        let m' := lastAlias s.capacity.toNat b ns.toNat ((b : Int) + i - s.delayOf s.sampledDelay)
        t.ioRead c i = mix (s.draws + c * ns.toNat + i) (x (b + i)) s.sampledGain (if m' < 0 then 0 else x m'.toNat)

/-- A session begins with an empty history (R87: +0.0 before the first sample; R123): a successful PREPARE leaves STORE
holding nothing of any channel. -/
def Obligations.PrepareStartsAnEmptyHistory : Prop :=
  ∀ (s : State) (sr : F64) (mbl n : Int), requestedCapacity s.cfg.maxDelaySeconds sr = some (.int n) →
    1 ≤ n → n ≤ s.cfg.capMax.toNat →
    ∃ t, exec (.prepare sr mbl) s = .next t ∧ ∀ (c : Nat) (x : Nat → F32), HistoryHolds t c x 0

/-- A single echo (R87, R86): when numSamples + D <= CAPACITY, output sample i mixes the dry sample D before it, taken
from this block when i >= D and from STORE otherwise. No recursion. The numbers of the free NaN patterns are log entries 5
and 16's. -/
def Obligations.ShortBlocksGiveASingleEcho : Prop :=
  ∀ (s : State) (nc ns : Int) (c i : Nat), s.capacity ≠ 0 → 0 < ns → s.Supplied nc ns → s.nextTurn.completes = true →
    c < processedChannels nc s.cfg.numCh.toNat → i < ns.toNat → ns + s.delayOf s.sampledDelay ≤ s.capacity.toNat →
    ∃ t, exec (.process nc ns) s = .next t ∧
      (s.delayOf s.sampledDelay ≤ i → t.ioRead c i = mix (s.draws + c * ns.toNat + i) (s.ioRead c i) s.sampledGain
        (s.ioRead c (i - (s.delayOf s.sampledDelay).toNat))) ∧
      (i < s.delayOf s.sampledDelay → t.ioRead c i = mix (s.draws + c * ns.toNat + i) (s.ioRead c i) s.sampledGain
        (s.storeRead c (s.writeCursor.toNat + i - s.delayOf s.sampledDelay)))

/-- With D = 0 and numSamples <= CAPACITY every output sample is f32_add(x, f32_mul(G, x)) of its own dry input (R89): that
pattern, or a NaN where the arithmetic gives one. -/
def Obligations.ZeroDelayMixesTheDryInput : Prop :=
  ∀ (s : State) (nc ns : Int) (c i : Nat), s.capacity ≠ 0 → 0 < ns → s.Supplied nc ns → s.nextTurn.completes = true →
    c < processedChannels nc s.cfg.numCh.toNat → i < ns.toNat → s.delayOf s.sampledDelay = 0 → ns ≤ s.capacity.toNat →
    ∃ t, exec (.process nc ns) s = .next t ∧
      match (f32Mul s.sampledGain (s.ioRead c i)).bind (f32Add (s.ioRead c i)) with
      | some v => t.ioRead c i = v
      | none => f32IsNaN (t.ioRead c i) = true

/-- After N blocks of L samples each, from a cursor of 0, WRITE_CURSOR = emod(N * L, CAPACITY) (R88). -/
def Obligations.CursorCountsBlocks : Prop :=
  ∀ (s : State) (nc L : Int) (n : Nat), s.capacity ≠ 0 → 0 < L → s.Supplied nc L → s.nextTurn.completes = true →
    s.writeCursor = 0 →
    ∃ t, execTimes (.process nc L) n s = .next t ∧ (t.writeCursor.toNat : Int) = (n * L) % s.capacity.toNat

/-! ### Values -/

/-- The delay offset (R78, R90): 0 for a NaN, otherwise the rounded sample count clamped to [0, CAPACITY - 1]. -/
def Obligations.DelayOffsetIsClamped : Prop :=
  ∀ (t : F32) (sr : F64) (cap : Nat), 0 < cap →
    (0 ≤ delaySamples t sr cap ∧ delaySamples t sr cap ≤ cap - 1) ∧
    (delayExact t sr = none → delaySamples t sr cap = 0) ∧
    (∀ x, delayExact t sr = some x →
      (roundHalfAway (decodeFloat binary64 x.toNat) = some .negInf → delaySamples t sr cap = 0) ∧
      (roundHalfAway (decodeFloat binary64 x.toNat) = some .posInf → delaySamples t sr cap = cap - 1) ∧
      ∀ n : Int, roundHalfAway (decodeFloat binary64 x.toNat) = some (.int n) →
        (n ≤ 0 → delaySamples t sr cap = 0) ∧ (0 ≤ n → n ≤ cap - 1 → delaySamples t sr cap = n) ∧
        ((cap : Int) - 1 ≤ n → delaySamples t sr cap = cap - 1))

/-- `roundHalfAway` is sign(x) * floor(|x| + 1/2) on the exact value, and `ceil` is ceil on it (R17, R91); infinities are
kept. -/
def Obligations.RoundHalfAwayAndCeilAreExact : Prop :=
  ∀ (neg : Bool) (m : Nat) (e : Int),
    roundHalfAway (.finite neg m e) = some (.int ((if neg then -1 else 1) * ⌊|exactValue neg m e| + 1 / 2⌋)) ∧
    ceilFloat (.finite neg m e) = some (.int ⌈exactValue neg m e⌉) ∧
    roundHalfAway (.inf neg) = some (if neg then .negInf else .posInf) ∧
    ceilFloat (.inf neg) = some (if neg then .negInf else .posInf)

/-- Rounding is to nearest, ties to even (R16), in both formats. Overflow at half a unit past the largest finite value is
IEEE 754's: log entry 17. -/
def Obligations.RoundingIsToNearestEven : Prop :=
  ∀ (f : FloatFormat) (n d : Nat) (e : Int), f = binary32 ∨ f = binary64 → 0 < d →
    NearestEven f ((n : Rat) / d * (2 : Rat) ^ e) (roundMagnitude f n d e)

/-- The operations of R16 on finite values: the exact result, "rounded to nearest, ties to even", once. The sign is that
of the exact result; of a zero product or quotient it is the product of the signs, and an exact zero sum is -0 only for
two -0. The signs are IEEE 754's: log entry 17. Infinite operands are in `InfiniteOperandsAsStated`, NaN results in
`NanCasesOfTheArithmetic`. -/
def Obligations.ArithmeticIsCorrectlyRounded : Prop :=
  (∀ (a b : F32) (s t : Bool) (m n : Nat) (x y : Int),
    decodeFloat binary32 a.toNat = .finite s m x → decodeFloat binary32 b.toNat = .finite t n y →
    (∃ q, f32Mul a b = some (BitVec.ofNat 32 (signed binary32 (s ^^ t) q)) ∧
      NearestEven binary32 |exactValue s m x * exactValue t n y| q) ∧
    ∃ neg q, f32Add a b = some (BitVec.ofNat 32 (signed binary32 neg q)) ∧
      NearestEven binary32 |exactValue s m x + exactValue t n y| q ∧
      (neg = true ↔ exactValue s m x + exactValue t n y < 0 ∨
        (exactValue s m x + exactValue t n y = 0 ∧ s = true ∧ t = true))) ∧
  ∀ (a b : F64) (s t : Bool) (m n : Nat) (x y : Int),
    decodeFloat binary64 a.toNat = .finite s m x → decodeFloat binary64 b.toNat = .finite t n y →
    (∃ q, f64Mul a b = some (BitVec.ofNat 64 (signed binary64 (s ^^ t) q)) ∧
      NearestEven binary64 |exactValue s m x * exactValue t n y| q) ∧
    (n ≠ 0 → ∃ q, f64Div a b = some (BitVec.ofNat 64 (signed binary64 (s ^^ t) q)) ∧
      NearestEven binary64 |exactValue s m x / exactValue t n y| q)

/-- A value that a format has is not changed by rounding to it, subnormals included (R16: "never flushed to zero"). -/
def Obligations.RoundingKeepsRepresentableValues : Prop :=
  ∀ (f : FloatFormat) (bits m : Nat) (neg : Bool) (e : Int), f = binary32 ∨ f = binary64 →
    bits < 2 ^ (f.fracBits + f.expBits + 1) → decodeFloat f bits = .finite neg m e →
    signed f neg (roundMagnitude f m 1 e) = bits

/-- The widening of a binary32 is exact (R16): it is worth what the pattern is worth, and a NaN stays a NaN. The layouts
are IEEE 754's: log entry 17. -/
def Obligations.WideningIsExact : Prop :=
  ∀ a : F32,
    (f32IsNaN a = true ↔ f32ToF64 a = none) ∧
    (∀ neg, decodeFloat binary32 a.toNat = .inf neg →
      ∃ w, f32ToF64 a = some w ∧ decodeFloat binary64 w.toNat = .inf neg) ∧
    ∀ neg m e, decodeFloat binary32 a.toNat = .finite neg m e →
      ∃ w m' e', f32ToF64 a = some w ∧ decodeFloat binary64 w.toNat = .finite neg m' e' ∧
        exactValue neg m' e' = exactValue neg m e

/-- What each operation of R16 gives when an operand is infinite and the result is not a NaN: infinity with the sign of the
exact result, a signed zero for a finite value divided by infinity, and infinity for a nonzero value divided by zero. The
cases and the patterns are IEEE 754's: log entry 17. -/
def Obligations.InfiniteOperandsAsStated : Prop :=
  (∀ (s : Bool) (a : F32) (b : F64),
    (decodeFloat binary32 a.toNat = .inf s ↔ a = f32Infinity s) ∧
    (decodeFloat binary64 b.toNat = .inf s ↔ b = f64Infinity s)) ∧
  (∀ s t : Bool,
    f32Mul (f32Infinity s) (f32Infinity t) = some (f32Infinity (s ^^ t)) ∧
    f32Add (f32Infinity s) (f32Infinity s) = some (f32Infinity s) ∧
    f64Mul (f64Infinity s) (f64Infinity t) = some (f64Infinity (s ^^ t))) ∧
  (∀ (s t : Bool) (a : F32) (m : Nat) (e : Int), decodeFloat binary32 a.toNat = .finite t m e →
    f32Add (f32Infinity s) a = some (f32Infinity s) ∧ f32Add a (f32Infinity s) = some (f32Infinity s) ∧
    (m ≠ 0 → f32Mul (f32Infinity s) a = some (f32Infinity (s ^^ t)) ∧
      f32Mul a (f32Infinity s) = some (f32Infinity (s ^^ t)))) ∧
  ∀ (s t : Bool) (a : F64) (m : Nat) (e : Int), decodeFloat binary64 a.toNat = .finite t m e →
    f64Div (f64Infinity s) a = some (f64Infinity (s ^^ t)) ∧ f64Div a (f64Infinity s) = some (f64Zero (s ^^ t)) ∧
    (m ≠ 0 → f64Mul (f64Infinity s) a = some (f64Infinity (s ^^ t)) ∧
      f64Mul a (f64Infinity s) = some (f64Infinity (s ^^ t)) ∧ f64Div a (f64Zero s) = some (f64Infinity (s ^^ t)))

/-- Exactly when the arithmetic gives a NaN (R82, 93_implementation_defined.md G5): for a NaN operand, zero times infinity, the
sum of opposite infinities, zero by zero and infinity by infinity; and from these the `isNaN` cases of R78 and R92. The
cases are IEEE 754's: log entry 17. -/
def Obligations.NanCasesOfTheArithmetic : Prop :=
  (∀ a b : F32,
    (f32Mul a b = none ↔ f32IsNaN a = true ∨ f32IsNaN b = true ∨
      (∃ s t e, decodeFloat binary32 a.toNat = .inf s ∧ decodeFloat binary32 b.toNat = .finite t 0 e) ∨
      (∃ s t e, decodeFloat binary32 a.toNat = .finite t 0 e ∧ decodeFloat binary32 b.toNat = .inf s)) ∧
    (f32Add a b = none ↔ f32IsNaN a = true ∨ f32IsNaN b = true ∨
      ∃ s, decodeFloat binary32 a.toNat = .inf s ∧ decodeFloat binary32 b.toNat = .inf (!s))) ∧
  (∀ a b : F64,
    (f64Mul a b = none ↔ decodeFloat binary64 a.toNat = .nan ∨ decodeFloat binary64 b.toNat = .nan ∨
      (∃ s t e, decodeFloat binary64 a.toNat = .inf s ∧ decodeFloat binary64 b.toNat = .finite t 0 e) ∨
      (∃ s t e, decodeFloat binary64 a.toNat = .finite t 0 e ∧ decodeFloat binary64 b.toNat = .inf s)) ∧
    (f64Div a b = none ↔ decodeFloat binary64 a.toNat = .nan ∨ decodeFloat binary64 b.toNat = .nan ∨
      (∃ s t, decodeFloat binary64 a.toNat = .inf s ∧ decodeFloat binary64 b.toNat = .inf t) ∨
      ∃ s t e e', decodeFloat binary64 a.toNat = .finite s 0 e ∧ decodeFloat binary64 b.toNat = .finite t 0 e')) ∧
  ∀ (t : F32) (sr mds : F64),
    (delayExact t sr = none ↔ f32IsNaN t = true ∨ ∃ w, f32ToF64 t = some w ∧ f64Mul w sr = none) ∧
    (requestedCapacity mds sr = none ↔ f64Mul sr mds = none)

/-- The pattern of a NaN that the mix produces is a NaN pattern, whichever it is (93_implementation_defined.md I6): a
mixed sample is a NaN exactly when the arithmetic says so. Holds for every value of the free draws. (Log entry 5.) -/
def Obligations.MixedNanIsSomeNan : Prop :=
  ∀ (k : Nat) (dry g wet : F32), f32IsNaN (mix k dry g wet) = true ↔ mixExact dry g wet = none

/-- Values of 95_test_vectors.md, computed outside this model: requested capacities (L2.4: ceil, not round), delay offsets
(L2.3: ties and clamps among them) and mixes (L2.5; `none` stands for any NaN). A sanity statement. -/
def Obligations.ArithmeticExamples : Prop :=
  (requestedCapacity 0x4000000000000000 0x40E7700000000000 = some (.int 96000) ∧
   requestedCapacity 0x4000000000000000 0x40E5888666666666 = some (.int 88201) ∧
   requestedCapacity 0x4000000000000000 0x3FC999999999999A = some (.int 1) ∧
   requestedCapacity 0x4000000000000000 0x8000000000000000 = some (.int 0) ∧
   requestedCapacity 0x4000000000000000 0xBFF0000000000000 = some (.int (-2)) ∧
   requestedCapacity 0x4000000000000000 0x7FF8000000000000 = none ∧
   requestedCapacity 0x4000000000000000 0xFFF0000000000000 = some .negInf ∧
   requestedCapacity 0x4000000000000000 0x7FF0000000000000 = some .posInf) ∧
  (delaySamples 0x43FA0000 0x40E7700000000000 96000 = 24000 ∧ delaySamples 0x44FA0000 0x40E7700000000000 96000 = 95999 ∧
   delaySamples 0xC0A00000 0x40E7700000000000 96000 = 0 ∧ delaySamples 0x3D000000 0x40CF400000000000 32000 = 1 ∧
   delaySamples 0x3C2AAA63 0x40E7700000000000 96000 = 0 ∧ delaySamples 0x42FA0000 0x4010000000000000 8 = 1 ∧
   delaySamples 0x441C4000 0x4010000000000000 8 = 3 ∧ delaySamples 0x7F800000 0x40E7700000000000 96000 = 95999 ∧
   delaySamples 0x7FC00000 0x40E7700000000000 96000 = 0) ∧
  (mixExact 0x80000000 0x3F000000 0x00000000 = some 0x00000000 ∧
   mixExact 0x80000000 0xBF000000 0x00000000 = some 0x80000000 ∧
   mixExact 0x3F800000 0x00000000 0x7F800000 = none ∧ mixExact 0x3F800000 0x3F7D70A4 0x3F800000 = some 0x3FFEB852 ∧
   mixExact 0x7F7FFFFF 0x3F800000 0x7F7FFFFF = some 0x7F800000 ∧ mixExact 0x00000001 0x3F000000 0x00000001 = some 0x00000001 ∧
   mixExact 0x00000001 0x3F800000 0x00000001 = some 0x00000002 ∧ mixExact 0x40400000 0xBF800000 0x40400000 = some 0x00000000 ∧
   mixExact 0x3F800000 0x3DCCCCCD 0x40400000 = some 0x3FA66666 ∧
   mixExact 0x3F800000 0x3F000000 0xFF800000 = some 0xFF800000 ∧ mixExact 0x4B800000 0x3F000000 0x3F800000 = some 0x4B800000)

/-! ### Block memory and the outside agents -/

/-- A host access to block memory while a PROCESS is in progress has no step (R46). No step is a named fault (log entry 14),
and the queue of accesses is log entry 13's. -/
def Obligations.BlockAccessDuringProcessIsStuck : Prop :=
  ∀ (s : State) (a : BlockAccess) (rest : List BlockAccess), s.nextTurn = .blockAccess → s.blockAccesses = a :: rest →
    s.inProgress ≠ none → step s = .fault .blockAccessDuringProcess

/-- A host access to block memory between commands (R44, R50): a read returns the sample as it is, a write replaces that
sample and no other, and RBDL's own state does not change. The queue of accesses is log entry 13's. -/
def Obligations.BlockAccessBetweenCommands : Prop :=
  ∀ (s : State) (a : CellAddr) (v : F32) (rest : List BlockAccess), s.nextTurn = .blockAccess → s.inProgress = none →
    (s.blockAccesses = .read a :: rest → step s = .next { s with
      blockReply := s.block.read unlistedBlock a, blockAccesses := rest, schedule := s.schedule.tail }) ∧
    (s.blockAccesses = .write a v :: rest → ∃ t, step s = .next t ∧ t.block.read unlistedBlock a = some v ∧
      (∀ b ≠ a, t.block.read unlistedBlock b = s.block.read unlistedBlock b) ∧ t.blockAccesses = rest ∧
      { t with block := s.block, blockAccesses := s.blockAccesses, schedule := s.schedule } = s) ∧
    (s.blockAccesses = .withdraw a :: rest → ∃ t, step s = .next t ∧ t.block.read unlistedBlock a = none ∧
      (∀ b ≠ a, t.block.read unlistedBlock b = s.block.read unlistedBlock b) ∧ t.blockAccesses = rest ∧
      { t with block := s.block, blockAccesses := s.blockAccesses, schedule := s.schedule } = s)

/-- With nothing waiting at any interface a step only passes the turn: RBDL does nothing of its own (R20, R23; the idle step
is the model's own, log entry 6). -/
def Obligations.NothingHappensUnasked : Prop :=
  ∀ s : State, s.commandPort = [] → s.paramPort = [] → s.blockAccesses = [] → s.microPort = [] →
    step s = .next { s with schedule := s.schedule.tail }
end

