-- ==== Sys2Proof/Laws/Encoding.lean ====
section
/-! SUPPORT. The fields of a descriptor built from words or from micro-operation fields, and back; sign extension of the
integer operands; a descriptor and its bytes. -/

namespace Sys2Proof

/-! ### Fields of four words (R55) -/

section words
variable (w3 w2 w1 w0 : Word)

@[simp] theorem fieldOpc_words : fieldOpc (wordsToDescriptor w3 w2 w1 w0) = w0.extractLsb' 0 8 := by
  ext i hi
  simp only [fieldOpc, wordsToDescriptor, BitVec.getElem_extractLsb', BitVec.getLsbD_append]
  simp [show i < 32 by omega]

@[simp] theorem fieldReserved_words : fieldReserved (wordsToDescriptor w3 w2 w1 w0) = w0.extractLsb' 8 24 := by
  ext i hi
  simp only [fieldReserved, wordsToDescriptor, BitVec.getElem_extractLsb', BitVec.getLsbD_append]
  simp [show 8 + i < 32 by omega]

@[simp] theorem fieldW1_words : fieldW1 (wordsToDescriptor w3 w2 w1 w0) = w1 := by
  ext i hi
  simp only [fieldW1, wordsToDescriptor, BitVec.getElem_extractLsb', BitVec.getLsbD_append]
  simp [show ¬ 32 + i < 32 by omega, show 32 + i - 32 = i by omega, hi, BitVec.getLsbD_eq_getElem]

@[simp] theorem fieldW2_words : fieldW2 (wordsToDescriptor w3 w2 w1 w0) = w2 := by
  ext i hi
  simp only [fieldW2, wordsToDescriptor, BitVec.getElem_extractLsb', BitVec.getLsbD_append]
  simp [show ¬ 64 + i < 32 by omega, show ¬ 64 + i - 32 < 32 by omega, show 64 + i - 32 - 32 = i by omega, hi,
    BitVec.getLsbD_eq_getElem]

@[simp] theorem fieldW3_words : fieldW3 (wordsToDescriptor w3 w2 w1 w0) = w3 := by
  ext i hi
  simp only [fieldW3, wordsToDescriptor, BitVec.getElem_extractLsb', BitVec.getLsbD_append]
  simp [show ¬ 96 + i < 32 by omega, show ¬ 96 + i - 32 < 32 by omega, show ¬ 96 + i - 32 - 32 < 32 by omega,
    show 96 + i - 32 - 32 - 32 = i by omega, hi, BitVec.getLsbD_eq_getElem]

end words

/-- A descriptor is its words. -/
theorem words_of_fields (d : Descriptor) :
    wordsToDescriptor (fieldW3 d) (fieldW2 d) (fieldW1 d) (fieldReserved d ++ fieldOpc d) = d := by
  apply BitVec.eq_of_getLsbD_eq
  intro i hi
  rw [wordsToDescriptor, BitVec.getLsbD_append (n := 32 + 32 + 32), BitVec.getLsbD_append (n := 32 + 32),
    BitVec.getLsbD_append (n := 32)]
  change (if i < 32 then (fieldReserved d ++ fieldOpc d : BitVec (24 + 8)).getLsbD i else _) = _
  rw [BitVec.getLsbD_append]
  simp only [fieldW1, fieldW2, fieldW3, fieldReserved, fieldOpc, BitVec.getLsbD_extractLsb']
  split
  · split
    · simp [*]
    · simp [show 8 + (i - 8) = i by omega, show i - 8 < 24 by omega]
  · split
    · simp [show 32 + (i - 32) = i by omega, *]
    · split
      · simp [show 64 + (i - 32 - 32) = i by omega, *]
      · simp [show 96 + (i - 32 - 32 - 32) = i by omega, show i - 32 - 32 - 32 < 32 by omega]

/-- Two halves of a 64-bit value put together again (R59). -/
theorem halves_append (x : F64) : x.extractLsb' 32 32 ++ x.extractLsb' 0 32 = x := by
  apply BitVec.eq_of_getLsbD_eq
  intro i hi
  rw [BitVec.getLsbD_append (n := 32)]
  simp only [BitVec.getLsbD_extractLsb']
  split
  · simp [*]
  · simp [show 32 + (i - 32) = i by omega, show i - 32 < 32 by omega]

@[simp] theorem high_of_append (a b : Word) : (a ++ b : BitVec (32 + 32)).extractLsb' 32 32 = a := by
  apply BitVec.eq_of_getLsbD_eq
  intro i hi
  rw [BitVec.getLsbD_extractLsb', BitVec.getLsbD_append]
  simp [show ¬ 32 + i < 32 by omega, show 32 + i - 32 = i by omega, hi]

@[simp] theorem low_of_append (a b : Word) : (a ++ b : BitVec (32 + 32)).extractLsb' 0 32 = b := by
  apply BitVec.eq_of_getLsbD_eq
  intro i hi
  rw [BitVec.getLsbD_extractLsb', BitVec.getLsbD_append]
  simp [hi]

/-! ### Fields of a micro-operation (R58) -/

section micro
variable (data : Word) (pos : BitVec 40) (ch : BitVec 16) (uop : BitVec 2)

@[simp] theorem fieldUop_micro : fieldUop (microToDescriptor data pos ch uop) = uop := by
  ext i hi
  simp only [fieldUop, microToDescriptor, BitVec.getElem_extractLsb', BitVec.getLsbD_append]
  simp [hi, BitVec.getLsbD_eq_getElem]

@[simp] theorem fieldUReserved_micro : fieldUReserved (microToDescriptor data pos ch uop) = 0 := by
  ext i hi
  simp only [fieldUReserved, microToDescriptor, BitVec.getElem_extractLsb', BitVec.getLsbD_append]
  simp only [show ¬ 2 + i < 2 by omega, show 2 + i - 2 = i by omega, hi, if_true, if_false]
  simp

@[simp] theorem fieldCh_micro : fieldCh (microToDescriptor data pos ch uop) = ch := by
  ext i hi
  simp only [fieldCh, microToDescriptor, BitVec.getElem_extractLsb', BitVec.getLsbD_append]
  simp [show ¬ 8 + i < 2 by omega, show ¬ 8 + i - 2 < 6 by omega, show 8 + i - 2 - 6 = i by omega, hi,
    BitVec.getLsbD_eq_getElem]

@[simp] theorem fieldPos_micro : fieldPos (microToDescriptor data pos ch uop) = pos := by
  ext i hi
  simp only [fieldPos, microToDescriptor, BitVec.getElem_extractLsb', BitVec.getLsbD_append]
  simp [show ¬ 24 + i < 2 by omega, show ¬ 24 + i - 2 < 6 by omega, show ¬ 24 + i - 2 - 6 < 16 by omega,
    show 24 + i - 2 - 6 - 16 = i by omega, hi, BitVec.getLsbD_eq_getElem]

@[simp] theorem fieldData_micro : fieldData (microToDescriptor data pos ch uop) = data := by
  ext i hi
  simp only [fieldData, microToDescriptor, BitVec.getElem_extractLsb', BitVec.getLsbD_append]
  simp [show ¬ 64 + i < 2 by omega, show ¬ 64 + i - 2 < 6 by omega, show ¬ 64 + i - 2 - 6 < 16 by omega,
    show ¬ 64 + i - 2 - 6 - 16 < 40 by omega, show 64 + i - 2 - 6 - 16 - 40 = i by omega, hi,
    BitVec.getLsbD_eq_getElem]

@[simp] theorem fieldUTop_micro : fieldUTop (microToDescriptor data pos ch uop) = 0 := by
  ext i hi
  simp only [fieldUTop, microToDescriptor, BitVec.getElem_extractLsb', BitVec.getLsbD_append]
  simp [show ¬ 96 + i < 2 by omega, show ¬ 96 + i - 2 < 6 by omega, show ¬ 96 + i - 2 - 6 < 16 by omega,
    show ¬ 96 + i - 2 - 6 - 16 < 40 by omega, show ¬ 96 + i - 2 - 6 - 16 - 40 < 32 by omega]

end micro

/-- A micro-operation with its reserved fields 0 is its other fields. -/
theorem micro_of_fields {u : Descriptor} (h : fieldUReserved u = 0) (k : fieldUTop u = 0) :
    microToDescriptor (fieldData u) (fieldPos u) (fieldCh u) (fieldUop u) = u := by
  have e : fieldUTop u ++ fieldData u ++ fieldPos u ++ fieldCh u ++ fieldUReserved u ++ fieldUop u = u := by
    apply BitVec.eq_of_getLsbD_eq
    intro i hi
    rw [BitVec.getLsbD_append (n := 32 + 32 + 40 + 16 + 6), BitVec.getLsbD_append (n := 32 + 32 + 40 + 16),
      BitVec.getLsbD_append (n := 32 + 32 + 40), BitVec.getLsbD_append (n := 32 + 32), BitVec.getLsbD_append (n := 32)]
    simp only [fieldUTop, fieldData, fieldPos, fieldCh, fieldUReserved, fieldUop, BitVec.getLsbD_extractLsb']
    split
    · simp [*]
    · split
      · simp [show 2 + (i - 2) = i by omega, *]
      · split
        · simp [show 8 + (i - 2 - 6) = i by omega, *]
        · split
          · simp [show 24 + (i - 2 - 6 - 16) = i by omega, *]
          · split
            · simp [show 64 + (i - 2 - 6 - 16 - 40) = i by omega, *]
            · simp [show 96 + (i - 2 - 6 - 16 - 40 - 32) = i by omega, show i - 2 - 6 - 16 - 40 - 32 < 32 by omega]
  rw [h, k] at e
  exact e

/-! ### Integer operands (R59) -/

theorem isInt32_iff (n : Int) : isInt32 n = true ↔ -2147483648 ≤ n ∧ n ≤ 2147483647 := by simp [isInt32]

theorem isInt40_iff (n : Int) : isInt40 n = true ↔ -549755813888 ≤ n ∧ n ≤ 549755813887 := by simp [isInt40]

theorem isUint16_iff (n : Nat) : isUint16 n = true ↔ n < 65536 := by simp [isUint16]

theorem toInt_ofInt32 {n : Int} (h : isInt32 n = true) : (BitVec.ofInt 32 n).toInt = n := by
  rw [isInt32_iff] at h
  exact BitVec.toInt_ofInt_eq_self (by decide) (by simpa using h.1) (by have := h.2; norm_num; omega)

theorem toInt_ofInt40 {n : Int} (h : isInt40 n = true) : (BitVec.ofInt 40 n).toInt = n := by
  rw [isInt40_iff] at h
  exact BitVec.toInt_ofInt_eq_self (by decide) (by simpa using h.1) (by have := h.2; norm_num; omega)

theorem toNat_ofNat16 {n : Nat} (h : isUint16 n = true) : (BitVec.ofNat 16 n).toNat = n := by
  rw [isUint16_iff] at h
  simpa using h

theorem isInt32_toInt (w : Word) : isInt32 w.toInt = true := by
  rw [isInt32_iff]
  have h1 := BitVec.le_toInt w
  have h2 := BitVec.toInt_lt (x := w)
  norm_num at h1 h2
  omega

theorem isInt40_toInt (w : BitVec 40) : isInt40 w.toInt = true := by
  rw [isInt40_iff]
  have h1 := BitVec.le_toInt w
  have h2 := BitVec.toInt_lt (x := w)
  norm_num at h1 h2
  omega

theorem isUint16_toNat (w : BitVec 16) : isUint16 w.toNat = true := by
  rw [isUint16_iff]; exact w.isLt

/-! ### Bytes (R37) -/

theorem length_bytesOfNat (n v : Nat) : (bytesOfNat n v).length = n := by
  induction n generalizing v with
  | zero => rfl
  | succ n ih => simp [bytesOfNat, ih]

theorem natOfBytes_bytesOfNat (n v : Nat) : natOfBytes (bytesOfNat n v) = v % 256 ^ n := by
  induction n generalizing v with
  | zero => simp [bytesOfNat, natOfBytes, Nat.mod_one]
  | succ n ih =>
    simp only [bytesOfNat, natOfBytes, ih, BitVec.toNat_ofNat]
    rw [show 256 ^ (n + 1) = 256 * 256 ^ n by ring, Nat.mod_mul]

/-- The number read back from a descriptor's bytes is the descriptor. -/
theorem ofNat_natOfBytes_descriptorBytes (d : Descriptor) : BitVec.ofNat 128 (natOfBytes (descriptorBytes d)) = d := by
  rw [descriptorBytes, natOfBytes_bytesOfNat]
  apply BitVec.eq_of_toNat_eq
  have := d.isLt
  rw [BitVec.toNat_ofNat, Nat.mod_eq_of_lt (by norm_num; omega), Nat.mod_eq_of_lt (by norm_num; omega)]

end Sys2Proof
end

