-- ==== Sys2Proof/Laws/Bits.lean ====
section
/-! SUPPORT. The fields of a descriptor as the numbers of R12, and two's complement as `sext`. -/

namespace Sys2Proof.Machine

theorem toNat_extractLsb'_eq (d : Descriptor) (lo n : Nat) : (d.extractLsb' lo n).toNat = d.toNat / 2 ^ lo % 2 ^ n := by
  rw [BitVec.extractLsb'_toNat, Nat.shiftRight_eq_div_pow]

theorem bitsOf_opc (d : Descriptor) : bitsOf d 7 0 = (fieldOpc d).toNat := by rw [fieldOpc, toNat_extractLsb'_eq]; rfl
theorem bitsOf_reserved (d : Descriptor) : bitsOf d 31 8 = (fieldReserved d).toNat := by
  rw [fieldReserved, toNat_extractLsb'_eq]; rfl
theorem bitsOf_w1 (d : Descriptor) : bitsOf d 63 32 = (fieldW1 d).toNat := by rw [fieldW1, toNat_extractLsb'_eq]; rfl
theorem bitsOf_w2 (d : Descriptor) : bitsOf d 95 64 = (fieldW2 d).toNat := by rw [fieldW2, toNat_extractLsb'_eq]; rfl
theorem bitsOf_w3 (d : Descriptor) : bitsOf d 127 96 = (fieldW3 d).toNat := by rw [fieldW3, toNat_extractLsb'_eq]; rfl
theorem bitsOf_uop (u : Descriptor) : bitsOf u 1 0 = (fieldUop u).toNat := by rw [fieldUop, toNat_extractLsb'_eq]; rfl
theorem bitsOf_ureserved (u : Descriptor) : bitsOf u 7 2 = (fieldUReserved u).toNat := by
  rw [fieldUReserved, toNat_extractLsb'_eq]; rfl
theorem bitsOf_ch (u : Descriptor) : bitsOf u 23 8 = (fieldCh u).toNat := by rw [fieldCh, toNat_extractLsb'_eq]; rfl
theorem bitsOf_pos (u : Descriptor) : bitsOf u 63 24 = (fieldPos u).toNat := by rw [fieldPos, toNat_extractLsb'_eq]; rfl
theorem bitsOf_data (u : Descriptor) : bitsOf u 95 64 = (fieldData u).toNat := by rw [fieldData, toNat_extractLsb'_eq]; rfl
theorem bitsOf_utop (u : Descriptor) : bitsOf u 127 96 = (fieldUTop u).toNat := by rw [fieldUTop, toNat_extractLsb'_eq]; rfl

/-- W2 and W3 together are 0 exactly when both are. -/
theorem bitsOf_127_64 (d : Descriptor) : bitsOf d 127 64 = (fieldW3 d).toNat * 2 ^ 32 + (fieldW2 d).toNat := by
  rw [← bitsOf_w3, ← bitsOf_w2]; unfold bitsOf; have := d.isLt; norm_num; omega

/-- W1, W2 and W3 as one number. -/
theorem bitsOf_127_32 (d : Descriptor) :
    bitsOf d 127 32 = (fieldW3 d).toNat * 2 ^ 64 + (fieldW2 d).toNat * 2 ^ 32 + (fieldW1 d).toNat := by
  rw [← bitsOf_w3, ← bitsOf_w2, ← bitsOf_w1]; unfold bitsOf; have := d.isLt; norm_num; omega

/-- A field read as two's complement is `sext` of the number in it. -/
theorem toInt_eq_sext {n : Nat} (w : BitVec n) (h : 0 < n) : w.toInt = sext n w.toNat := by
  rw [BitVec.toInt_eq_toNat_cond, sext]
  have hp : 2 ^ n = 2 * 2 ^ (n - 1) := by rw [← pow_succ']; congr 1; omega
  by_cases hh : w.toNat < 2 ^ (n - 1)
  · rw [if_pos hh, if_pos (by omega)]
  · rw [if_neg hh, if_neg (by omega)]; push_cast; rfl

end Sys2Proof.Machine
end

