-- ==== Sys2Proof/Laws/Memory.lean ====
section
/-! SUPPORT. The laws of the sparse memory: reads after writes, and the canonical form, which every operation keeps. -/

namespace Sys2Proof.Machine

/-! ### The order of addresses -/

theorem cellLt_iff (a b : CellAddr) :
    cellLt a b = true ↔ a.channel < b.channel ∨ (a.channel = b.channel ∧ a.index < b.index) := by
  simp [cellLt]

theorem cellLt_irrefl (a : CellAddr) : ¬ cellLt a a = true := by
  rw [cellLt_iff]; omega

theorem cellLt_trans {a b c : CellAddr} (h : cellLt a b = true) (k : cellLt b c = true) : cellLt a c = true := by
  rw [cellLt_iff] at *; omega

theorem cellLt_of_not {a b : CellAddr} (h : ¬ cellLt a b = true) (k : b ≠ a) : cellLt b a = true := by
  rw [cellLt_iff] at *
  obtain ⟨ac, ai⟩ := a
  obtain ⟨bc, bi⟩ := b
  simp only [ne_eq, CellAddr.mk.injEq] at *
  omega

/-! ### Reads after writes (any list, canonical or not) -/

namespace Memory

theorem listed_put_self (m : Memory) (a : CellAddr) (v : F32) : (m.put a v).listed a = some v := by
  induction m with
  | nil => simp [put, listed]
  | cons e m ih =>
    obtain ⟨k, w⟩ := e
    unfold put
    split
    · simp [listed]
    · split
      · simp [listed]
      · rename_i hne; simp [listed, hne, ih]

theorem listed_put_other (m : Memory) {a b : CellAddr} (v : F32) (h : b ≠ a) :
    (m.put a v).listed b = m.listed b := by
  induction m with
  | nil => simp [put, listed, h.symm]
  | cons e m ih =>
    obtain ⟨k, w⟩ := e
    unfold put
    split
    · simp [listed, h.symm]
    · split
      · rename_i hk; subst hk; simp [listed, h.symm]
      · simp [listed, ih]

theorem listed_unlist_self (m : Memory) (a : CellAddr) : (m.unlist a).listed a = none := by
  induction m with
  | nil => rfl
  | cons e m ih =>
    obtain ⟨k, w⟩ := e
    unfold unlist
    split
    · exact ih
    · rename_i hne; simp [listed, hne, ih]

theorem listed_unlist_other (m : Memory) {a b : CellAddr} (h : b ≠ a) : (m.unlist a).listed b = m.listed b := by
  induction m with
  | nil => rfl
  | cons e m ih =>
    obtain ⟨k, w⟩ := e
    unfold unlist
    split
    · rename_i hk; subst hk; simp [listed, h.symm, ih]
    · simp [listed, ih]

/-- A read after a write to the same cell gives the value written. -/
@[simp] theorem read_write_self (dflt : Option F32) (m : Memory) (a : CellAddr) (v : F32) :
    (m.write dflt a v).read dflt a = some v := by
  unfold read write
  split
  · rename_i h; simp [listed_unlist_self, h]
  · simp [listed_put_self]

/-- A write leaves every other cell alone. -/
theorem read_write_other (dflt : Option F32) (m : Memory) {a b : CellAddr} (v : F32) (h : b ≠ a) :
    (m.write dflt a v).read dflt b = m.read dflt b := by
  unfold read write
  split
  · rw [listed_unlist_other m h]
  · rw [listed_put_other m v h]

@[simp] theorem read_nil (dflt : Option F32) (a : CellAddr) : read dflt [] a = dflt := rfl

/-! ### Which entries an operation lists -/

theorem mem_put {m : Memory} {a : CellAddr} {v : F32} {e : CellAddr × F32} (h : e ∈ m.put a v) :
    e = (a, v) ∨ e ∈ m := by
  induction m with
  | nil => simpa [put] using h
  | cons x m ih =>
    obtain ⟨k, w⟩ := x
    unfold put at h
    split at h
    · simpa using h
    · split at h
      · rcases List.mem_cons.1 h with h | h
        · exact .inl h
        · exact .inr (List.mem_cons_of_mem _ h)
      · rcases List.mem_cons.1 h with h | h
        · exact .inr (h ▸ List.mem_cons_self)
        · exact (ih h).imp_right (List.mem_cons_of_mem _)

theorem mem_unlist {m : Memory} {a : CellAddr} {e : CellAddr × F32} (h : e ∈ m.unlist a) : e ∈ m := by
  induction m with
  | nil => simp [unlist] at h
  | cons x m ih =>
    obtain ⟨k, w⟩ := x
    unfold unlist at h
    split at h
    · exact List.mem_cons_of_mem _ (ih h)
    · rcases List.mem_cons.1 h with h | h
      · exact h ▸ List.mem_cons_self
      · exact List.mem_cons_of_mem _ (ih h)

theorem mem_write {dflt : Option F32} {m : Memory} {a : CellAddr} {v : F32} {e : CellAddr × F32}
    (h : e ∈ m.write dflt a v) : e = (a, v) ∨ e ∈ m := by
  unfold write at h
  split at h
  · exact .inr (mem_unlist h)
  · exact mem_put h

/-! ### The canonical form -/

theorem wf_nil (dflt : Option F32) : wf dflt [] := by simp [wf]

theorem sorted_put {m : Memory} (a : CellAddr) (v : F32)
    (h : m.Pairwise fun x y => cellLt x.1 y.1 = true) :
    (m.put a v).Pairwise fun x y => cellLt x.1 y.1 = true := by
  induction m with
  | nil => simp [put]
  | cons x m ih =>
    obtain ⟨k, w⟩ := x
    obtain ⟨hk, hm⟩ := List.pairwise_cons.1 h
    unfold put
    split
    · rename_i hlt
      refine List.pairwise_cons.2 ⟨fun y hy => ?_, h⟩
      rcases List.mem_cons.1 hy with rfl | hy
      · exact hlt
      · exact cellLt_trans hlt (hk y hy)
    · rename_i hnlt
      split
      · rename_i heq; subst heq
        exact List.pairwise_cons.2 ⟨hk, hm⟩
      · rename_i hne
        refine List.pairwise_cons.2 ⟨fun y hy => ?_, ih hm⟩
        rcases mem_put hy with rfl | hy
        · exact cellLt_of_not hnlt hne
        · exact hk y hy

theorem sorted_unlist {m : Memory} (a : CellAddr) (h : m.Pairwise fun x y => cellLt x.1 y.1 = true) :
    (m.unlist a).Pairwise fun x y => cellLt x.1 y.1 = true := by
  induction m with
  | nil => simp [unlist]
  | cons x m ih =>
    obtain ⟨k, w⟩ := x
    obtain ⟨hk, hm⟩ := List.pairwise_cons.1 h
    unfold unlist
    split
    · exact ih hm
    · exact List.pairwise_cons.2 ⟨fun y hy => hk y (mem_unlist hy), ih hm⟩

/-- Taking an entry away keeps the canonical form. -/
theorem wf_unlist {dflt : Option F32} {m : Memory} (a : CellAddr) (h : m.wf dflt) : (m.unlist a).wf dflt :=
  ⟨sorted_unlist a h.1, fun e he => h.2 e (mem_unlist he)⟩

/-- A write keeps the canonical form. -/
theorem wf_write {dflt : Option F32} {m : Memory} (a : CellAddr) (v : F32) (h : m.wf dflt) :
    (m.write dflt a v).wf dflt := by
  unfold write
  split
  · exact wf_unlist a h
  · rename_i hv
    refine ⟨sorted_put a v h.1, fun e he => ?_⟩
    rcases mem_put he with rfl | he
    · exact fun h' => hv h'.symm
    · exact h.2 e he

end Memory
end Sys2Proof.Machine
end

