-- ==== Sys2Proof/Laws/State.lean ====
section
/-! SUPPORT. What each named update of State does to each field: true by rfl, so that no later proof unfolds one. -/

namespace Sys2Proof.Machine

section storeWrite
variable (s : State) (c : Nat) (p : Int) (v : F32)
@[simp] theorem storeWrite_cfg : (s.storeWrite c p v).cfg = s.cfg := rfl
@[simp] theorem storeWrite_capacity : (s.storeWrite c p v).capacity = s.capacity := rfl
@[simp] theorem storeWrite_writeCursor : (s.storeWrite c p v).writeCursor = s.writeCursor := rfl
@[simp] theorem storeWrite_sampleRate : (s.storeWrite c p v).sampleRate = s.sampleRate := rfl
@[simp] theorem storeWrite_maxBlock : (s.storeWrite c p v).maxBlock = s.maxBlock := rfl
@[simp] theorem storeWrite_status : (s.storeWrite c p v).status = s.status := rfl
@[simp] theorem storeWrite_paramGain : (s.storeWrite c p v).paramGain = s.paramGain := rfl
@[simp] theorem storeWrite_paramDelayMs : (s.storeWrite c p v).paramDelayMs = s.paramDelayMs := rfl
@[simp] theorem storeWrite_pstatus : (s.storeWrite c p v).pstatus = s.pstatus := rfl
@[simp] theorem storeWrite_store : (s.storeWrite c p v).store = s.store.write unlistedStore (s.storeCell c p) v := rfl
@[simp] theorem storeWrite_inProgress : (s.storeWrite c p v).inProgress = s.inProgress := rfl
@[simp] theorem storeWrite_block : (s.storeWrite c p v).block = s.block := rfl
@[simp] theorem storeWrite_commandPort : (s.storeWrite c p v).commandPort = s.commandPort := rfl
@[simp] theorem storeWrite_paramPort : (s.storeWrite c p v).paramPort = s.paramPort := rfl
@[simp] theorem storeWrite_microPort : (s.storeWrite c p v).microPort = s.microPort := rfl
@[simp] theorem storeWrite_blockAccesses : (s.storeWrite c p v).blockAccesses = s.blockAccesses := rfl
@[simp] theorem storeWrite_schedule : (s.storeWrite c p v).schedule = s.schedule := rfl
@[simp] theorem storeWrite_storeReply : (s.storeWrite c p v).storeReply = s.storeReply := rfl
@[simp] theorem storeWrite_blockReply : (s.storeWrite c p v).blockReply = s.blockReply := rfl
@[simp] theorem storeWrite_draws : (s.storeWrite c p v).draws = s.draws := rfl
end storeWrite

section ioWrite
variable (s : State) (c i : Nat) (v : F32)
@[simp] theorem ioWrite_cfg : (s.ioWrite c i v).cfg = s.cfg := rfl
@[simp] theorem ioWrite_capacity : (s.ioWrite c i v).capacity = s.capacity := rfl
@[simp] theorem ioWrite_writeCursor : (s.ioWrite c i v).writeCursor = s.writeCursor := rfl
@[simp] theorem ioWrite_sampleRate : (s.ioWrite c i v).sampleRate = s.sampleRate := rfl
@[simp] theorem ioWrite_maxBlock : (s.ioWrite c i v).maxBlock = s.maxBlock := rfl
@[simp] theorem ioWrite_status : (s.ioWrite c i v).status = s.status := rfl
@[simp] theorem ioWrite_paramGain : (s.ioWrite c i v).paramGain = s.paramGain := rfl
@[simp] theorem ioWrite_paramDelayMs : (s.ioWrite c i v).paramDelayMs = s.paramDelayMs := rfl
@[simp] theorem ioWrite_pstatus : (s.ioWrite c i v).pstatus = s.pstatus := rfl
@[simp] theorem ioWrite_store : (s.ioWrite c i v).store = s.store := rfl
@[simp] theorem ioWrite_inProgress : (s.ioWrite c i v).inProgress = s.inProgress := rfl
@[simp] theorem ioWrite_block : (s.ioWrite c i v).block = s.block.write unlistedBlock ⟨c, i⟩ v := rfl
@[simp] theorem ioWrite_commandPort : (s.ioWrite c i v).commandPort = s.commandPort := rfl
@[simp] theorem ioWrite_paramPort : (s.ioWrite c i v).paramPort = s.paramPort := rfl
@[simp] theorem ioWrite_microPort : (s.ioWrite c i v).microPort = s.microPort := rfl
@[simp] theorem ioWrite_blockAccesses : (s.ioWrite c i v).blockAccesses = s.blockAccesses := rfl
@[simp] theorem ioWrite_schedule : (s.ioWrite c i v).schedule = s.schedule := rfl
@[simp] theorem ioWrite_storeReply : (s.ioWrite c i v).storeReply = s.storeReply := rfl
@[simp] theorem ioWrite_blockReply : (s.ioWrite c i v).blockReply = s.blockReply := rfl
@[simp] theorem ioWrite_draws : (s.ioWrite c i v).draws = s.draws := rfl
end ioWrite

section raiseStatus
variable (s : State) (k : StatusCode)
@[simp] theorem raiseStatus_cfg : (s.raiseStatus k).cfg = s.cfg := rfl
@[simp] theorem raiseStatus_capacity : (s.raiseStatus k).capacity = s.capacity := rfl
@[simp] theorem raiseStatus_writeCursor : (s.raiseStatus k).writeCursor = s.writeCursor := rfl
@[simp] theorem raiseStatus_sampleRate : (s.raiseStatus k).sampleRate = s.sampleRate := rfl
@[simp] theorem raiseStatus_maxBlock : (s.raiseStatus k).maxBlock = s.maxBlock := rfl
@[simp] theorem raiseStatus_status : (s.raiseStatus k).status = k := rfl
@[simp] theorem raiseStatus_paramGain : (s.raiseStatus k).paramGain = s.paramGain := rfl
@[simp] theorem raiseStatus_paramDelayMs : (s.raiseStatus k).paramDelayMs = s.paramDelayMs := rfl
@[simp] theorem raiseStatus_pstatus : (s.raiseStatus k).pstatus = s.pstatus := rfl
@[simp] theorem raiseStatus_store : (s.raiseStatus k).store = s.store := rfl
@[simp] theorem raiseStatus_inProgress : (s.raiseStatus k).inProgress = s.inProgress := rfl
@[simp] theorem raiseStatus_block : (s.raiseStatus k).block = s.block := rfl
@[simp] theorem raiseStatus_commandPort : (s.raiseStatus k).commandPort = s.commandPort := rfl
@[simp] theorem raiseStatus_paramPort : (s.raiseStatus k).paramPort = s.paramPort := rfl
@[simp] theorem raiseStatus_microPort : (s.raiseStatus k).microPort = s.microPort := rfl
@[simp] theorem raiseStatus_blockAccesses : (s.raiseStatus k).blockAccesses = s.blockAccesses := rfl
@[simp] theorem raiseStatus_schedule : (s.raiseStatus k).schedule = s.schedule := rfl
@[simp] theorem raiseStatus_storeReply : (s.raiseStatus k).storeReply = s.storeReply := rfl
@[simp] theorem raiseStatus_blockReply : (s.raiseStatus k).blockReply = s.blockReply := rfl
@[simp] theorem raiseStatus_draws : (s.raiseStatus k).draws = s.draws := rfl
end raiseStatus

section raiseParamStatus
variable (s : State) (k : StatusCode)
@[simp] theorem raiseParamStatus_cfg : (s.raiseParamStatus k).cfg = s.cfg := rfl
@[simp] theorem raiseParamStatus_capacity : (s.raiseParamStatus k).capacity = s.capacity := rfl
@[simp] theorem raiseParamStatus_writeCursor : (s.raiseParamStatus k).writeCursor = s.writeCursor := rfl
@[simp] theorem raiseParamStatus_sampleRate : (s.raiseParamStatus k).sampleRate = s.sampleRate := rfl
@[simp] theorem raiseParamStatus_maxBlock : (s.raiseParamStatus k).maxBlock = s.maxBlock := rfl
@[simp] theorem raiseParamStatus_status : (s.raiseParamStatus k).status = s.status := rfl
@[simp] theorem raiseParamStatus_paramGain : (s.raiseParamStatus k).paramGain = s.paramGain := rfl
@[simp] theorem raiseParamStatus_paramDelayMs : (s.raiseParamStatus k).paramDelayMs = s.paramDelayMs := rfl
@[simp] theorem raiseParamStatus_pstatus : (s.raiseParamStatus k).pstatus = k := rfl
@[simp] theorem raiseParamStatus_store : (s.raiseParamStatus k).store = s.store := rfl
@[simp] theorem raiseParamStatus_inProgress : (s.raiseParamStatus k).inProgress = s.inProgress := rfl
@[simp] theorem raiseParamStatus_block : (s.raiseParamStatus k).block = s.block := rfl
@[simp] theorem raiseParamStatus_commandPort : (s.raiseParamStatus k).commandPort = s.commandPort := rfl
@[simp] theorem raiseParamStatus_paramPort : (s.raiseParamStatus k).paramPort = s.paramPort := rfl
@[simp] theorem raiseParamStatus_microPort : (s.raiseParamStatus k).microPort = s.microPort := rfl
@[simp] theorem raiseParamStatus_blockAccesses : (s.raiseParamStatus k).blockAccesses = s.blockAccesses := rfl
@[simp] theorem raiseParamStatus_schedule : (s.raiseParamStatus k).schedule = s.schedule := rfl
@[simp] theorem raiseParamStatus_storeReply : (s.raiseParamStatus k).storeReply = s.storeReply := rfl
@[simp] theorem raiseParamStatus_blockReply : (s.raiseParamStatus k).blockReply = s.blockReply := rfl
@[simp] theorem raiseParamStatus_draws : (s.raiseParamStatus k).draws = s.draws := rfl
end raiseParamStatus

section replyStore
variable (s : State) (r : StoreReply)
@[simp] theorem replyStore_cfg : (s.replyStore r).cfg = s.cfg := rfl
@[simp] theorem replyStore_capacity : (s.replyStore r).capacity = s.capacity := rfl
@[simp] theorem replyStore_writeCursor : (s.replyStore r).writeCursor = s.writeCursor := rfl
@[simp] theorem replyStore_sampleRate : (s.replyStore r).sampleRate = s.sampleRate := rfl
@[simp] theorem replyStore_maxBlock : (s.replyStore r).maxBlock = s.maxBlock := rfl
@[simp] theorem replyStore_status : (s.replyStore r).status = s.status := rfl
@[simp] theorem replyStore_paramGain : (s.replyStore r).paramGain = s.paramGain := rfl
@[simp] theorem replyStore_paramDelayMs : (s.replyStore r).paramDelayMs = s.paramDelayMs := rfl
@[simp] theorem replyStore_pstatus : (s.replyStore r).pstatus = s.pstatus := rfl
@[simp] theorem replyStore_store : (s.replyStore r).store = s.store := rfl
@[simp] theorem replyStore_inProgress : (s.replyStore r).inProgress = s.inProgress := rfl
@[simp] theorem replyStore_block : (s.replyStore r).block = s.block := rfl
@[simp] theorem replyStore_commandPort : (s.replyStore r).commandPort = s.commandPort := rfl
@[simp] theorem replyStore_paramPort : (s.replyStore r).paramPort = s.paramPort := rfl
@[simp] theorem replyStore_microPort : (s.replyStore r).microPort = s.microPort := rfl
@[simp] theorem replyStore_blockAccesses : (s.replyStore r).blockAccesses = s.blockAccesses := rfl
@[simp] theorem replyStore_schedule : (s.replyStore r).schedule = s.schedule := rfl
@[simp] theorem replyStore_storeReply : (s.replyStore r).storeReply = r := rfl
@[simp] theorem replyStore_blockReply : (s.replyStore r).blockReply = s.blockReply := rfl
@[simp] theorem replyStore_draws : (s.replyStore r).draws = s.draws := rfl
end replyStore

section writeGain
variable (s : State) (v : F32)
@[simp] theorem writeGain_cfg : (s.writeGain v).cfg = s.cfg := rfl
@[simp] theorem writeGain_capacity : (s.writeGain v).capacity = s.capacity := rfl
@[simp] theorem writeGain_writeCursor : (s.writeGain v).writeCursor = s.writeCursor := rfl
@[simp] theorem writeGain_sampleRate : (s.writeGain v).sampleRate = s.sampleRate := rfl
@[simp] theorem writeGain_maxBlock : (s.writeGain v).maxBlock = s.maxBlock := rfl
@[simp] theorem writeGain_status : (s.writeGain v).status = s.status := rfl
@[simp] theorem writeGain_paramGain : (s.writeGain v).paramGain = v := rfl
@[simp] theorem writeGain_paramDelayMs : (s.writeGain v).paramDelayMs = s.paramDelayMs := rfl
@[simp] theorem writeGain_pstatus : (s.writeGain v).pstatus = s.pstatus := rfl
@[simp] theorem writeGain_store : (s.writeGain v).store = s.store := rfl
@[simp] theorem writeGain_inProgress : (s.writeGain v).inProgress = s.inProgress := rfl
@[simp] theorem writeGain_block : (s.writeGain v).block = s.block := rfl
@[simp] theorem writeGain_commandPort : (s.writeGain v).commandPort = s.commandPort := rfl
@[simp] theorem writeGain_paramPort : (s.writeGain v).paramPort = s.paramPort := rfl
@[simp] theorem writeGain_microPort : (s.writeGain v).microPort = s.microPort := rfl
@[simp] theorem writeGain_blockAccesses : (s.writeGain v).blockAccesses = s.blockAccesses := rfl
@[simp] theorem writeGain_schedule : (s.writeGain v).schedule = s.schedule := rfl
@[simp] theorem writeGain_storeReply : (s.writeGain v).storeReply = s.storeReply := rfl
@[simp] theorem writeGain_blockReply : (s.writeGain v).blockReply = s.blockReply := rfl
@[simp] theorem writeGain_draws : (s.writeGain v).draws = s.draws := rfl
end writeGain

section writeDelay
variable (s : State) (v : F32)
@[simp] theorem writeDelay_cfg : (s.writeDelay v).cfg = s.cfg := rfl
@[simp] theorem writeDelay_capacity : (s.writeDelay v).capacity = s.capacity := rfl
@[simp] theorem writeDelay_writeCursor : (s.writeDelay v).writeCursor = s.writeCursor := rfl
@[simp] theorem writeDelay_sampleRate : (s.writeDelay v).sampleRate = s.sampleRate := rfl
@[simp] theorem writeDelay_maxBlock : (s.writeDelay v).maxBlock = s.maxBlock := rfl
@[simp] theorem writeDelay_status : (s.writeDelay v).status = s.status := rfl
@[simp] theorem writeDelay_paramGain : (s.writeDelay v).paramGain = s.paramGain := rfl
@[simp] theorem writeDelay_paramDelayMs : (s.writeDelay v).paramDelayMs = v := rfl
@[simp] theorem writeDelay_pstatus : (s.writeDelay v).pstatus = s.pstatus := rfl
@[simp] theorem writeDelay_store : (s.writeDelay v).store = s.store := rfl
@[simp] theorem writeDelay_inProgress : (s.writeDelay v).inProgress = s.inProgress := rfl
@[simp] theorem writeDelay_block : (s.writeDelay v).block = s.block := rfl
@[simp] theorem writeDelay_commandPort : (s.writeDelay v).commandPort = s.commandPort := rfl
@[simp] theorem writeDelay_paramPort : (s.writeDelay v).paramPort = s.paramPort := rfl
@[simp] theorem writeDelay_microPort : (s.writeDelay v).microPort = s.microPort := rfl
@[simp] theorem writeDelay_blockAccesses : (s.writeDelay v).blockAccesses = s.blockAccesses := rfl
@[simp] theorem writeDelay_schedule : (s.writeDelay v).schedule = s.schedule := rfl
@[simp] theorem writeDelay_storeReply : (s.writeDelay v).storeReply = s.storeReply := rfl
@[simp] theorem writeDelay_blockReply : (s.writeDelay v).blockReply = s.blockReply := rfl
@[simp] theorem writeDelay_draws : (s.writeDelay v).draws = s.draws := rfl
end writeDelay

section discardStore
variable (s : State)
@[simp] theorem discardStore_cfg : s.discardStore.cfg = s.cfg := rfl
@[simp] theorem discardStore_capacity : s.discardStore.capacity = 0 := rfl
@[simp] theorem discardStore_writeCursor : s.discardStore.writeCursor = 0 := rfl
@[simp] theorem discardStore_sampleRate : s.discardStore.sampleRate = s.sampleRate := rfl
@[simp] theorem discardStore_maxBlock : s.discardStore.maxBlock = s.maxBlock := rfl
@[simp] theorem discardStore_status : s.discardStore.status = s.status := rfl
@[simp] theorem discardStore_paramGain : s.discardStore.paramGain = s.paramGain := rfl
@[simp] theorem discardStore_paramDelayMs : s.discardStore.paramDelayMs = s.paramDelayMs := rfl
@[simp] theorem discardStore_pstatus : s.discardStore.pstatus = s.pstatus := rfl
@[simp] theorem discardStore_store : s.discardStore.store = [] := rfl
@[simp] theorem discardStore_inProgress : s.discardStore.inProgress = s.inProgress := rfl
@[simp] theorem discardStore_block : s.discardStore.block = s.block := rfl
@[simp] theorem discardStore_commandPort : s.discardStore.commandPort = s.commandPort := rfl
@[simp] theorem discardStore_paramPort : s.discardStore.paramPort = s.paramPort := rfl
@[simp] theorem discardStore_microPort : s.discardStore.microPort = s.microPort := rfl
@[simp] theorem discardStore_blockAccesses : s.discardStore.blockAccesses = s.blockAccesses := rfl
@[simp] theorem discardStore_schedule : s.discardStore.schedule = s.schedule := rfl
@[simp] theorem discardStore_storeReply : s.discardStore.storeReply = s.storeReply := rfl
@[simp] theorem discardStore_blockReply : s.discardStore.blockReply = s.blockReply := rfl
@[simp] theorem discardStore_draws : s.discardStore.draws = s.draws := rfl
end discardStore

section startSession
variable (s : State) (r : F64) (m : Int)
@[simp] theorem startSession_cfg : (s.startSession r m).cfg = s.cfg := rfl
@[simp] theorem startSession_capacity : (s.startSession r m).capacity = s.capacity := rfl
@[simp] theorem startSession_writeCursor : (s.startSession r m).writeCursor = 0 := rfl
@[simp] theorem startSession_sampleRate : (s.startSession r m).sampleRate = r := rfl
@[simp] theorem startSession_maxBlock : (s.startSession r m).maxBlock = BitVec.ofInt 32 m := rfl
@[simp] theorem startSession_status : (s.startSession r m).status = s.status := rfl
@[simp] theorem startSession_paramGain : (s.startSession r m).paramGain = s.paramGain := rfl
@[simp] theorem startSession_paramDelayMs : (s.startSession r m).paramDelayMs = s.paramDelayMs := rfl
@[simp] theorem startSession_pstatus : (s.startSession r m).pstatus = s.pstatus := rfl
@[simp] theorem startSession_store : (s.startSession r m).store = s.store := rfl
@[simp] theorem startSession_inProgress : (s.startSession r m).inProgress = s.inProgress := rfl
@[simp] theorem startSession_block : (s.startSession r m).block = s.block := rfl
@[simp] theorem startSession_commandPort : (s.startSession r m).commandPort = s.commandPort := rfl
@[simp] theorem startSession_paramPort : (s.startSession r m).paramPort = s.paramPort := rfl
@[simp] theorem startSession_microPort : (s.startSession r m).microPort = s.microPort := rfl
@[simp] theorem startSession_blockAccesses : (s.startSession r m).blockAccesses = s.blockAccesses := rfl
@[simp] theorem startSession_schedule : (s.startSession r m).schedule = s.schedule := rfl
@[simp] theorem startSession_storeReply : (s.startSession r m).storeReply = s.storeReply := rfl
@[simp] theorem startSession_blockReply : (s.startSession r m).blockReply = s.blockReply := rfl
@[simp] theorem startSession_draws : (s.startSession r m).draws = s.draws := rfl
end startSession

section completeProcess
variable (s : State)
@[simp] theorem completeProcess_cfg : s.completeProcess.cfg = s.cfg := rfl
@[simp] theorem completeProcess_capacity : s.completeProcess.capacity = s.capacity := rfl
@[simp] theorem completeProcess_writeCursor : s.completeProcess.writeCursor = s.writeCursor := rfl
@[simp] theorem completeProcess_sampleRate : s.completeProcess.sampleRate = s.sampleRate := rfl
@[simp] theorem completeProcess_maxBlock : s.completeProcess.maxBlock = s.maxBlock := rfl
@[simp] theorem completeProcess_status : s.completeProcess.status = .ok := rfl
@[simp] theorem completeProcess_paramGain : s.completeProcess.paramGain = s.paramGain := rfl
@[simp] theorem completeProcess_paramDelayMs : s.completeProcess.paramDelayMs = s.paramDelayMs := rfl
@[simp] theorem completeProcess_pstatus : s.completeProcess.pstatus = s.pstatus := rfl
@[simp] theorem completeProcess_store : s.completeProcess.store = s.store := rfl
@[simp] theorem completeProcess_inProgress : s.completeProcess.inProgress = none := rfl
@[simp] theorem completeProcess_block : s.completeProcess.block = s.block := rfl
@[simp] theorem completeProcess_commandPort : s.completeProcess.commandPort = s.commandPort := rfl
@[simp] theorem completeProcess_paramPort : s.completeProcess.paramPort = s.paramPort := rfl
@[simp] theorem completeProcess_microPort : s.completeProcess.microPort = s.microPort := rfl
@[simp] theorem completeProcess_blockAccesses : s.completeProcess.blockAccesses = s.blockAccesses := rfl
@[simp] theorem completeProcess_schedule : s.completeProcess.schedule = s.schedule := rfl
@[simp] theorem completeProcess_storeReply : s.completeProcess.storeReply = s.storeReply := rfl
@[simp] theorem completeProcess_blockReply : s.completeProcess.blockReply = s.blockReply := rfl
@[simp] theorem completeProcess_draws : s.completeProcess.draws = s.draws := rfl
end completeProcess

section advanceBlock
variable (s : State) (n : Int) (k : Nat)
@[simp] theorem advanceBlock_cfg : (s.advanceBlock n k).cfg = s.cfg := rfl
@[simp] theorem advanceBlock_capacity : (s.advanceBlock n k).capacity = s.capacity := rfl
@[simp] theorem advanceBlock_writeCursor : (s.advanceBlock n k).writeCursor = advanceCursor s.writeCursor n s.capacity := rfl
@[simp] theorem advanceBlock_sampleRate : (s.advanceBlock n k).sampleRate = s.sampleRate := rfl
@[simp] theorem advanceBlock_maxBlock : (s.advanceBlock n k).maxBlock = s.maxBlock := rfl
@[simp] theorem advanceBlock_status : (s.advanceBlock n k).status = s.status := rfl
@[simp] theorem advanceBlock_paramGain : (s.advanceBlock n k).paramGain = s.paramGain := rfl
@[simp] theorem advanceBlock_paramDelayMs : (s.advanceBlock n k).paramDelayMs = s.paramDelayMs := rfl
@[simp] theorem advanceBlock_pstatus : (s.advanceBlock n k).pstatus = s.pstatus := rfl
@[simp] theorem advanceBlock_store : (s.advanceBlock n k).store = s.store := rfl
@[simp] theorem advanceBlock_inProgress : (s.advanceBlock n k).inProgress = s.inProgress := rfl
@[simp] theorem advanceBlock_block : (s.advanceBlock n k).block = s.block := rfl
@[simp] theorem advanceBlock_commandPort : (s.advanceBlock n k).commandPort = s.commandPort := rfl
@[simp] theorem advanceBlock_paramPort : (s.advanceBlock n k).paramPort = s.paramPort := rfl
@[simp] theorem advanceBlock_microPort : (s.advanceBlock n k).microPort = s.microPort := rfl
@[simp] theorem advanceBlock_blockAccesses : (s.advanceBlock n k).blockAccesses = s.blockAccesses := rfl
@[simp] theorem advanceBlock_schedule : (s.advanceBlock n k).schedule = s.schedule := rfl
@[simp] theorem advanceBlock_storeReply : (s.advanceBlock n k).storeReply = s.storeReply := rfl
@[simp] theorem advanceBlock_blockReply : (s.advanceBlock n k).blockReply = s.blockReply := rfl
@[simp] theorem advanceBlock_draws : (s.advanceBlock n k).draws = s.draws + k := rfl
end advanceBlock

section passTurn
variable (s : State)
@[simp] theorem passTurn_cfg : s.passTurn.cfg = s.cfg := rfl
@[simp] theorem passTurn_capacity : s.passTurn.capacity = s.capacity := rfl
@[simp] theorem passTurn_writeCursor : s.passTurn.writeCursor = s.writeCursor := rfl
@[simp] theorem passTurn_sampleRate : s.passTurn.sampleRate = s.sampleRate := rfl
@[simp] theorem passTurn_maxBlock : s.passTurn.maxBlock = s.maxBlock := rfl
@[simp] theorem passTurn_status : s.passTurn.status = s.status := rfl
@[simp] theorem passTurn_paramGain : s.passTurn.paramGain = s.paramGain := rfl
@[simp] theorem passTurn_paramDelayMs : s.passTurn.paramDelayMs = s.paramDelayMs := rfl
@[simp] theorem passTurn_pstatus : s.passTurn.pstatus = s.pstatus := rfl
@[simp] theorem passTurn_store : s.passTurn.store = s.store := rfl
@[simp] theorem passTurn_inProgress : s.passTurn.inProgress = s.inProgress := rfl
@[simp] theorem passTurn_block : s.passTurn.block = s.block := rfl
@[simp] theorem passTurn_commandPort : s.passTurn.commandPort = s.commandPort := rfl
@[simp] theorem passTurn_paramPort : s.passTurn.paramPort = s.paramPort := rfl
@[simp] theorem passTurn_microPort : s.passTurn.microPort = s.microPort := rfl
@[simp] theorem passTurn_blockAccesses : s.passTurn.blockAccesses = s.blockAccesses := rfl
@[simp] theorem passTurn_schedule : s.passTurn.schedule = s.schedule.tail := rfl
@[simp] theorem passTurn_storeReply : s.passTurn.storeReply = s.storeReply := rfl
@[simp] theorem passTurn_blockReply : s.passTurn.blockReply = s.blockReply := rfl
@[simp] theorem passTurn_draws : s.passTurn.draws = s.draws := rfl
end passTurn

section retireParameter
variable (s : State)
@[simp] theorem retireParameter_cfg : s.retireParameter.cfg = s.cfg := rfl
@[simp] theorem retireParameter_capacity : s.retireParameter.capacity = s.capacity := rfl
@[simp] theorem retireParameter_writeCursor : s.retireParameter.writeCursor = s.writeCursor := rfl
@[simp] theorem retireParameter_sampleRate : s.retireParameter.sampleRate = s.sampleRate := rfl
@[simp] theorem retireParameter_maxBlock : s.retireParameter.maxBlock = s.maxBlock := rfl
@[simp] theorem retireParameter_status : s.retireParameter.status = s.status := rfl
@[simp] theorem retireParameter_paramGain : s.retireParameter.paramGain = s.paramGain := rfl
@[simp] theorem retireParameter_paramDelayMs : s.retireParameter.paramDelayMs = s.paramDelayMs := rfl
@[simp] theorem retireParameter_pstatus : s.retireParameter.pstatus = s.pstatus := rfl
@[simp] theorem retireParameter_store : s.retireParameter.store = s.store := rfl
@[simp] theorem retireParameter_inProgress : s.retireParameter.inProgress = s.inProgress := rfl
@[simp] theorem retireParameter_block : s.retireParameter.block = s.block := rfl
@[simp] theorem retireParameter_commandPort : s.retireParameter.commandPort = s.commandPort := rfl
@[simp] theorem retireParameter_paramPort : s.retireParameter.paramPort = s.paramPort.tail := rfl
@[simp] theorem retireParameter_microPort : s.retireParameter.microPort = s.microPort := rfl
@[simp] theorem retireParameter_blockAccesses : s.retireParameter.blockAccesses = s.blockAccesses := rfl
@[simp] theorem retireParameter_schedule : s.retireParameter.schedule = s.schedule.tail := rfl
@[simp] theorem retireParameter_storeReply : s.retireParameter.storeReply = s.storeReply := rfl
@[simp] theorem retireParameter_blockReply : s.retireParameter.blockReply = s.blockReply := rfl
@[simp] theorem retireParameter_draws : s.retireParameter.draws = s.draws := rfl
end retireParameter

section retireBlockAccess
variable (s : State)
@[simp] theorem retireBlockAccess_cfg : s.retireBlockAccess.cfg = s.cfg := rfl
@[simp] theorem retireBlockAccess_capacity : s.retireBlockAccess.capacity = s.capacity := rfl
@[simp] theorem retireBlockAccess_writeCursor : s.retireBlockAccess.writeCursor = s.writeCursor := rfl
@[simp] theorem retireBlockAccess_sampleRate : s.retireBlockAccess.sampleRate = s.sampleRate := rfl
@[simp] theorem retireBlockAccess_maxBlock : s.retireBlockAccess.maxBlock = s.maxBlock := rfl
@[simp] theorem retireBlockAccess_status : s.retireBlockAccess.status = s.status := rfl
@[simp] theorem retireBlockAccess_paramGain : s.retireBlockAccess.paramGain = s.paramGain := rfl
@[simp] theorem retireBlockAccess_paramDelayMs : s.retireBlockAccess.paramDelayMs = s.paramDelayMs := rfl
@[simp] theorem retireBlockAccess_pstatus : s.retireBlockAccess.pstatus = s.pstatus := rfl
@[simp] theorem retireBlockAccess_store : s.retireBlockAccess.store = s.store := rfl
@[simp] theorem retireBlockAccess_inProgress : s.retireBlockAccess.inProgress = s.inProgress := rfl
@[simp] theorem retireBlockAccess_block : s.retireBlockAccess.block = s.block := rfl
@[simp] theorem retireBlockAccess_commandPort : s.retireBlockAccess.commandPort = s.commandPort := rfl
@[simp] theorem retireBlockAccess_paramPort : s.retireBlockAccess.paramPort = s.paramPort := rfl
@[simp] theorem retireBlockAccess_microPort : s.retireBlockAccess.microPort = s.microPort := rfl
@[simp] theorem retireBlockAccess_blockAccesses : s.retireBlockAccess.blockAccesses = s.blockAccesses.tail := rfl
@[simp] theorem retireBlockAccess_schedule : s.retireBlockAccess.schedule = s.schedule.tail := rfl
@[simp] theorem retireBlockAccess_storeReply : s.retireBlockAccess.storeReply = s.storeReply := rfl
@[simp] theorem retireBlockAccess_blockReply : s.retireBlockAccess.blockReply = s.blockReply := rfl
@[simp] theorem retireBlockAccess_draws : s.retireBlockAccess.draws = s.draws := rfl
end retireBlockAccess

section retireMicroOp
variable (s : State)
@[simp] theorem retireMicroOp_cfg : s.retireMicroOp.cfg = s.cfg := rfl
@[simp] theorem retireMicroOp_capacity : s.retireMicroOp.capacity = s.capacity := rfl
@[simp] theorem retireMicroOp_writeCursor : s.retireMicroOp.writeCursor = s.writeCursor := rfl
@[simp] theorem retireMicroOp_sampleRate : s.retireMicroOp.sampleRate = s.sampleRate := rfl
@[simp] theorem retireMicroOp_maxBlock : s.retireMicroOp.maxBlock = s.maxBlock := rfl
@[simp] theorem retireMicroOp_status : s.retireMicroOp.status = s.status := rfl
@[simp] theorem retireMicroOp_paramGain : s.retireMicroOp.paramGain = s.paramGain := rfl
@[simp] theorem retireMicroOp_paramDelayMs : s.retireMicroOp.paramDelayMs = s.paramDelayMs := rfl
@[simp] theorem retireMicroOp_pstatus : s.retireMicroOp.pstatus = s.pstatus := rfl
@[simp] theorem retireMicroOp_store : s.retireMicroOp.store = s.store := rfl
@[simp] theorem retireMicroOp_inProgress : s.retireMicroOp.inProgress = s.inProgress := rfl
@[simp] theorem retireMicroOp_block : s.retireMicroOp.block = s.block := rfl
@[simp] theorem retireMicroOp_commandPort : s.retireMicroOp.commandPort = s.commandPort := rfl
@[simp] theorem retireMicroOp_paramPort : s.retireMicroOp.paramPort = s.paramPort := rfl
@[simp] theorem retireMicroOp_microPort : s.retireMicroOp.microPort = s.microPort.tail := rfl
@[simp] theorem retireMicroOp_blockAccesses : s.retireMicroOp.blockAccesses = s.blockAccesses := rfl
@[simp] theorem retireMicroOp_schedule : s.retireMicroOp.schedule = s.schedule.tail := rfl
@[simp] theorem retireMicroOp_storeReply : s.retireMicroOp.storeReply = s.storeReply := rfl
@[simp] theorem retireMicroOp_blockReply : s.retireMicroOp.blockReply = s.blockReply := rfl
@[simp] theorem retireMicroOp_draws : s.retireMicroOp.draws = s.draws := rfl
end retireMicroOp

section retireCommand
variable (s : State)
@[simp] theorem retireCommand_cfg : s.retireCommand.cfg = s.cfg := by
  unfold State.retireCommand; split <;> rfl
@[simp] theorem retireCommand_capacity : s.retireCommand.capacity = s.capacity := by
  unfold State.retireCommand; split <;> rfl
@[simp] theorem retireCommand_writeCursor : s.retireCommand.writeCursor = s.writeCursor := by
  unfold State.retireCommand; split <;> rfl
@[simp] theorem retireCommand_sampleRate : s.retireCommand.sampleRate = s.sampleRate := by
  unfold State.retireCommand; split <;> rfl
@[simp] theorem retireCommand_maxBlock : s.retireCommand.maxBlock = s.maxBlock := by
  unfold State.retireCommand; split <;> rfl
@[simp] theorem retireCommand_status : s.retireCommand.status = s.status := by
  unfold State.retireCommand; split <;> rfl
@[simp] theorem retireCommand_paramGain : s.retireCommand.paramGain = s.paramGain := by
  unfold State.retireCommand; split <;> rfl
@[simp] theorem retireCommand_paramDelayMs : s.retireCommand.paramDelayMs = s.paramDelayMs := by
  unfold State.retireCommand; split <;> rfl
@[simp] theorem retireCommand_pstatus : s.retireCommand.pstatus = s.pstatus := by
  unfold State.retireCommand; split <;> rfl
@[simp] theorem retireCommand_store : s.retireCommand.store = s.store := by
  unfold State.retireCommand; split <;> rfl
@[simp] theorem retireCommand_inProgress : s.retireCommand.inProgress = s.inProgress := by
  unfold State.retireCommand; split <;> rfl
@[simp] theorem retireCommand_block : s.retireCommand.block = s.block := by
  unfold State.retireCommand; split <;> rfl
theorem retireCommand_commandPort :
    s.retireCommand.commandPort = if s.inProgress.isSome then s.commandPort else s.commandPort.tail := by
  unfold State.retireCommand; split <;> rfl
@[simp] theorem retireCommand_paramPort : s.retireCommand.paramPort = s.paramPort := by
  unfold State.retireCommand; split <;> rfl
@[simp] theorem retireCommand_microPort : s.retireCommand.microPort = s.microPort := by
  unfold State.retireCommand; split <;> rfl
@[simp] theorem retireCommand_blockAccesses : s.retireCommand.blockAccesses = s.blockAccesses := by
  unfold State.retireCommand; split <;> rfl
@[simp] theorem retireCommand_schedule : s.retireCommand.schedule = s.schedule.tail := by
  unfold State.retireCommand; split <;> rfl
@[simp] theorem retireCommand_storeReply : s.retireCommand.storeReply = s.storeReply := by
  unfold State.retireCommand; split <;> rfl
@[simp] theorem retireCommand_blockReply : s.retireCommand.blockReply = s.blockReply := by
  unfold State.retireCommand; split <;> rfl
@[simp] theorem retireCommand_draws : s.retireCommand.draws = s.draws := by
  unfold State.retireCommand; split <;> rfl
end retireCommand

end Sys2Proof.Machine
end

