-- ==== Sys2Proof/Laws/Ops.lean ====
section
/-! SUPPORT. One lemma for each shared operation, saying what it does; the provers cite these and do not unfold. -/

namespace Sys2Proof.Machine

/-! ### Loops -/

@[simp] theorem forUpto_zero {σ : Type} (body : Nat → σ → σ) (s : σ) : forUpto 0 body s = s := rfl

@[simp] theorem forUpto_succ {σ : Type} (n : Nat) (body : Nat → σ → σ) (s : σ) :
    forUpto (n + 1) body s = body n (forUpto n body s) := rfl

/-- A loop keeps what its body keeps. -/
theorem forUpto_keeps {σ : Type} {P : σ → Prop} {body : Nat → σ → σ} {s : σ} (n : Nat)
    (step : ∀ i s, i < n → P s → P (body i s)) (h : P s) : P (forUpto n body s) := by
  induction n with
  | zero => exact h
  | succ n ih => exact step n _ (Nat.lt_succ_self n) (ih fun i s hi => step i s (Nat.lt_succ_of_lt hi))

/-- A loop leaves alone what its body leaves alone. -/
theorem forUpto_proj {σ α : Type} (f : σ → α) {body : Nat → σ → σ} (step : ∀ i s, f (body i s) = f s) (n : Nat)
    (s : σ) : f (forUpto n body s) = f s := by
  induction n with
  | zero => rfl
  | succ n ih => rw [forUpto_succ, step, ih]

/-- A loop commutes with what its body commutes with. -/
theorem forUpto_comm {σ : Type} (f : σ → σ) {body : Nat → σ → σ} (h : ∀ i s, body i (f s) = f (body i s)) (n : Nat)
    (s : σ) : forUpto n body (f s) = f (forUpto n body s) := by
  induction n with
  | zero => rfl
  | succ n ih => rw [forUpto_succ, ih, h, forUpto_succ]

theorem allUpto_iff (n : Nat) (p : Nat → Bool) : allUpto n p = true ↔ ∀ i < n, p i = true := by
  induction n with
  | zero => simp [allUpto]
  | succ n ih => simp [allUpto, ih, Nat.le_iff_lt_or_eq, or_imp, forall_and]

/-- What `blockHolds` says (R45). -/
theorem blockHolds_iff (s : State) (n len : Nat) :
    s.blockHolds n len = true ↔ ∀ c < n, ∀ i < len, (s.block.read unlistedBlock ⟨c, i⟩).isSome = true := by
  simp [State.blockHolds, allUpto_iff]

/-! ### The wraparound mapping (R68, R69) -/

/-- The source's formula is the Euclidean remainder (R15, R68). -/
theorem physicalPosition_eq (p : Int) {cap : Nat} (h : 0 < cap) : (physicalPosition p cap : Int) = p % cap := by
  have hc : (0 : Int) < cap := by exact_mod_cast h
  have hlt := Int.tmod_lt_of_pos p hc
  have hgt : -(cap : Int) < Int.tmod p cap := Int.lt_tmod_of_pos p hc
  unfold physicalPosition
  rw [Int.tmod_eq_emod_of_nonneg (by omega : 0 ≤ Int.tmod p cap + cap), Int.toNat_of_nonneg (Int.emod_nonneg _ (by omega)),
    Int.add_emod_right, Int.tmod_eq_emod]
  split <;> simp

theorem physicalPosition_lt (p : Int) {cap : Nat} (h : 0 < cap) : physicalPosition p cap < cap := by
  have := physicalPosition_eq p h
  have hlt := Int.emod_lt_of_pos p (by exact_mod_cast h : (0 : Int) < cap)
  omega

/-! ### STORE (R72, R73) -/

/-- Two positions name the same cell of a channel exactly when they are congruent (R69). -/
theorem storeCell_eq_iff (s : State) (c c' : Nat) (p p' : Int) (h : 0 < s.capacity.toNat) :
    s.storeCell c' p' = s.storeCell c p ↔ c' = c ∧ p' % s.capacity.toNat = p % (s.capacity.toNat : Int) := by
  rw [← physicalPosition_eq p h, ← physicalPosition_eq p' h]
  simp only [State.storeCell, CellAddr.mk.injEq]
  constructor
  · rintro ⟨h1, h2⟩; exact ⟨h1, by rw [h2]⟩
  · rintro ⟨h1, h2⟩; exact ⟨h1, by exact_mod_cast h2⟩

@[simp] theorem storeCell_storeWrite (s : State) (c : Nat) (p : Int) (v : F32) (c' : Nat) (p' : Int) :
    (s.storeWrite c p v).storeCell c' p' = s.storeCell c' p' := rfl

@[simp] theorem storeCell_ioWrite (s : State) (c i : Nat) (v : F32) (c' : Nat) (p' : Int) :
    (s.ioWrite c i v).storeCell c' p' = s.storeCell c' p' := rfl

/-- SREAD after SWRITE at the same cell. -/
theorem storeRead_storeWrite_same (s : State) {c c' : Nat} {p p' : Int} (v : F32)
    (h : s.storeCell c' p' = s.storeCell c p) : (s.storeWrite c p v).storeRead c' p' = v := by
  simp [State.storeRead, h]

/-- SREAD after SWRITE at another cell. -/
theorem storeRead_storeWrite_other (s : State) {c c' : Nat} {p p' : Int} (v : F32)
    (h : s.storeCell c' p' ≠ s.storeCell c p) : (s.storeWrite c p v).storeRead c' p' = s.storeRead c' p' := by
  simp [State.storeRead, Memory.read_write_other _ _ v h]

@[simp] theorem storeRead_ioWrite (s : State) (c i : Nat) (v : F32) (c' : Nat) (p' : Int) :
    (s.ioWrite c i v).storeRead c' p' = s.storeRead c' p' := rfl

/-- STORE of a state reads the same wherever its cells and its capacity are the same. -/
theorem storeRead_congr {s t : State} (h : t.store = s.store) (k : t.capacity = s.capacity) (c : Nat) (p : Int) :
    t.storeRead c p = s.storeRead c p := by
  simp [State.storeRead, State.storeCell, h, k]

/-! ### Block memory (R44) -/

@[simp] theorem ioRead_ioWrite_same (s : State) (c i : Nat) (v : F32) : (s.ioWrite c i v).ioRead c i = v := by
  simp [State.ioRead]

theorem ioRead_ioWrite_other (s : State) {c c' i i' : Nat} (v : F32) (h : (⟨c', i'⟩ : CellAddr) ≠ ⟨c, i⟩) :
    (s.ioWrite c i v).ioRead c' i' = s.ioRead c' i' := by
  simp [State.ioRead, Memory.read_write_other _ _ v h]

@[simp] theorem ioRead_storeWrite (s : State) (c : Nat) (p : Int) (v : F32) (c' i' : Nat) :
    (s.storeWrite c p v).ioRead c' i' = s.ioRead c' i' := rfl

/-- A sample that is there stays there when block memory is written. -/
theorem isSome_read_ioWrite (s : State) (c i : Nat) (v : F32) {a : CellAddr}
    (h : (s.block.read unlistedBlock a).isSome = true) :
    ((s.ioWrite c i v).block.read unlistedBlock a).isSome = true := by
  by_cases ha : a = ⟨c, i⟩
  · subst ha; simp
  · simpa [Memory.read_write_other _ _ v ha] using h

/-! ### SRESIZE (R71) -/

/-- Everything SRESIZE can answer. -/
theorem resizeStore_cases {n : Nat} {cap : Int} {s : State} {r : Except Fault (StatusCode × State)}
    (h : resizeStore n cap s = r) :
    (cap ≤ 0 ∧ r = .ok (.invalidCapacity, s)) ∨
    (0 < cap ∧ (s.cfg.capMax.toNat : Int) < cap ∧ r = .ok (.capacityExceedsStorage, s)) ∨
    (0 < cap ∧ cap ≤ s.cfg.capMax.toNat ∧ n ≠ s.cfg.numCh.toNat ∧ r = .error .resizeChannelMismatch) ∨
    (0 < cap ∧ cap ≤ s.cfg.capMax.toNat ∧ n = s.cfg.numCh.toNat ∧
      r = .ok (.ok, { s with store := [], capacity := BitVec.ofInt 32 cap, writeCursor := 0 })) := by
  unfold resizeStore at h
  split at h
  · exact .inl ⟨‹_›, h.symm⟩
  · split at h
    · exact .inr (.inl ⟨by omega, ‹_›, h.symm⟩)
    · split at h
      · exact .inr (.inr (.inl ⟨by omega, by omega, ‹_›, h.symm⟩))
      · rename_i hn
        exact .inr (.inr (.inr ⟨by omega, by omega, not_not.1 hn, h.symm⟩))

/-- The capacity SRESIZE writes is the operand, exactly. -/
theorem toNat_ofInt_capacity {cap : Int} {capMax : BitVec 31} (h : 0 < cap) (k : cap ≤ capMax.toNat) :
    ((BitVec.ofInt 32 cap).toNat : Int) = cap := by
  have := capMax.isLt
  rw [BitVec.toNat_ofInt]
  have : cap % (2 ^ 32 : Nat) = cap := Int.emod_eq_of_lt (by omega) (by omega)
  omega

/-! ### CapField (R92) -/

/-- The operand of SRESIZE is at most 0 exactly when the requested capacity is at most 0 or a NaN. -/
theorem capField_nonpos_iff (capMax : Nat) (r : Option ExtInt) :
    capField capMax r ≤ 0 ↔ r = none ∨ r = some .negInf ∨ ∃ n ≤ 0, r = some (.int n) := by
  rcases r with _ | (_ | n | _)
  · simp [capField]
  · simp [capField]
  · simp only [capField, reduceCtorEq, Option.some.injEq, ExtInt.int.injEq, exists_eq_right', false_or]
    split
    · simpa using ‹_›
    · split <;> omega
  · simp only [capField, reduceCtorEq, Option.some.injEq, and_false, exists_false, or_false, iff_false]; omega

/-- The operand of SRESIZE exceeds CAP_MAX exactly when the requested capacity does. -/
theorem capField_exceeds_iff (capMax : Nat) (r : Option ExtInt) :
    (capMax : Int) < capField capMax r ↔ r = some .posInf ∨ ∃ n : Int, (capMax : Int) < n ∧ r = some (.int n) := by
  rcases r with _ | (_ | n | _)
  · simp [capField]
  · simp [capField]
  · simp only [capField, reduceCtorEq, Option.some.injEq, ExtInt.int.injEq, exists_eq_right', false_or]
    split
    · omega
    · split <;> omega
  · simp [capField]

/-- A requested capacity within the storage is the operand itself. -/
theorem capField_of_fits {capMax : Nat} {n : Int} (h : 0 < n) (k : n ≤ capMax) :
    capField capMax (some (.int n)) = n := by
  simp only [capField]; split
  · omega
  · split <;> omega

/-- An operand that SRESIZE accepts is the requested capacity. -/
theorem requested_of_capField {capMax : Nat} {r : Option ExtInt} {n : Int} (e : capField capMax r = n) (h : 0 < n)
    (k : n ≤ capMax) : r = some (.int n) := by
  rcases r with _ | (_ | m | _)
  · simp [capField] at e; omega
  · simp [capField] at e; omega
  · simp only [capField] at e
    split at e
    · omega
    · split at e
      · omega
      · rw [e]
  · simp only [capField] at e; omega

/-! ### The delay offset (R78, R90) -/

theorem clampExt_bounds (v : ExtInt) {lo hi : Int} (h : lo ≤ hi) : lo ≤ clampExt v lo hi ∧ clampExt v lo hi ≤ hi := by
  unfold clampExt; split <;> omega

/-- D lies in [0, CAPACITY - 1]. -/
theorem delaySamples_bounds (t : F32) (sr : F64) {cap : Nat} (h : 0 < cap) :
    0 ≤ delaySamples t sr cap ∧ delaySamples t sr cap ≤ cap - 1 := by
  unfold delaySamples
  split
  · omega
  · exact clampExt_bounds _ (by omega)

/-! ### The cursor advance (R84) -/

/-- The cursor after a block, exactly. -/
theorem advanceCursor_eq (wc : Word) (n : Int) {cap : Word} (h : cap ≠ 0) :
    ((advanceCursor wc n cap).toNat : Int) = (wc.toNat + n) % cap.toNat := by
  have hp : 0 < cap.toNat := Nat.pos_of_ne_zero fun h0 => h (BitVec.eq_of_toNat_eq (by simpa using h0))
  have hc := cap.isLt
  have h1 := Int.emod_nonneg (wc.toNat + n) (by omega : (cap.toNat : Int) ≠ 0)
  have h2 := Int.emod_lt_of_pos (wc.toNat + n) (by omega : (0 : Int) < cap.toNat)
  unfold advanceCursor
  rw [BitVec.toNat_ofInt]
  change ((((wc.toNat + n) % (cap.toNat : Int)) % ((2 ^ 32 : Nat) : Int)).toNat : Int) = _
  rw [Int.emod_eq_of_lt h1 (by omega)]
  omega

theorem advanceCursor_lt (wc : Word) (n : Int) {cap : Word} (h : cap ≠ 0) :
    (advanceCursor wc n cap).toNat < cap.toNat := by
  have := advanceCursor_eq wc n h
  have hp : 0 < cap.toNat := Nat.pos_of_ne_zero fun h0 => h (BitVec.eq_of_toNat_eq (by simpa using h0))
  have h2 := Int.emod_lt_of_pos (wc.toNat + n) (by omega : (0 : Int) < cap.toNat)
  omega

/-! ### The mix (R82) -/

theorem mix_of_exact {k : Nat} {dry g wet v : F32} (h : mixExact dry g wet = some v) : mix k dry g wet = v := by
  simp [mix, h]

theorem mix_of_nan {k : Nat} {dry g wet : F32} (h : mixExact dry g wet = none) :
    mix k dry g wet = Config.freeNaN k := by
  simp [mix, h]

end Sys2Proof.Machine
end

