-- ==== Sys2Proof/Laws/Engine.lean ====
section
/-! SUPPORT. What each phase of PROCESS does to STORE and block memory, and that it changes nothing else. -/

namespace Sys2Proof.Machine

/-- A state with its two memories taken out: what is left is all that a channel's phases leave alone. -/
def State.withoutCells (s : State) : State := { s with store := [], block := [] }

theorem withoutCells_processChannel (wc d : Int) (g : F32) (len k c : Nat) (s : State) :
    (s.processChannel wc d g len k c).withoutCells = s.withoutCells := by
  unfold State.processChannel
  refine (forUpto_proj State.withoutCells ?_ _ _).trans (forUpto_proj State.withoutCells ?_ _ _) <;> intros <;> rfl

theorem withoutCells_channels (wc d : Int) (g : F32) (len k n : Nat) (s : State) :
    (forUpto n (State.processChannel wc d g len k) s).withoutCells = s.withoutCells :=
  forUpto_proj State.withoutCells (fun _ _ => withoutCells_processChannel ..) n s

/-! ### The last write to a cell (R80) -/

theorem lastWrite_some {wc p : Int} {cap n j : Nat} (h : lastWrite wc p cap n = some j) :
    j < n ∧ (wc + j) % cap = p % cap ∧ ∀ k, j < k → k < n → (wc + k) % cap ≠ p % cap := by
  induction n with
  | zero => cases h
  | succ n ih =>
    unfold lastWrite at h
    split at h
    · cases h; exact ⟨by omega, ‹_›, fun k h1 h2 => by omega⟩
    · obtain ⟨h1, h2, h3⟩ := ih h
      refine ⟨by omega, h2, fun k hk hk' => ?_⟩
      by_cases hkn : k = n
      · subst hkn; assumption
      · exact h3 k hk (by omega)

theorem lastWrite_none {wc p : Int} {cap n : Nat} (h : lastWrite wc p cap n = none) :
    ∀ k < n, (wc + k) % cap ≠ p % cap := by
  induction n with
  | zero => intro k hk; omega
  | succ n ih =>
    unfold lastWrite at h
    split at h
    · cases h
    · intro k hk
      by_cases hkn : k = n
      · subst hkn; assumption
      · exact ih h k (by omega)

/-! ### The write phase (R80) -/

theorem block_writePhase (wc : Int) (c len : Nat) (s : State) :
    (forUpto len (State.writeSample wc c) s).block = s.block := by
  apply forUpto_proj State.block; intros; rfl

theorem ioRead_writePhase (wc : Int) (c len : Nat) (s : State) (c' i : Nat) :
    (forUpto len (State.writeSample wc c) s).ioRead c' i = s.ioRead c' i := by
  simp [State.ioRead, block_writePhase]

theorem capacity_writePhase (wc : Int) (c len : Nat) (s : State) :
    (forUpto len (State.writeSample wc c) s).capacity = s.capacity := by
  apply forUpto_proj State.capacity; intros; rfl

/-- A position of the channel after the write phase: the last write to its cell, or what was there. -/
theorem storeRead_writePhase (wc : Int) (c len : Nat) (s : State) (h : 0 < s.capacity.toNat) (p : Int) :
    (forUpto len (State.writeSample wc c) s).storeRead c p =
      match lastWrite wc p s.capacity.toNat len with
      | some j => s.ioRead c j
      | none => s.storeRead c p := by
  induction len with
  | zero => rfl
  | succ n ih =>
    have hcap := capacity_writePhase wc c n s
    rw [forUpto_succ, State.writeSample, ioRead_writePhase]
    by_cases heq : (wc + n) % s.capacity.toNat = p % (s.capacity.toNat : Int)
    · simp only [lastWrite, heq, if_true]
      rw [storeRead_storeWrite_same]
      rw [storeCell_eq_iff _ _ _ _ _ (by rw [hcap]; exact h), hcap]
      exact ⟨rfl, heq.symm⟩
    · simp only [lastWrite, heq, if_false]
      rw [storeRead_storeWrite_other, ih]
      rw [ne_eq, storeCell_eq_iff _ _ _ _ _ (by rw [hcap]; exact h), hcap]
      exact fun hh => heq hh.2.symm

/-- The other rows are not written. -/
theorem store_writePhase_other (wc : Int) (c len : Nat) (s : State) (a : CellAddr) (h : a.channel ≠ c) :
    (forUpto len (State.writeSample wc c) s).store.read unlistedStore a = s.store.read unlistedStore a := by
  refine forUpto_proj (fun s : State => s.store.read unlistedStore a) (fun i s => ?_) len s
  exact Memory.read_write_other _ _ _ (fun hh => h (by rw [hh]; rfl))

/-! ### The read phase (R81, R82) -/

theorem store_readPhase (rc : Int) (g : F32) (k : Nat → Nat) (c len : Nat) (s : State) :
    (forUpto len (fun i => State.mixSample rc g (k i) c i) s).store = s.store := by
  apply forUpto_proj State.store; intros; rfl

theorem storeRead_readPhase (rc : Int) (g : F32) (k : Nat → Nat) (c len : Nat) (s : State) (c' : Nat) (p : Int) :
    (forUpto len (fun i => State.mixSample rc g (k i) c i) s).storeRead c' p = s.storeRead c' p := by
  apply forUpto_proj (fun s : State => s.storeRead c' p); intros; rfl

/-- Block memory outside the first `len` samples of the channel is not written. -/
theorem block_readPhase_other (rc : Int) (g : F32) (k : Nat → Nat) (c len : Nat) (s : State) (a : CellAddr)
    (h : ¬ (a.channel = c ∧ a.index < len)) :
    (forUpto len (fun i => State.mixSample rc g (k i) c i) s).block.read unlistedBlock a =
      s.block.read unlistedBlock a := by
  refine forUpto_keeps (P := fun t : State => t.block.read unlistedBlock a = s.block.read unlistedBlock a) len
    (fun i t hi ht => ?_) rfl
  rw [← ht]
  exact Memory.read_write_other _ _ _ (fun hh => h (by rw [hh]; exact ⟨rfl, hi⟩))

/-- Sample `i` after the read phase is the mix of the dry input with the sample read from STORE. -/
theorem ioRead_readPhase (rc : Int) (g : F32) (k : Nat → Nat) (c len : Nat) (s : State) {i : Nat} (h : i < len) :
    (forUpto len (fun i => State.mixSample rc g (k i) c i) s).ioRead c i =
      mix (k i) (s.ioRead c i) g (s.storeRead c (rc + i)) := by
  induction len with
  | zero => omega
  | succ n ih =>
    rw [forUpto_succ, State.mixSample, storeRead_readPhase]
    by_cases hi : i = n
    · subst hi
      rw [ioRead_ioWrite_same]
      congr 1
      simp only [State.ioRead]
      rw [block_readPhase_other _ _ _ _ _ _ _ (by simp)]
    · rw [ioRead_ioWrite_other _ _ (by simpa using hi), ih (by omega)]

/-! ### One channel -/

/-- Row `c` of STORE after its channel has been processed. -/
theorem storeRead_processChannel (wc d : Int) (g : F32) (len k c : Nat) (s : State) (h : 0 < s.capacity.toNat) (p : Int) :
    (s.processChannel wc d g len k c).storeRead c p =
      match lastWrite wc p s.capacity.toNat len with
      | some j => s.ioRead c j
      | none => s.storeRead c p := by
  unfold State.processChannel
  rw [storeRead_readPhase, storeRead_writePhase _ _ _ _ h]

/-- The other rows of STORE are as they were. -/
theorem store_processChannel_other (wc d : Int) (g : F32) (len k c : Nat) (s : State) (a : CellAddr)
    (h : a.channel ≠ c) :
    (s.processChannel wc d g len k c).store.read unlistedStore a = s.store.read unlistedStore a := by
  unfold State.processChannel
  rw [store_readPhase, store_writePhase_other _ _ _ _ _ h]

/-- The output samples of the channel. -/
theorem ioRead_processChannel (wc d : Int) (g : F32) (len k c : Nat) (s : State) (h : 0 < s.capacity.toNat) {i : Nat}
    (hi : i < len) :
    (s.processChannel wc d g len k c).ioRead c i =
      mix (k + c * len + i) (s.ioRead c i) g
        (match lastWrite wc (wc - d + i) s.capacity.toNat len with
          | some j => s.ioRead c j
          | none => s.storeRead c (wc - d + i)) := by
  unfold State.processChannel
  rw [ioRead_readPhase (wc - d) g (fun i => k + c * len + i) c len _ hi, ioRead_writePhase, storeRead_writePhase _ _ _ _ h]

/-- Block memory outside the processed samples of the channel is as it was. -/
theorem block_processChannel_other (wc d : Int) (g : F32) (len k c : Nat) (s : State) (a : CellAddr)
    (h : ¬ (a.channel = c ∧ a.index < len)) :
    (s.processChannel wc d g len k c).block.read unlistedBlock a = s.block.read unlistedBlock a := by
  unfold State.processChannel
  rw [block_readPhase_other _ _ (fun i => k + c * len + i) _ _ _ _ h, block_writePhase]

theorem capacity_processChannel (wc d : Int) (g : F32) (len k c : Nat) (s : State) :
    (s.processChannel wc d g len k c).capacity = s.capacity :=
  (congrArg State.capacity (withoutCells_processChannel wc d g len k c s) :)

/-! ### All channels -/

theorem capacity_channels (wc d : Int) (g : F32) (len k n : Nat) (s : State) :
    (forUpto n (State.processChannel wc d g len k) s).capacity = s.capacity :=
  (congrArg State.capacity (withoutCells_channels wc d g len k n s) :)

/-- A channel that is not among the first `n` is untouched: its row of STORE. -/
theorem store_channels_other (wc d : Int) (g : F32) (len k n : Nat) (s : State) (a : CellAddr) (h : n ≤ a.channel) :
    (forUpto n (State.processChannel wc d g len k) s).store.read unlistedStore a = s.store.read unlistedStore a :=
  forUpto_keeps (P := fun t : State => t.store.read unlistedStore a = s.store.read unlistedStore a) n
    (fun c t hc ht => by rw [← ht]; exact store_processChannel_other _ _ _ _ _ _ _ _ (by omega)) rfl

/-- Block memory outside the first `n` channels and the first `len` samples is untouched. -/
theorem block_channels_other (wc d : Int) (g : F32) (len k n : Nat) (s : State) (a : CellAddr)
    (h : ¬ (a.channel < n ∧ a.index < len)) :
    (forUpto n (State.processChannel wc d g len k) s).block.read unlistedBlock a = s.block.read unlistedBlock a :=
  forUpto_keeps (P := fun t : State => t.block.read unlistedBlock a = s.block.read unlistedBlock a) n
    (fun c t hc ht => by
      rw [← ht]
      exact block_processChannel_other _ _ _ _ _ _ _ _ (fun hh => h ⟨hh.1 ▸ hc, hh.2⟩)) rfl

/-- After the first `n` channels, channel `c` among them is as its own pass left it. -/
theorem channels_at (wc d : Int) (g : F32) (len k : Nat) (s : State) {n c : Nat} (h : c < n) :
    (∀ p, (forUpto n (State.processChannel wc d g len k) s).storeRead c p =
      ((forUpto c (State.processChannel wc d g len k) s).processChannel wc d g len k c).storeRead c p) ∧
    (∀ i, (forUpto n (State.processChannel wc d g len k) s).ioRead c i =
      ((forUpto c (State.processChannel wc d g len k) s).processChannel wc d g len k c).ioRead c i) := by
  induction n with
  | zero => omega
  | succ n ih =>
    by_cases hc : c = n
    · subst hc; exact ⟨fun _ => rfl, fun _ => rfl⟩
    · obtain ⟨h1, h2⟩ := ih (by omega)
      constructor
      · intro p
        rw [← h1, forUpto_succ]
        simp only [State.storeRead, State.storeCell, capacity_processChannel]
        rw [store_processChannel_other _ _ _ _ _ _ _ _ (by simpa using hc)]
      · intro i
        rw [← h2, forUpto_succ]
        simp only [State.ioRead]
        rw [block_processChannel_other _ _ _ _ _ _ _ _ (by simpa using fun h => absurd h hc)]

/-- Row `c` and channel `c` of block memory are untouched before the pass of channel `c`. -/
theorem channels_before (wc d : Int) (g : F32) (len k : Nat) (s : State) (c : Nat) :
    (∀ p, (forUpto c (State.processChannel wc d g len k) s).storeRead c p = s.storeRead c p) ∧
    (∀ i, (forUpto c (State.processChannel wc d g len k) s).ioRead c i = s.ioRead c i) := by
  constructor
  · intro p
    simp only [State.storeRead, State.storeCell, capacity_channels]
    rw [store_channels_other _ _ _ _ _ _ _ _ (Nat.le_refl c)]
  · intro i
    simp only [State.ioRead]
    rw [block_channels_other _ _ _ _ _ _ _ _ (by simp)]

/-- Both memories stay canonical through a channel. -/
theorem memoryOk_processChannel (wc d : Int) (g : F32) (len k c : Nat) {s : State} (h : s.MemoryOk) :
    (s.processChannel wc d g len k c).MemoryOk :=
  forUpto_keeps len (fun _ _ _ h => ⟨h.store, Memory.wf_write _ _ h.block⟩)
    (forUpto_keeps len (fun _ _ _ h => ⟨Memory.wf_write _ _ h.store, h.block⟩) h)

/-- STORE stays in its shape through a channel that the store has. -/
theorem storeInShape_processChannel (wc d : Int) (g : F32) (len k : Nat) {c : Nat} {s : State} (h : s.storeInShape)
    (hc : c < s.cfg.numCh.toNat) (hcap : 0 < s.capacity.toNat) : (s.processChannel wc d g len k c).storeInShape := by
  have hw : ∀ (i : Nat) (t : State), i < len →
      (t.storeInShape ∧ t.cfg = s.cfg ∧ t.capacity = s.capacity) →
      ((t.writeSample wc c i).storeInShape ∧ (t.writeSample wc c i).cfg = s.cfg ∧
        (t.writeSample wc c i).capacity = s.capacity) := by
    rintro i t - ⟨ht, hcfg, hcp⟩
    refine ⟨fun e he => ?_, hcfg, hcp⟩
    rcases Memory.mem_write he with rfl | he
    · refine ⟨by simpa [State.writeSample, State.storeCell, hcfg] using hc, ?_⟩
      have := physicalPosition_lt (wc + i) (by rw [hcp]; exact hcap : 0 < t.capacity.toNat)
      simpa [State.writeSample, State.storeCell] using this
    · exact ht e he
  have h1 := forUpto_keeps (P := fun t : State => t.storeInShape ∧ t.cfg = s.cfg ∧ t.capacity = s.capacity) len hw
    ⟨h, rfl, rfl⟩
  exact forUpto_keeps (P := State.storeInShape) len (fun _ _ _ ht => ht) h1.1

end Sys2Proof.Machine
end

