-- ==== Sys2Proof/Laws/Float.lean ====
section
/-! SUPPORT. What the parts of a floating-point pattern say, the named patterns, and the scaled floor as a floor of rationals. -/

namespace Sys2Proof.Machine

/-- The NaN patterns: exponent all ones, fraction not 0. -/
theorem decodeFloat_nan_iff (f : FloatFormat) (b : Nat) :
    decodeFloat f b = .nan ↔ b / 2 ^ f.fracBits % 2 ^ f.expBits = 2 ^ f.expBits - 1 ∧ b % 2 ^ f.fracBits ≠ 0 := by
  unfold decodeFloat
  by_cases h1 : b / 2 ^ f.fracBits % 2 ^ f.expBits = 2 ^ f.expBits - 1
  · by_cases h2 : b % 2 ^ f.fracBits = 0 <;> simp [h1, h2]
  · simp only [h1, if_false, false_and, iff_false]; split <;> simp

/-- Rounding never gives more than the pattern of infinity. -/
theorem roundMagnitude_le (f : FloatFormat) (n d : Nat) (e : Int) : roundMagnitude f n d e ≤ infMagnitude f := by
  unfold roundMagnitude
  split
  · exact Nat.zero_le _
  · exact Nat.min_le_left _ _

@[simp] theorem decodeFloat_f32Infinity (s : Bool) : decodeFloat binary32 (f32Infinity s).toNat = .inf s := by
  cases s <;> decide

@[simp] theorem decodeFloat_f64Infinity (s : Bool) : decodeFloat binary64 (f64Infinity s).toNat = .inf s := by
  cases s <;> decide

@[simp] theorem decodeFloat_f64Zero (s : Bool) : decodeFloat binary64 (f64Zero s).toNat = .finite s 0 (-1074) := by
  cases s <;> decide

theorem ofNat_signed_f32Infinity (s : Bool) : BitVec.ofNat 32 (signed binary32 s (infMagnitude binary32)) = f32Infinity s := by
  cases s <;> decide

theorem ofNat_signed_f64Infinity (s : Bool) : BitVec.ofNat 64 (signed binary64 s (infMagnitude binary64)) = f64Infinity s := by
  cases s <;> decide

theorem ofNat_signed_f64Zero (s : Bool) : BitVec.ofNat 64 (signed binary64 s 0) = f64Zero s := by
  cases s <;> decide

/-- A power of 2 as a quotient of naturals. -/
theorem two_zpow_eq (e : Int) : (2 : Rat) ^ e = (2 ^ e.toNat : Nat) / (2 ^ (-e).toNat : Nat) := by
  rcases le_total 0 e with h | h
  · obtain ⟨n, rfl⟩ := Int.eq_ofNat_of_zero_le h
    simp
  · obtain ⟨n, hn⟩ := Int.eq_ofNat_of_zero_le (by omega : 0 ≤ -e)
    obtain rfl : e = -(n : Int) := by omega
    simp

theorem floorScaled_eq (n e : Int) : floorScaled n e = ⌊(n : Rat) * (2 : Rat) ^ e⌋ := by
  unfold floorScaled
  split
  · simp_all
  · rw [two_zpow_eq, ← mul_div_assoc,
      show (n : Rat) * ((2 ^ e.toNat : Nat) : Rat) = ((n * 2 ^ e.toNat : Int) : Rat) by push_cast; ring,
      Rat.floor_intCast_div_natCast]
    push_cast; rfl

end Sys2Proof.Machine
end

