-- ==== Sys2Proof/Laws/PerInstr.lean ====
section
/-! SUPPORT. Facts about every instruction as syntax, one lemma per constructor. The family TableRow: the encoder gives an
instruction the fixed bits of its row of spec/opcode_table.json, whatever the operands. -/

namespace Sys2Proof.Laws.TableRow

/-- The fixed fields of the instruction's row: `match` under `mask` in spec/opcode_table.json. -/
def Statement (i : Instr) : Prop :=
  match i with
  | .prepare _ _  => fieldOpc (encode i) = 0x01 ∧ fieldReserved (encode i) = 0
  | .release      => encode i = 2
  | .process _ _  => fieldOpc (encode i) = 0x03 ∧ fieldReserved (encode i) = 0 ∧ fieldW3 (encode i) = 0
  | .setgain _    => fieldOpc (encode i) = 0x10 ∧ fieldReserved (encode i) = 0 ∧ fieldW2 (encode i) = 0 ∧ fieldW3 (encode i) = 0
  | .setdelay _   => fieldOpc (encode i) = 0x11 ∧ fieldReserved (encode i) = 0 ∧ fieldW2 (encode i) = 0 ∧ fieldW3 (encode i) = 0
  | .swrite _ _ _ => fieldUop (encode i) = 1 ∧ fieldUReserved (encode i) = 0 ∧ fieldUTop (encode i) = 0
  | .sread _ _    =>
    fieldUop (encode i) = 2 ∧ fieldUReserved (encode i) = 0 ∧ fieldData (encode i) = 0 ∧ fieldUTop (encode i) = 0
  | .sresize _ _  =>
    fieldUop (encode i) = 3 ∧ fieldUReserved (encode i) = 0 ∧ fieldData (encode i) = 0 ∧ fieldUTop (encode i) = 0

theorem prepare (sampleRate : F64) (maxBlockLength : Int) : Statement (.prepare sampleRate maxBlockLength) := by
  simp [Statement, encode]

theorem release : Statement .release := by
  unfold Statement; decide

theorem process (numChannels numSamples : Int) : Statement (.process numChannels numSamples) := by
  simp [Statement, encode]

theorem setgain (val : F32) : Statement (.setgain val) := by simp [Statement, encode]

theorem setdelay (val : F32) : Statement (.setdelay val) := by simp [Statement, encode]

theorem swrite (channel : Nat) (position : Int) (value : F32) : Statement (.swrite channel position value) := by
  simp [Statement, encode]

theorem sread (channel : Nat) (position : Int) : Statement (.sread channel position) := by
  simp [Statement, encode]

theorem sresize (numChannels : Nat) (capacitySamples : Int) : Statement (.sresize numChannels capacitySamples) := by
  simp [Statement, encode]

end Sys2Proof.Laws.TableRow
end

