-- ==== Sys2Proof/Laws/Step.lean ====
section
/-! SUPPORT. One lemma per meaning, saying everything it can answer, and one inversion lemma for a step. -/

namespace Sys2Proof.Machine

/-! ### The body of PROCESS -/

section processBody
variable (nc ns : Int) (g t : F32) (s : State)

/-- The body is the pass over the channels, then the cursor advance and the completion. -/
theorem processBody_eq : s.processBody nc ns g t =
    ((forUpto (processedChannels nc s.cfg.numCh.toNat) (State.processChannel s.writeCursor.toNat (s.delayOf t) g ns.toNat s.draws)
      s).advanceBlock ns (processedChannels nc s.cfg.numCh.toNat * ns.toNat)).completeProcess := rfl

@[simp] theorem processBody_cfg : (s.processBody nc ns g t).cfg = s.cfg :=
  (congrArg State.cfg (withoutCells_channels _ _ _ _ _ _ s) :)
@[simp] theorem processBody_capacity : (s.processBody nc ns g t).capacity = s.capacity :=
  (congrArg State.capacity (withoutCells_channels _ _ _ _ _ _ s) :)
@[simp] theorem processBody_sampleRate : (s.processBody nc ns g t).sampleRate = s.sampleRate :=
  (congrArg State.sampleRate (withoutCells_channels _ _ _ _ _ _ s) :)
@[simp] theorem processBody_maxBlock : (s.processBody nc ns g t).maxBlock = s.maxBlock :=
  (congrArg State.maxBlock (withoutCells_channels _ _ _ _ _ _ s) :)
@[simp] theorem processBody_paramGain : (s.processBody nc ns g t).paramGain = s.paramGain :=
  (congrArg State.paramGain (withoutCells_channels _ _ _ _ _ _ s) :)
@[simp] theorem processBody_paramDelayMs : (s.processBody nc ns g t).paramDelayMs = s.paramDelayMs :=
  (congrArg State.paramDelayMs (withoutCells_channels _ _ _ _ _ _ s) :)
@[simp] theorem processBody_pstatus : (s.processBody nc ns g t).pstatus = s.pstatus :=
  (congrArg State.pstatus (withoutCells_channels _ _ _ _ _ _ s) :)
@[simp] theorem processBody_commandPort : (s.processBody nc ns g t).commandPort = s.commandPort :=
  (congrArg State.commandPort (withoutCells_channels _ _ _ _ _ _ s) :)
@[simp] theorem processBody_paramPort : (s.processBody nc ns g t).paramPort = s.paramPort :=
  (congrArg State.paramPort (withoutCells_channels _ _ _ _ _ _ s) :)
@[simp] theorem processBody_microPort : (s.processBody nc ns g t).microPort = s.microPort :=
  (congrArg State.microPort (withoutCells_channels _ _ _ _ _ _ s) :)
@[simp] theorem processBody_blockAccesses : (s.processBody nc ns g t).blockAccesses = s.blockAccesses :=
  (congrArg State.blockAccesses (withoutCells_channels _ _ _ _ _ _ s) :)
@[simp] theorem processBody_schedule : (s.processBody nc ns g t).schedule = s.schedule :=
  (congrArg State.schedule (withoutCells_channels _ _ _ _ _ _ s) :)
@[simp] theorem processBody_storeReply : (s.processBody nc ns g t).storeReply = s.storeReply :=
  (congrArg State.storeReply (withoutCells_channels _ _ _ _ _ _ s) :)
@[simp] theorem processBody_blockReply : (s.processBody nc ns g t).blockReply = s.blockReply :=
  (congrArg State.blockReply (withoutCells_channels _ _ _ _ _ _ s) :)

@[simp] theorem processBody_status : (s.processBody nc ns g t).status = .ok := rfl
@[simp] theorem processBody_inProgress : (s.processBody nc ns g t).inProgress = none := rfl

@[simp] theorem processBody_draws :
    (s.processBody nc ns g t).draws = s.draws + processedChannels nc s.cfg.numCh.toNat * ns.toNat :=
  (congrArg (fun u : State => u.draws + processedChannels nc s.cfg.numCh.toNat * ns.toNat)
    (withoutCells_channels _ _ _ _ _ _ s) :)

@[simp] theorem processBody_writeCursor :
    (s.processBody nc ns g t).writeCursor = advanceCursor s.writeCursor ns s.capacity :=
  (congrArg (fun u : State => advanceCursor u.writeCursor ns u.capacity) (withoutCells_channels _ _ _ _ _ _ s) :)

end processBody

/-! ### The meanings -/

/-- Everything PREPARE can answer (R94, R95). -/
theorem execPrepare_cases (sr : F64) (m : Int) (s : State) :
    (∃ n : Int, requestedCapacity s.cfg.maxDelaySeconds sr = some (.int n) ∧ 0 < n ∧ n ≤ s.cfg.capMax.toNat ∧
      execPrepare sr m s = .next
        { s with
          store := [], capacity := BitVec.ofInt 32 n, writeCursor := 0, sampleRate := sr,
          maxBlock := BitVec.ofInt 32 m, status := .ok }) ∨
    (s.capacityOperand sr ≤ 0 ∧
      execPrepare sr m s = .next (s.raiseStatus .invalidCapacity)) ∨
    ((s.cfg.capMax.toNat : Int) < s.capacityOperand sr ∧
      execPrepare sr m s = .next (s.raiseStatus .capacityExceedsStorage)) := by
  unfold execPrepare
  rcases resizeStore_cases (n := s.cfg.numCh.toNat)
    (cap := s.capacityOperand sr) (s := s) rfl with
    ⟨h, e⟩ | ⟨-, h, e⟩ | ⟨-, -, h, -⟩ | ⟨h1, h2, -, e⟩
  · exact .inr (.inl ⟨h, by rw [e]⟩)
  · exact .inr (.inr ⟨h, by rw [e]⟩)
  · exact absurd rfl h
  · exact .inl ⟨_, requested_of_capField rfl h1 h2, h1, h2, by rw [e]; rfl⟩

/-- Everything PROCESS can answer (R74 to R77, R45). -/
theorem execProcess_cases (nc ns : Int) (s : State) :
    ((s.capacity = 0 ∨ ns ≤ 0) ∧ execProcess nc ns s = .next s.completeProcess) ∨
    (s.capacity ≠ 0 ∧ 0 < ns ∧ s.blockHolds (processedChannels nc s.cfg.numCh.toNat) ns.toNat = true ∧
      execProcess nc ns s = .next (s.runProcess nc ns (s.inProgress.getD ⟨none, none⟩))) ∨
    (s.capacity ≠ 0 ∧ 0 < ns ∧ s.blockHolds (processedChannels nc s.cfg.numCh.toNat) ns.toNat = false ∧
      execProcess nc ns s = .fault .blockSampleMissing) := by
  unfold execProcess
  split
  · exact .inl ⟨‹_›, rfl⟩
  · rename_i h
    rw [not_or, not_le] at h
    split
    · exact .inr (.inl ⟨h.1, h.2, ‹_›, rfl⟩)
    · exact .inr (.inr ⟨h.1, h.2, by simpa using ‹¬ s.blockHolds _ _ = true›, rfl⟩)

/-- The check of R45 is `State.Supplied`. -/
theorem blockHolds_iff_supplied (s : State) (nc ns : Int) :
    s.blockHolds (processedChannels nc s.cfg.numCh.toNat) ns.toNat = true ↔ s.Supplied nc ns := blockHolds_iff _ _ _

/-- A prepared, nonempty, supplied PROCESS goes on (R74). -/
theorem execProcess_of_supplied {s : State} {nc ns : Int} (h : s.capacity ≠ 0) (hn : 0 < ns) (hs : s.Supplied nc ns) :
    execProcess nc ns s = .next (s.runProcess nc ns (s.inProgress.getD ⟨none, none⟩)) := by
  rw [execProcess, if_neg (by rw [not_or, not_le]; exact ⟨h, hn⟩), if_pos ((blockHolds_iff_supplied s nc ns).2 hs)]

/-- A PROCESS in progress goes one of four ways (R77). -/
theorem runProcess_cases (nc ns : Int) (p : Sampling) (s : State) :
    (∃ q : Sampling, s.nextTurn.completes = false ∧ s.runProcess nc ns p = { s with inProgress := some q }) ∨
    (s.nextTurn.completes = true ∧ s.runProcess nc ns p =
      s.processBody nc ns (p.gain.getD s.paramGain) (p.delay.getD s.paramDelayMs)) := by
  unfold State.runProcess
  cases h : s.nextTurn <;> simp [Turn.completes]

/-- What an instruction's meaning leaves alone of the surroundings: the build, the queues and the schedule. -/
theorem exec_surroundings {i : Instr} {s t : State} (h : exec i s = .next t) :
    t.cfg = s.cfg ∧ t.commandPort = s.commandPort ∧ t.paramPort = s.paramPort ∧ t.microPort = s.microPort ∧
      t.blockAccesses = s.blockAccesses ∧ t.schedule = s.schedule := by
  cases i with
  | prepare sr m =>
    rcases execPrepare_cases sr m s with ⟨n, -, -, -, e⟩ | ⟨-, e⟩ | ⟨-, e⟩ <;>
      · rw [exec, e] at h; cases h; exact ⟨rfl, rfl, rfl, rfl, rfl, rfl⟩
  | release => cases h; exact ⟨rfl, rfl, rfl, rfl, rfl, rfl⟩
  | process nc ns =>
    rcases execProcess_cases nc ns s with ⟨-, e⟩ | ⟨-, -, -, e⟩ | ⟨-, -, -, e⟩
    · rw [exec, e] at h; cases h; exact ⟨rfl, rfl, rfl, rfl, rfl, rfl⟩
    · rw [exec, e] at h
      rcases runProcess_cases nc ns (s.inProgress.getD ⟨none, none⟩) s with ⟨q, -, e'⟩ | ⟨-, e'⟩ <;>
        · rw [e'] at h; cases h; simp
    · rw [exec, e] at h; cases h
  | setgain v => cases h; exact ⟨rfl, rfl, rfl, rfl, rfl, rfl⟩
  | setdelay v => cases h; exact ⟨rfl, rfl, rfl, rfl, rfl, rfl⟩
  | swrite c p v =>
    simp only [exec, execSwrite] at h
    split at h <;> cases h
    exact ⟨rfl, rfl, rfl, rfl, rfl, rfl⟩
  | sread c p =>
    simp only [exec, execSread] at h
    split at h <;> cases h
    exact ⟨rfl, rfl, rfl, rfl, rfl, rfl⟩
  | sresize n cap =>
    simp only [exec, execSresize] at h
    rcases resizeStore_cases (n := n) (cap := cap) (s := s) rfl with ⟨-, e⟩ | ⟨-, -, e⟩ | ⟨-, -, -, e⟩ | ⟨-, -, -, e⟩ <;>
      · rw [e] at h; cases h; try exact ⟨rfl, rfl, rfl, rfl, rfl, rfl⟩

/-! ### A step -/

theorem mapNext_eq_next {f : State → State} {o : Host.Outcome State Fault Refusal} {t : State}
    (h : mapNext f o = .next t) : ∃ u, o = .next u ∧ t = f u := by
  cases o with
  | next u => cases h; exact ⟨u, rfl, rfl⟩
  | fault r => cases h
  | refused r => cases h

/-- Every way a step can answer a next state. -/
inductive StepsTo (s : State) : State → Prop where
  | idle : StepsTo s s.passTurn
  | command {d rest i u} (turn : s.nextTurn.servesCommand = true) (port : s.commandPort = d :: rest)
      (legal : decodeCommand d = .ok i) (run : exec i s = .next u) : StepsTo s u.retireCommand
  | illegalCommand {d rest e} (turn : s.nextTurn.servesCommand = true) (port : s.commandPort = d :: rest)
      (illegal : decodeCommand d = .error e) : StepsTo s (s.raiseStatus .illegalCommand).retireCommand
  | parameter {d rest i u} (turn : s.nextTurn = .parameter) (port : s.paramPort = d :: rest)
      (legal : decodeParameter d = .ok i) (run : exec i s = .next u) : StepsTo s u.retireParameter
  | illegalParameter {d rest e} (turn : s.nextTurn = .parameter) (port : s.paramPort = d :: rest)
      (illegal : decodeParameter d = .error e) : StepsTo s (s.raiseParamStatus .illegalCommand).retireParameter
  | access {a rest} (turn : s.nextTurn = .blockAccess) (queue : s.blockAccesses = a :: rest)
      (owned : s.inProgress = none) : StepsTo s (s.accessBlock a).retireBlockAccess
  | microOp {u rest i v} (turn : s.nextTurn = .store) (port : s.microPort = u :: rest)
      (legal : decodeMicroOp u = .ok i) (run : exec i s = .next v) : StepsTo s v.retireMicroOp

theorem step_of_servesCommand {s : State} (h : s.nextTurn.servesCommand = true) : step s = commandTurn s := by
  unfold step takeTurn
  cases hn : s.nextTurn <;> simp_all [Turn.servesCommand]

theorem commandTurn_cases {s t : State} (turn : s.nextTurn.servesCommand = true) (h : commandTurn s = .next t) :
    StepsTo s t := by
  unfold commandTurn at h
  split at h
  · cases h; exact .idle
  · split at h
    · obtain ⟨u, e, rfl⟩ := mapNext_eq_next h
      exact .command turn ‹_› ‹_› e
    · cases h; exact .illegalCommand turn ‹_› ‹_›

theorem parameterTurn_cases {s t : State} (turn : s.nextTurn = .parameter) (h : parameterTurn s = .next t) :
    StepsTo s t := by
  unfold parameterTurn at h
  split at h
  · cases h; exact .idle
  · split at h
    · obtain ⟨u, e, rfl⟩ := mapNext_eq_next h
      exact .parameter turn ‹_› ‹_› e
    · cases h; exact .illegalParameter turn ‹_› ‹_›

theorem blockAccessTurn_cases {s t : State} (turn : s.nextTurn = .blockAccess) (h : blockAccessTurn s = .next t) :
    StepsTo s t := by
  unfold blockAccessTurn at h
  split at h
  · cases h; exact .idle
  · split at h
    · cases h
    · cases h; exact .access turn ‹_› (by simpa using ‹¬ s.inProgress.isSome = true›)

theorem storeTurn_cases {s t : State} (turn : s.nextTurn = .store) (h : storeTurn s = .next t) : StepsTo s t := by
  unfold storeTurn at h
  split at h
  · cases h; exact .idle
  · split at h
    · obtain ⟨u, e, rfl⟩ := mapNext_eq_next h
      exact .microOp turn ‹_› ‹_› e
    · cases h

/-- The inversion lemma of a step. -/
theorem step_cases {s t : State} (h : step s = .next t) : StepsTo s t := by
  unfold step takeTurn at h
  split at h
  · exact commandTurn_cases (by simp [*, Turn.servesCommand]) h
  · exact commandTurn_cases (by simp [*, Turn.servesCommand]) h
  · exact commandTurn_cases (by simp [*, Turn.servesCommand]) h
  · exact commandTurn_cases (by simp [*, Turn.servesCommand]) h
  · exact parameterTurn_cases ‹_› h
  · exact blockAccessTurn_cases ‹_› h
  · exact storeTurn_cases ‹_› h

/-- What each port's decoder can answer. -/
theorem decodeCommand_port {d : Descriptor} {i : Instr} (h : decodeCommand d = .ok i) : i.port = .command := by
  unfold decodeCommand at h
  repeat' split at h
  all_goals cases h
  all_goals rfl

theorem decodeParameter_port {d : Descriptor} {i : Instr} (h : decodeParameter d = .ok i) : i.port = .parameter := by
  unfold decodeParameter at h
  repeat' split at h
  all_goals cases h
  all_goals rfl

theorem decodeMicroOp_port {d : Descriptor} {i : Instr} (h : decodeMicroOp d = .ok i) : i.port = .store := by
  unfold decodeMicroOp at h
  repeat' split at h
  all_goals cases h
  all_goals rfl

end Sys2Proof.Machine
end

