-- ==== Sys2Proof/Tests/Slice0.lean ====
section
/-! SUPPORT. Tests: the checks of WellFormed refused one by one, words written out from the encodings of the spec, one step of
each instruction on a small state, and for each statement with hypotheses a state that meets them. Expected values are the
spec's (95_test_vectors.md, or the worked examples of the rules); each test says which. -/

open Sys2Proof Sys2Proof.Machine

namespace Sys2Proof.Tests

/-! ### Helpers -/

/-- The build of program P2 of 95_test_vectors.md. -/
def build : Config where
  numCh             := 1
  capMax            := 100000
  maxDelaySeconds   := 0x4000000000000000
  paramGainReset    := 0x3F000000
  paramDelayReset   := 0x43FA0000
  sampleRateAtReset := 0
  maxBlockAtReset   := 0

/-- 1.0, 2.0, 3.0 in block memory, channel 0. -/
def threeSamples : Memory := [(⟨0, 0⟩, 0x3F800000), (⟨0, 1⟩, 0x40000000), (⟨0, 2⟩, 0x40400000)]

/-- Prepared with CAPACITY 8 at 4.0 Hz, a block of three samples supplied (the worked example of R74: gain 0.5, 500 ms). -/
def prepared : State :=
  { State.resetOf build with
    capacity := 8, sampleRate := 0x4010000000000000, maxBlock := 3, block := threeSamples }

/-- The descriptor of `process 1, 3`. -/
def processOneThree : Descriptor := 0x00000000000000030000000100000003

/-- `prepared`, with `process 1, 3` waiting at the command port and `setgain 0.25` and `setdelay 0.0` at the parameter port. -/
def waiting : State :=
  { prepared with
    commandPort := [processOneThree],
    paramPort := [0x00000000000000003E80000000000010, 0x00000000000000000000000000000011] }

/-- A value of the next state, if there is one. -/
def after {α : Type} (o : Host.Outcome State Fault Refusal) (f : State → α) : Option α :=
  match o with
  | .next s => some (f s)
  | .fault _ => none
  | .refused _ => none

/-- The fault of an outcome, if it is one. -/
def faultOf (o : Host.Outcome State Fault Refusal) : Option Fault :=
  match o with
  | .next _ => none
  | .fault r => some r
  | .refused _ => none

/-! ### WellFormed: an ill-formed term for each check -/

theorem test_illformed_prepare_maxBlock : (Instr.prepare 0 2147483648).wellFormed = false := by decide
theorem test_illformed_process_channels : (Instr.process (-2147483649) 0).wellFormed = false := by decide
theorem test_illformed_process_samples : (Instr.process 0 2147483648).wellFormed = false := by decide
theorem test_illformed_swrite_channel : (Instr.swrite 65536 0 0).wellFormed = false := by decide
theorem test_illformed_swrite_position : (Instr.swrite 0 549755813888 0).wellFormed = false := by decide
theorem test_illformed_sread_channel : (Instr.sread 65536 0).wellFormed = false := by decide
theorem test_illformed_sread_position : (Instr.sread 0 (-549755813889)).wellFormed = false := by decide
theorem test_illformed_sresize_channels : (Instr.sresize 65536 1).wellFormed = false := by decide
theorem test_illformed_sresize_capacity : (Instr.sresize 1 549755813888).wellFormed = false := by decide

/-! ### Decoding: words of 30_encoding.md section 7 and 95_test_vectors.md -/

/-- `prepare 48000.0, 480`. -/
theorem test_decode_prepare :
    decode .command 0x000001E040E770000000000000000001 = .ok (.prepare 0x40E7700000000000 480) := by decide
/-- `release`. -/
theorem test_decode_release : decode .command 0x00000000000000000000000000000002 = .ok .release := by decide
/-- `process 2, 480`. -/
theorem test_decode_process : decode .command 0x00000000000001E00000000200000003 = .ok (.process 2 480) := by decide
/-- L2.7 row 11: `process -2147483648, 2147483647`, the ends of int32. -/
theorem test_decode_process_ends :
    decode .command 0x000000007FFFFFFF8000000000000003 = .ok (.process (-2147483648) 2147483647) := by decide
/-- `setgain 0.99`. -/
theorem test_decode_setgain : decode .parameter 0x00000000000000003F7D70A400000010 = .ok (.setgain 0x3F7D70A4) := by decide
/-- `setdelay 6000.0`. -/
theorem test_decode_setdelay : decode .parameter 0x000000000000000045BB800000000011 = .ok (.setdelay 0x45BB8000) := by
  decide
/-- L2.2: SWRITE(0, -1, 0x7FC00001). -/
theorem test_decode_swrite :
    decode .store 0x000000007FC00001FFFFFFFFFF000001 = .ok (.swrite 0 (-1) 0x7FC00001) := by decide
/-- L2.2: SREAD(0, -2). -/
theorem test_decode_sread : decode .store 0x0000000000000000FFFFFFFFFE000002 = .ok (.sread 0 (-2)) := by decide
/-- L2.2: SRESIZE(2, 96000). -/
theorem test_decode_sresize : decode .store 0x00000000000000000000017700000203 = .ok (.sresize 2 96000) := by decide
/-- P2: an unknown OPC, SETGAIN on the command port, RELEASE with W1, PROCESS with W3. -/
theorem test_decode_command_illegal :
    decode .command 0x00000000000000000000000000000004 = .error .unknownOpcode ∧
    decode .command 0x00000000000000003F00000000000010 = .error .wrongPort ∧
    decode .command 0x00000000000000000000000100000002 = .error .reservedOperand ∧
    decode .command 0x00000005000000020000000100000003 = .error .reservedOperand := by decide
/-- P2: SETGAIN with W2, PREPARE on the parameter port. -/
theorem test_decode_parameter_illegal :
    decode .parameter 0x00000000000000013F80000000000010 = .error .reservedOperand ∧
    decode .parameter 0x00000000000000000000000000000001 = .error .wrongPort := by decide
/-- R63: UOP 00, a reserved bit, DATA on SREAD. -/
theorem test_decode_store_illegal :
    decode .store 0 = .error .unknownMicroOp ∧ decode .store 0x5 = .error .reservedMicroField ∧
    decode .store 0x00000000000000010000000000000002 = .error .reservedMicroField := by decide
/-- R37: byte 0 of a descriptor is W0[7:0]; one byte short is no descriptor. -/
theorem test_decode_bytes :
    (match decodeBytes .command ([3, 0, 0, 0, 2, 0, 0, 0, 0xE0, 1, 0, 0, 0, 0, 0, 0] ++ [7]) with
      | .ok r => some r
      | .error _ => none) = some (.process 2 480, [7]) ∧
    (match decodeBytes .command [3, 0, 0, 0, 2, 0, 0, 0, 0xE0, 1, 0, 0, 0, 0, 0] with
      | .ok _ => none
      | .error e => some e) = some .truncated := by decide
/-- The words of the opcode table with zero operands. -/
theorem test_table_words :
    decodeTableWord 128 1 = some (.prepare 0 0) ∧ decodeTableWord 128 2 = some .release ∧
    decodeTableWord 128 3 = some (.process 0 0) ∧ decodeTableWord 128 0x10 = some (.setgain 0) ∧
    decodeTableWord 128 0x11 = some (.setdelay 0) ∧ decodeTableWord 128 0x103 = some (.sresize 1 0) ∧
    decodeTableWord 128 0x101 = some (.swrite 1 0 0) ∧ decodeTableWord 128 0x102 = some (.sread 1 0) := by decide
/-- 30_encoding.md section 7, from the assembly text. -/
theorem test_assembly :
    assembleDescriptor "prepare 48000.0, 480 ; rate, block".toList = some (.command, 0x000001E040E770000000000000000001) ∧
    assembleDescriptor "  process 2, 480".toList = some (.command, 0x00000000000001E00000000200000003) ∧
    assembleDescriptor "setgain 0.99".toList = some (.parameter, 0x00000000000000003F7D70A400000010) ∧
    assembleDescriptor "setdelay -inf".toList = some (.parameter, 0x0000000000000000FF80000000000011) ∧
    assembleDescriptor "prepare f64:0x40E5888666666666, -3".toList =
      some (.command, 0xFFFFFFFD40E588866666666600000001) ∧
    assembleLine "process 1, 2147483648".toList = .error ∧ assembleLine "sread 0, 1".toList = .error ∧
    assembleLine "; only a comment".toList = .empty := by decide +kernel

/-! ### One step of each instruction -/

/-- L2.4 row 3: 44100.2 Hz asks for ceil(88200.4) = 88201. -/
theorem test_prepare_ceil :
    after (exec (.prepare 0x40E5888666666666 (-1)) prepared) (fun s => (s.capacity, s.maxBlock, s.writeCursor, s.readStatus)) =
      some (88201, 0xFFFFFFFF, 0, 0) := by decide +kernel
/-- L2.4 rows 7 and 12: 0.0 is InvalidCapacity and +inf CapacityExceedsStorage; the old session stays. -/
theorem test_prepare_fails :
    after (exec (.prepare 0 3) prepared) (fun s => (s.capacity, s.readStatus)) = some (8, 1) ∧
    after (exec (.prepare 0x7FF0000000000000 3) prepared) (fun s => (s.capacity, s.readStatus)) = some (8, 2) := by
  decide +kernel
/-- R97: the worked example. -/
theorem test_release :
    after (exec .release { prepared with writeCursor := 5, store := [(⟨0, 0⟩, 1)] })
      (fun s => (s.capacity, s.writeCursor, s.store, s.sampleRate)) = some (0, 0, [], 0x4010000000000000) := by decide
/-- R74: the worked example; D = 2, and sample 2 echoes sample 0. -/
theorem test_process_worked_example :
    after (exec (.process 1 3) prepared) (fun s => (s.block, s.store, s.writeCursor, s.readStatus)) =
      some ([(⟨0, 0⟩, 0x3F800000), (⟨0, 1⟩, 0x40000000), (⟨0, 2⟩, 0x40600000)], threeSamples, 3, 0) := by decide +kernel
/-- P1, block 3: the cursor and the writes wrap (cells 1, 2, 3 after cursor 1; cell 7 is read). -/
theorem test_process_wraps :
    after (exec (.process 1 3)
        { prepared with writeCursor := 6, store := [(⟨0, 4⟩, 0x40A00000), (⟨0, 5⟩, 0x40C00000)],
                        block := [(⟨0, 0⟩, 0x40E00000), (⟨0, 1⟩, 0x41000000), (⟨0, 2⟩, 0x41100000)] })
      (fun s => (s.block, s.storeRead 0 8, s.writeCursor)) =
      some ([(⟨0, 0⟩, 0x41180000), (⟨0, 1⟩, 0x41300000), (⟨0, 2⟩, 0x41480000)], 0x41100000, 1) := by decide +kernel
/-- R98: a NaN gain is stored as it is. -/
theorem test_setgain :
    after (exec (.setgain 0x7FC00001) prepared) (fun s => (s.paramGain, s.paramDelayMs, s.readPstatus)) =
      some (0x7FC00001, 0x43FA0000, 0) := by decide
/-- R99. -/
theorem test_setdelay :
    after (exec (.setdelay 0xC0A00000) { prepared with pstatus := .illegalCommand })
      (fun s => (s.paramGain, s.paramDelayMs, s.readPstatus)) = some (0x3F000000, 0xC0A00000, 0) := by decide
/-- L2.2: SWRITE(0, 11, 1.0) with CAPACITY 8 sets cell 3; SWRITE of -0.0 keeps the pattern. -/
theorem test_swrite :
    after (exec (.swrite 0 11 0x3F800000) prepared) State.store = some [(⟨0, 3⟩, 0x3F800000)] ∧
    after (exec (.swrite 0 3 0x80000000) prepared) State.store = some [(⟨0, 3⟩, 0x80000000)] := by decide
/-- Writing +0.0 takes the entry away, so that equal memories are equal lists. -/
theorem test_swrite_zero :
    after (exec (.swrite 0 (-5) 0) { prepared with store := [(⟨0, 3⟩, 7)] }) State.store = some [] := by decide
/-- L2.2: SREAD(0, -2) with 2.0 in cell 6; an unwritten cell reads +0.0. -/
theorem test_sread :
    after (exec (.sread 0 (-2)) { prepared with store := [(⟨0, 6⟩, 0x40000000)] }) State.storeReply =
      some (.value 0x40000000) ∧
    after (exec (.sread 0 5) prepared) State.storeReply = some (.value 0) := by decide
/-- L2.2: SRESIZE(1, 8) again clears the cells and the cursor; SRESIZE(1, 100001) returns 2. -/
theorem test_sresize :
    after (exec (.sresize 1 8) { prepared with writeCursor := 5, store := [(⟨0, 3⟩, 7)] })
      (fun s => (s.capacity, s.writeCursor, s.store, s.storeReply)) = some (8, 0, [], .code .ok) ∧
    after (exec (.sresize 1 100001) prepared) (fun s => (s.capacity, s.storeReply)) =
      some (8, .code .capacityExceedsStorage) := by decide
/-- `prepare 4.0, 3` and `setdelay 0.0` run as the first step after reset (L2.4 row 4; R99). -/
theorem test_step_after_reset :
    after (step (State.reset.withFetchWord 128 0x00000003401000000000000000000001)) (fun s => (s.capacity, s.maxBlock)) =
      some (8, 3) ∧
    after (step (State.reset.withFetchWord 128 0x11)) State.paramDelayMs = some 0 := by decide +kernel
/-- R46: the host reads block memory while a PROCESS is in progress. -/
theorem test_block_access_in_progress :
    faultOf (step { prepared with inProgress := some ⟨none, none⟩, blockAccesses := [.read ⟨0, 0⟩] }) =
      some .blockAccessDuringProcess := by decide

/-! ### Witnesses: the hypotheses of each statement can be met, at the boundaries where there are clauses -/

theorem buildIsLegal : LegalBuild build := ⟨by decide, by decide, by decide⟩

/-- `prepared` and every state that differs from it in the fields the invariant does not mention meets the invariant. -/
theorem preparedInv : prepared.Inv where
  build := buildIsLegal
  session := .inr ⟨by decide, by decide, by decide, fun _ h => absurd h (by simp [prepared, State.resetOf]), by decide⟩
  memory := ⟨by decide, by decide⟩
  pstatus := .inl rfl
  process := fun h => absurd rfl h
  noMicroOp := rfl

theorem preparedSupplied : prepared.Supplied 1 3 := by unfold State.Supplied; decide
theorem waitingSupplied : waiting.Supplied 1 3 := by unfold State.Supplied; decide
theorem waitingInv : waiting.Inv := ⟨preparedInv.build,
  .inr ⟨by decide, by decide, by decide, fun _ h => absurd h (by simp [waiting, prepared, State.resetOf]), by decide⟩,
  ⟨by decide, by decide⟩, .inl rfl, fun h => absurd rfl h, rfl⟩

theorem test_witness_DecodeOfEncodeIsTheInstruction :
    (Instr.swrite 65535 (-549755813888) 1).wellFormed = true ∧ (Instr.process 2147483647 (-2147483648)).wellFormed = true := by
  decide
theorem test_witness_EncodeOfDecodeIsTheDescriptor : decode .command processOneThree = .ok (.process 1 3) := by decide
theorem test_witness_CommandPortDecodesAsStated :
    (bitsOf 1 31 8 = 0 ∧ bitsOf 1 7 0 = 0x01) ∧ (bitsOf 2 31 8 = 0 ∧ bitsOf 2 7 0 = 0x02 ∧ bitsOf 2 127 32 = 0) ∧
    (bitsOf processOneThree 31 8 = 0 ∧ bitsOf processOneThree 7 0 = 0x03 ∧ bitsOf processOneThree 127 96 = 0) ∧
    IllegalOnCommandPort 0x100 := by unfold IllegalOnCommandPort; decide
theorem test_witness_ParameterPortDecodesAsStated :
    (bitsOf 0xFFFFFFFF00000010 31 8 = 0 ∧ bitsOf 0xFFFFFFFF00000010 127 64 = 0 ∧ bitsOf 0xFFFFFFFF00000010 7 0 = 0x10) ∧
    (bitsOf 0x11 31 8 = 0 ∧ bitsOf 0x11 127 64 = 0 ∧ bitsOf 0x11 7 0 = 0x11) ∧
    IllegalOnParameterPort 0x00000000000000010000000000000010 := by unfold IllegalOnParameterPort; decide
theorem test_witness_MicroOperationDecodesAsStated :
    (¬ IllegalMicroOp 0x0000000000000000FFFFFFFFFF000001 ∧ bitsOf 0x0000000000000000FFFFFFFFFF000001 1 0 = 1) ∧
    (¬ IllegalMicroOp 2 ∧ bitsOf 2 1 0 = 2) ∧ (¬ IllegalMicroOp 0x103 ∧ bitsOf 0x103 1 0 = 3) ∧ IllegalMicroOp 0 := by
  unfold IllegalMicroOp; decide
theorem test_witness_AssemblyGivesPortInstructions :
    assembleLine ['r', 'e', 'l', 'e', 'a', 's', 'e'] = .instr .release := by decide

/-- The store interface driven from outside: SREAD(0, 0) at its head. -/
def storeDriven : State := { prepared with schedule := [.store], microPort := [2] }

theorem test_witness_StepRunsTheDecodedInstruction :
    (waiting.nextTurn.servesCommand = true ∧ waiting.commandPort = processOneThree :: [] ∧
      decode .command processOneThree = .ok (.process 1 3)) ∧
    ({ waiting with schedule := [.parameter] }.nextTurn = .parameter ∧
      decode .parameter 0x00000000000000003E80000000000010 = .ok (.setgain 0x3E800000)) ∧
    (storeDriven.nextTurn = .store ∧ storeDriven.microPort = 2 :: [] ∧ decode .store 2 = .ok (.sread 0 0)) ∧
    waiting.inProgress = none ∧ { waiting with inProgress := some ⟨none, none⟩ }.inProgress ≠ none := by decide
theorem test_witness_FetchWordRunsItsInstruction : decodeTableWord 128 3 = some (.process 0 0) := by decide
theorem test_witness_IllegalDescriptorsChangeOnlyTheirStatus :
    let s : State := { prepared with commandPort := [4] }
    let u : State := { prepared with paramPort := [1], inProgress := some ⟨none, none⟩ }
    (s.nextTurn.servesCommand = true ∧ s.inProgress = none ∧ s.commandPort = 4 :: [] ∧ IllegalOnCommandPort 4) ∧
    (u.nextTurn = .parameter ∧ u.paramPort = 1 :: [] ∧ IllegalOnParameterPort 1) := by
  unfold IllegalOnCommandPort IllegalOnParameterPort; decide
theorem test_witness_IllegalMicroOperationFaults :
    let s : State := { prepared with microPort := [4] }
    s.nextTurn = .store ∧ s.microPort = 4 :: [] ∧ IllegalMicroOp 4 := by unfold IllegalMicroOp; decide
theorem test_witness_ResetMeetsTheInvariant : LegalBuild build := buildIsLegal
theorem test_witness_EveryStepKeepsTheInvariant : waiting.Inv ∧ ∃ t, step waiting = .next t := ⟨waitingInv, _, rfl⟩
theorem test_witness_EveryStepKeepsMemoryCanonical : waiting.MemoryOk ∧ ∃ t, step waiting = .next t :=
  ⟨waitingInv.memory, _, rfl⟩
theorem test_witness_OnlyBrokenHostDutiesStop :
    waiting.Inv ∧ ({ waiting with block := [] } : State).Inv ∧
      step { waiting with block := [] } = .fault .blockSampleMissing :=
  ⟨waitingInv, ⟨waitingInv.build, .inr ⟨by decide, by decide, by decide,
    fun _ h => absurd h (by simp [waiting, prepared, State.resetOf]), by decide⟩, ⟨by decide, by decide⟩, .inl rfl,
    fun h => absurd rfl h, rfl⟩, rfl⟩
theorem test_witness_StepsGoOnWhileDutiesAreKept : waiting.Inv ∧ waiting.HostDuties :=
  ⟨waitingInv, fun h => absurd h (by decide), fun _ _ d rest nc ns h hd => by
    cases h
    have : decodeCommand processOneThree = .ok (.process 1 3) := by decide
    rw [this] at hd; cases hd; exact waitingSupplied⟩
/-- No block at all: an unprepared PROCESS, and a PROCESS that waits while another agent has the turn. -/
theorem test_witness_StepsGoOnWhileDutiesAreKept_noBlock :
    let unprepared : State := { State.resetOf build with commandPort := [processOneThree] }
    let early : State := { waiting with block := [], schedule := [.blockAccess], blockAccesses := [.write ⟨0, 0⟩ 1] }
    (unprepared.Inv ∧ unprepared.HostDuties) ∧ early.Inv ∧ early.HostDuties :=
  ⟨⟨⟨buildIsLegal, .inl ⟨rfl, rfl, rfl⟩, ⟨by decide, by decide⟩, .inl rfl, fun h => absurd rfl h, rfl⟩,
      fun h => absurd h (by decide), fun _ h => absurd rfl h⟩,
    ⟨waitingInv.build, .inr ⟨by decide, by decide, by decide, fun _ h => absurd h (by simp [waiting, prepared, State.resetOf]),
      by decide⟩, ⟨by decide, by decide⟩, .inl rfl, fun h => absurd rfl h, rfl⟩,
    fun _ _ => rfl, fun h => absurd h (by decide)⟩
theorem test_witness_StepsNeverChangeTheBuild : ∃ t, step waiting = .next t := ⟨_, rfl⟩
theorem test_witness_WraparoundIsEuclidean : 0 < 1 ∧ physicalPosition (-7) 1 = 0 ∧ physicalPosition (-2) 8 = 6 := by decide
theorem test_witness_SwriteWritesOneCell :
    prepared.capacity ≠ 0 ∧ 0 < prepared.cfg.numCh.toNat ∧ (⟨0, 4⟩ : CellAddr) ≠ ⟨0, physicalPosition 11 8⟩ := by decide
/-- A cell that is listed, and one that is not. -/
theorem test_witness_SreadReturnsTheCell :
    let s : State := { prepared with store := [(⟨0, 6⟩, 0x40000000)] }
    s.capacity ≠ 0 ∧ 0 < s.cfg.numCh.toNat ∧ s.store.listed ⟨0, physicalPosition (-2) 8⟩ = some 0x40000000 ∧
      s.store.listed ⟨0, physicalPosition 5 8⟩ = none := by decide
theorem test_witness_StoreAccessOutsideItsPreconditionFaults :
    (State.resetOf build).capacity = 0 ∧ prepared.capacity ≠ 0 ∧ prepared.cfg.numCh.toNat ≤ 1 := by decide
theorem test_witness_SresizeAsStated :
    ((0 : Int) ≤ 0) ∧ (0 < (100001 : Int) ∧ (prepared.cfg.capMax.toNat : Int) < 100001) ∧
    ((0 : Int) < 100000 ∧ (100000 : Int) ≤ prepared.cfg.capMax.toNat ∧ 2 ≠ prepared.cfg.numCh.toNat) ∧
    ((0 : Int) < 1 ∧ (1 : Int) ≤ prepared.cfg.capMax.toNat ∧ 1 = prepared.cfg.numCh.toNat) := by decide
/-- The ends of the range: 0.2 Hz asks for 1 sample, 50000.0 Hz for exactly CAP_MAX. -/
theorem test_witness_PrepareStartsASession :
    requestedCapacity build.maxDelaySeconds 0x3FC999999999999A = some (.int 1) ∧ (1 : Int) ≤ build.capMax.toNat ∧
    requestedCapacity build.maxDelaySeconds 0x40E86A0000000000 = some (.int 100000) ∧
    (100000 : Int) ≤ build.capMax.toNat := by decide +kernel
/-- Each way to fail: NaN, -inf, 0.0, +inf, and one sample more than CAP_MAX. -/
theorem test_witness_FailedPrepareChangesOnlyStatus :
    requestedCapacity build.maxDelaySeconds 0x7FF8000000000000 = none ∧
    requestedCapacity build.maxDelaySeconds 0xFFF0000000000000 = some .negInf ∧
    requestedCapacity build.maxDelaySeconds 0 = some (.int 0) ∧
    requestedCapacity build.maxDelaySeconds 0x7FF0000000000000 = some .posInf ∧
    requestedCapacity build.maxDelaySeconds 0x40E86A1000000000 = some (.int 100001) := by decide +kernel
theorem test_witness_PrepareForgetsTheOldSession :
    let u : State := { prepared with store := [(⟨0, 1⟩, 5)], writeCursor := 7, block := [(⟨0, 0⟩, 1)], draws := 3 }
    requestedCapacity prepared.cfg.maxDelaySeconds 0x4010000000000000 = some (.int 8) ∧ (1 : Int) ≤ 8 ∧
    (8 : Int) ≤ prepared.cfg.capMax.toNat ∧ u.cfg = prepared.cfg := ⟨by decide, by decide, by decide, rfl⟩
theorem test_witness_PrepareStartsAnEmptyHistory :
    requestedCapacity prepared.cfg.maxDelaySeconds 0x4010000000000000 = some (.int 8) ∧ (1 : Int) ≤ 8 ∧
    (8 : Int) ≤ prepared.cfg.capMax.toNat := by decide
theorem test_witness_ParameterPortNeverWaits :
    let s : State := { waiting with schedule := [.parameter], inProgress := some ⟨none, none⟩ }
    s.nextTurn = .parameter ∧ s.paramPort ≠ [] := by decide
theorem test_witness_OnlyTheParameterPortChangesParameters :
    after (step { waiting with schedule := [.parameter] }) (fun t => decide (t.paramGain ≠ waiting.paramGain)) = some true := by
  decide
theorem test_witness_RegisterWritersAsStated :
    after (exec (.prepare 0x3FC999999999999A 4) { prepared with writeCursor := 1, status := .illegalCommand }) (fun t =>
      decide (t.capacity ≠ 8 ∧ t.writeCursor ≠ 1 ∧ t.sampleRate ≠ 0x4010000000000000 ∧ t.maxBlock ≠ 3 ∧
        t.status ≠ .illegalCommand)) = some true ∧
    after (exec (.setgain 1) { prepared with pstatus := .illegalCommand }) (fun t =>
      decide (t.paramGain ≠ 0x3F000000 ∧ t.pstatus ≠ .illegalCommand)) = some true ∧
    after (exec (.setdelay 1) prepared) (fun t => decide (t.paramDelayMs ≠ 0x43FA0000)) = some true ∧
    after (exec (.process 1 3) prepared) (fun t => decide (t.block ≠ threeSamples)) = some true := by decide +kernel
theorem test_witness_ProcessOfNothingIsANoOp :
    ((State.resetOf build).inProgress = none ∧ (State.resetOf build).capacity = 0) ∧ prepared.inProgress = none ∧
      (0 : Int) ≤ 0 := by decide
theorem test_witness_ProcessIsStuckWithoutItsSamples :
    prepared.capacity ≠ 0 ∧ (0 : Int) < 4 ∧ ¬ prepared.Supplied 1 4 := by unfold State.Supplied; decide
theorem test_witness_ProcessReadStepsAsStated :
    let start : State := { prepared with schedule := [.commandStart] }
    let gain : State := { prepared with schedule := [.commandReadGain], inProgress := some ⟨none, some 1⟩ }
    let delay : State := { prepared with schedule := [.commandReadDelay], inProgress := some ⟨some 1, none⟩ }
    (start.capacity ≠ 0 ∧ (0 : Int) < 3 ∧ start.Supplied 1 3 ∧ start.inProgress = none ∧ start.nextTurn = .commandStart) ∧
    (gain.Supplied 1 3 ∧ gain.inProgress = some ⟨none, some 1⟩ ∧ gain.nextTurn = .commandReadGain) ∧
    (delay.Supplied 1 3 ∧ delay.inProgress = some ⟨some 1, none⟩ ∧ delay.nextTurn = .commandReadDelay) ∧
    ({ gain with inProgress := some ⟨some 1, none⟩ }.nextTurn = .commandReadGain) ∧
    { delay with inProgress := some ⟨none, some 1⟩ }.nextTurn = .commandReadDelay := by unfold State.Supplied; decide
theorem test_witness_ProcessDoesTheBlock :
    prepared.capacity ≠ 0 ∧ (0 : Int) < 3 ∧ prepared.Supplied 1 3 ∧ prepared.nextTurn.completes = true := by
  unfold State.Supplied; decide
theorem test_witness_ReadOrderIsUnobservableAlone :
    waiting.schedule = [] ∧ waiting.inProgress = none ∧ waiting.commandPort = processOneThree :: [] ∧
    decode .command processOneThree = .ok (.process 1 3) ∧ waiting.capacity ≠ 0 ∧ (0 : Int) < 3 ∧ waiting.Supplied 1 3 := by
  unfold State.Supplied; decide
/-- `waiting` has a SETGAIN at the head of the parameter port; the other state has a SETDELAY there. -/
theorem test_witness_ParameterWritesAreSeenFromTheReadStepOn :
    let u : State := { waiting with paramPort := [0x00000000000000000000000000000011] }
    (waiting.schedule = [] ∧ waiting.inProgress = none ∧ waiting.commandPort = processOneThree :: [] ∧
      decode .command processOneThree = .ok (.process 1 3) ∧ waiting.capacity ≠ 0 ∧ (0 : Int) < 3 ∧ waiting.Supplied 1 3 ∧
      waiting.paramPort = 0x00000000000000003E80000000000010 :: [0x00000000000000000000000000000011] ∧
      decode .parameter 0x00000000000000003E80000000000010 = .ok (.setgain 0x3E800000)) ∧
    (u.schedule = [] ∧ u.inProgress = none ∧ u.commandPort = processOneThree :: [] ∧ u.capacity ≠ 0 ∧ u.Supplied 1 3 ∧
      u.paramPort = 0x00000000000000000000000000000011 :: [] ∧
      decode .parameter 0x00000000000000000000000000000011 = .ok (.setdelay 0)) := by unfold State.Supplied; decide
theorem test_witness_OneBlockMayMixOldGainAndNewDelay :
    waiting.schedule = [] ∧ waiting.inProgress = none ∧ waiting.commandPort = processOneThree :: [] ∧
    decode .command processOneThree = .ok (.process 1 3) ∧ waiting.capacity ≠ 0 ∧ (0 : Int) < 3 ∧ waiting.Supplied 1 3 ∧
    waiting.paramPort = 0x00000000000000003E80000000000010 :: 0x00000000000000000000000000000011 :: [] ∧
    decode .parameter 0x00000000000000003E80000000000010 = .ok (.setgain 0x3E800000) ∧
    decode .parameter 0x00000000000000000000000000000011 = .ok (.setdelay 0) := by unfold State.Supplied; decide
theorem test_witness_StoreHoldsDryHistoryOnly : ∃ t, exec (.process 1 3) prepared = .next t := ⟨_, rfl⟩
/-- Two channels; the states differ in channel 1 only, in STORE and in block memory. -/
theorem test_witness_ChannelsAreIndependent :
    let s : State := { prepared with
      cfg := { build with numCh := 2 }, block := threeSamples ++ [(⟨1, 0⟩, 7), (⟨1, 1⟩, 8), (⟨1, 2⟩, 9)] }
    let u : State := { s with
      store := [(⟨1, 0⟩, 5)], block := threeSamples ++ [(⟨1, 0⟩, 1), (⟨1, 1⟩, 1), (⟨1, 2⟩, 1)] }
    s.capacity ≠ 0 ∧ (0 : Int) < 3 ∧ s.Supplied 2 3 ∧ u.Supplied 2 3 ∧ s.nextTurn.completes = true ∧
      u = { s with store := u.store, block := u.block } ∧ (∀ i, u.ioRead 0 i = s.ioRead 0 i) ∧
      ∀ p, u.storeRead 0 p = s.storeRead 0 p := by
  refine ⟨by decide, by decide, by unfold State.Supplied; decide, by unfold State.Supplied; decide, by decide, rfl,
    fun i => ?_, fun p => ?_⟩
  · by_cases h : i < 3
    · have : i = 0 ∨ i = 1 ∨ i = 2 := by omega
      rcases this with rfl | rfl | rfl <;> rfl
    · simp [State.ioRead, Memory.read, Memory.listed, threeSamples, unlistedBlock, show ¬ 0 = i by omega,
        show ¬ 1 = i by omega, show ¬ 2 = i by omega]
  · simp [State.storeRead, State.storeCell, Memory.read, Memory.listed, prepared, State.resetOf]
/-- A fresh session (b = 0) and the block [1.0, 2.0, 3.0] as its history. -/
theorem test_witness_BlockFollowsTheClosedForm :
    prepared.capacity ≠ 0 ∧ (0 : Int) < 3 ∧ prepared.Supplied 1 3 ∧ prepared.nextTurn.completes = true ∧
    0 < processedChannels 1 prepared.cfg.numCh.toNat ∧ HistoryHolds prepared 0 (prepared.ioRead 0) 0 ∧
    ∀ i < (3 : Int).toNat, prepared.ioRead 0 i = prepared.ioRead 0 (0 + i) :=
  ⟨by decide, by decide, preparedSupplied, by decide, by decide,
    ⟨by decide, fun p _ h => by rw [if_pos (by simpa using h)]; rfl⟩, fun i _ => by rw [Nat.zero_add]⟩
/-- D = 2: sample 2 reads this block, sample 1 reads STORE; 3 + 2 <= 8. -/
theorem test_witness_ShortBlocksGiveASingleEcho :
    prepared.capacity ≠ 0 ∧ (0 : Int) < 3 ∧ prepared.Supplied 1 3 ∧ prepared.nextTurn.completes = true ∧
    0 < processedChannels 1 prepared.cfg.numCh.toNat ∧ 2 < (3 : Int).toNat ∧
    (3 : Int) + prepared.delayOf prepared.sampledDelay ≤ prepared.capacity.toNat ∧
    prepared.delayOf prepared.sampledDelay ≤ 2 ∧ 1 < prepared.delayOf prepared.sampledDelay := by
  unfold State.Supplied; decide +kernel
theorem test_witness_ZeroDelayMixesTheDryInput :
    let s : State := { prepared with paramDelayMs := 0 }
    s.capacity ≠ 0 ∧ (0 : Int) < 3 ∧ s.Supplied 1 3 ∧ s.nextTurn.completes = true ∧ 0 < processedChannels 1 s.cfg.numCh.toNat ∧
    2 < (3 : Int).toNat ∧ s.delayOf s.sampledDelay = 0 ∧ (3 : Int) ≤ s.capacity.toNat ∧
    (f32Mul s.sampledGain (s.ioRead 0 2)).bind (f32Add (s.ioRead 0 2)) = some 0x40900000 := by
  unfold State.Supplied; decide +kernel
theorem test_witness_CursorCountsBlocks :
    prepared.capacity ≠ 0 ∧ (0 : Int) < 3 ∧ prepared.Supplied 1 3 ∧ prepared.nextTurn.completes = true ∧
    prepared.writeCursor = 0 := by unfold State.Supplied; decide
/-- T = 125.0 at 4.0 Hz with CAPACITY 2: n = 1, which is both the lower clause's and the upper clause's boundary; T = -5.0,
+inf, -inf and NaN for the others. -/
theorem test_witness_DelayOffsetIsClamped :
    ((delayExact 0x42FA0000 0x4010000000000000).bind fun x => roundHalfAway (decodeFloat binary64 x.toNat)) =
      some (.int 1) ∧
    ((delayExact 0 0x4010000000000000).bind fun x => roundHalfAway (decodeFloat binary64 x.toNat)) = some (.int 0) ∧
    ((delayExact 0x7F800000 0x4010000000000000).bind fun x => roundHalfAway (decodeFloat binary64 x.toNat)) = some .posInf ∧
    ((delayExact 0xFF800000 0x4010000000000000).bind fun x => roundHalfAway (decodeFloat binary64 x.toNat)) = some .negInf ∧
    delayExact 0x7FC00000 0x4010000000000000 = none := by decide +kernel
theorem test_witness_RoundingIsToNearestEven : (binary32 = binary32 ∨ binary32 = binary64) ∧ 0 < 1 := by decide
/-- -0.0 and -0.0, whose sum is -0; 4.0 and 1000.0. -/
theorem test_witness_ArithmeticIsCorrectlyRounded :
    decodeFloat binary32 (0x80000000 : F32).toNat = .finite true 0 (-149) ∧
    decodeFloat binary64 (0x4010000000000000 : F64).toNat = .finite false (2 ^ 52) (-50) ∧
    decodeFloat binary64 f64Thousand.toNat = .finite false (1000 * 2 ^ 43) (-43) ∧ 1000 * 2 ^ 43 ≠ 0 := by decide
/-- 1.0 in each format, and -inf. -/
theorem test_witness_InfiniteOperandsAsStated :
    (decodeFloat binary32 (0x3F800000 : F32).toNat = .finite false (2 ^ 23) (-23) ∧ 2 ^ 23 ≠ 0) ∧
    (decodeFloat binary64 (0x3FF0000000000000 : F64).toNat = .finite false (2 ^ 52) (-52) ∧ 2 ^ 52 ≠ 0) ∧
    decodeFloat binary32 (0xFF800000 : F32).toNat = .inf true ∧
    decodeFloat binary64 (0xFFF0000000000000 : F64).toNat = .inf true := by decide
/-- The smallest subnormal of each format. -/
theorem test_witness_RoundingKeepsRepresentableValues :
    (1 < 2 ^ (binary32.fracBits + binary32.expBits + 1) ∧ decodeFloat binary32 1 = .finite false 1 (-149)) ∧
    1 < 2 ^ (binary64.fracBits + binary64.expBits + 1) ∧ decodeFloat binary64 1 = .finite false 1 (-1074) := by decide
theorem test_witness_WideningIsExact :
    decodeFloat binary32 (0xFF800000 : F32).toNat = .inf true ∧
    decodeFloat binary32 (0x80000001 : F32).toNat = .finite true 1 (-149) := by decide
theorem test_witness_BlockAccessDuringProcessIsStuck :
    let s : State := { prepared with schedule := [.blockAccess], blockAccesses := [.read ⟨0, 0⟩], inProgress := some ⟨none, none⟩ }
    s.nextTurn = .blockAccess ∧ s.blockAccesses = .read ⟨0, 0⟩ :: [] ∧ s.inProgress ≠ none := by decide
theorem test_witness_BlockAccessBetweenCommands :
    (∀ a : BlockAccess, { prepared with blockAccesses := [a] }.blockAccesses = a :: []) ∧
    { prepared with blockAccesses := [.withdraw ⟨0, 2⟩] }.nextTurn = .blockAccess ∧ prepared.inProgress = none :=
  ⟨fun _ => rfl, by decide, rfl⟩
theorem test_witness_NothingHappensUnasked :
    prepared.commandPort = [] ∧ prepared.paramPort = [] ∧ prepared.blockAccesses = [] ∧ prepared.microPort = [] := by decide

end Sys2Proof.Tests
end

section
/-! Proofs of the family of 00_scope.md: that no step changes the build, and the floating-point arithmetic of R16 and R17.
The lemmas stand first, in the order of the definitions they speak of; the settled obligations follow. -/

namespace Sys2Proof.Machine

/-! ### The build -/

theorem accessBlock_cfg (s : State) (a : BlockAccess) : (s.accessBlock a).cfg = s.cfg := by
  cases a <;> rfl

/-! ### Patterns as a sign and a magnitude -/

/-- The significand that a finite magnitude pattern holds, the hidden bit included. -/
def significandOf (f : FloatFormat) (k : Nat) : Nat :=
  if k / 2 ^ f.fracBits = 0 then k else k % 2 ^ f.fracBits + 2 ^ f.fracBits

/-- The binade of a magnitude pattern: how often its unit in the last place is twice that of a subnormal. -/
def binadeOf (f : FloatFormat) (k : Nat) : Nat := k / 2 ^ f.fracBits - 1

theorem infMagnitude_lt (f : FloatFormat) : infMagnitude f < 2 ^ (f.fracBits + f.expBits) := by
  rw [infMagnitude, pow_add, mul_comm]
  exact Nat.mul_lt_mul_of_pos_left (by have := Nat.two_pow_pos f.expBits; omega) (by positivity)

/-- The fields that `decodeFloat` reads from a pattern put together from its sign and its magnitude. -/
theorem decodeFloat_signed (f : FloatFormat) (neg : Bool) {k : Nat} (h : k < 2 ^ (f.fracBits + f.expBits)) :
    decodeFloat f (signed f neg k) =
      if k / 2 ^ f.fracBits = 2 ^ f.expBits - 1 then (if k % 2 ^ f.fracBits = 0 then .inf neg else .nan)
      else .finite neg (significandOf f k) (minExponent f + binadeOf f k) := by
  have hE : k / 2 ^ f.fracBits < 2 ^ f.expBits := Nat.div_lt_of_lt_mul (by rwa [← pow_add])
  have sign : (signed f neg k).testBit (f.fracBits + f.expBits) = neg := by
    cases neg
    · exact Nat.testBit_lt_two_pow h
    · rw [signed, if_pos rfl, Nat.add_comm, Nat.testBit_two_pow_add_eq, Nat.testBit_lt_two_pow h]; rfl
  have exponent : signed f neg k / 2 ^ f.fracBits % 2 ^ f.expBits = k / 2 ^ f.fracBits := by
    cases neg
    · exact Nat.mod_eq_of_lt hE
    · rw [signed, if_pos rfl, pow_add, Nat.add_mul_div_left _ _ (by positivity), Nat.add_mod_right, Nat.mod_eq_of_lt hE]
  have fraction : signed f neg k % 2 ^ f.fracBits = k % 2 ^ f.fracBits := by
    cases neg
    · rfl
    · rw [signed, if_pos rfl, pow_add, Nat.add_mul_mod_self_left]
  simp only [decodeFloat, sign, exponent, fraction, significandOf, binadeOf]
  split
  · rfl
  · split
    · next zero =>
      rw [zero, Nat.mod_eq_of_lt ((Nat.div_eq_zero_iff_lt (by positivity)).1 zero)]; simp
    · next nonzero =>
      rw [Nat.cast_sub (by omega), Nat.cast_one]

/-- Below the pattern of infinity every magnitude is finite. -/
theorem decodeFloat_signed_finite (f : FloatFormat) (neg : Bool) {k : Nat} (h : k < infMagnitude f) :
    decodeFloat f (signed f neg k) = .finite neg (significandOf f k) (minExponent f + binadeOf f k) := by
  rw [decodeFloat_signed f neg (h.trans (infMagnitude_lt f)), if_neg]
  exact (Nat.div_lt_of_lt_mul (by rwa [mul_comm] : k < 2 ^ f.fracBits * (2 ^ f.expBits - 1))).ne

theorem decodeFloat_signed_inf (f : FloatFormat) (neg : Bool) :
    decodeFloat f (signed f neg (infMagnitude f)) = .inf neg := by
  rw [decodeFloat_signed f neg (infMagnitude_lt f), infMagnitude, if_pos (Nat.mul_div_cancel _ (by positivity)),
    if_pos (Nat.mul_mod_left _ _)]

theorem decodeFloat_signed_nan (f : FloatFormat) (neg : Bool) {k : Nat} (h : infMagnitude f < k)
    (hk : k < 2 ^ (f.fracBits + f.expBits)) : decodeFloat f (signed f neg k) = .nan := by
  have exponent : k / 2 ^ f.fracBits = 2 ^ f.expBits - 1 := by
    have := Nat.div_lt_of_lt_mul (by rwa [← pow_add] : k < 2 ^ f.fracBits * 2 ^ f.expBits)
    have := (Nat.le_div_iff_mul_le (by positivity)).2 h.le
    omega
  rw [decodeFloat_signed f neg hk, if_pos exponent, if_neg]
  intro fraction
  exact h.ne (by rw [infMagnitude, ← exponent, Nat.div_mul_cancel (Nat.dvd_of_mod_eq_zero fraction)])

theorem signed_lt (f : FloatFormat) (neg : Bool) {k : Nat} (h : k < 2 ^ (f.fracBits + f.expBits)) :
    signed f neg k < 2 ^ (f.fracBits + f.expBits + 1) := by
  rw [signed, pow_succ]
  split <;> omega

/-- Every pattern of a format is a sign and a magnitude. -/
theorem exists_signed (f : FloatFormat) {bits : Nat} (h : bits < 2 ^ (f.fracBits + f.expBits + 1)) :
    ∃ neg, ∃ k < 2 ^ (f.fracBits + f.expBits), bits = signed f neg k := by
  rw [pow_succ] at h
  by_cases hs : bits < 2 ^ (f.fracBits + f.expBits)
  · exact ⟨false, bits, hs, rfl⟩
  · exact ⟨true, bits - 2 ^ (f.fracBits + f.expBits), by omega, by rw [signed, if_pos rfl]; omega⟩

/-- The patterns worth an infinity. -/
theorem decodeFloat_eq_inf_iff (f : FloatFormat) {bits : Nat} (h : bits < 2 ^ (f.fracBits + f.expBits + 1)) (s : Bool) :
    decodeFloat f bits = .inf s ↔ bits = signed f s (infMagnitude f) := by
  constructor
  · intro e
    obtain ⟨neg, k, hk, rfl⟩ := exists_signed f h
    rcases lt_trichotomy k (infMagnitude f) with lt | rfl | gt
    · rw [decodeFloat_signed_finite f neg lt] at e; cases e
    · rw [decodeFloat_signed_inf] at e; cases e; rfl
    · rw [decodeFloat_signed_nan f neg gt hk] at e; cases e
  · rintro rfl; exact decodeFloat_signed_inf f s

/-- The patterns worth a finite value. -/
theorem decodeFloat_eq_finite {f : FloatFormat} {bits m : Nat} {neg : Bool} {e : Int}
    (h : bits < 2 ^ (f.fracBits + f.expBits + 1)) (hd : decodeFloat f bits = .finite neg m e) :
    ∃ k < infMagnitude f, bits = signed f neg k ∧ m = significandOf f k ∧ e = minExponent f + binadeOf f k := by
  obtain ⟨s, k, hk, rfl⟩ := exists_signed f h
  rcases lt_trichotomy k (infMagnitude f) with lt | rfl | gt
  · rw [decodeFloat_signed_finite f s lt] at hd; cases hd; exact ⟨k, lt, rfl, rfl, rfl⟩
  · rw [decodeFloat_signed_inf] at hd; cases hd
  · rw [decodeFloat_signed_nan f s gt hk] at hd; cases hd

/-- What a rounded magnitude stands for is never a NaN. -/
theorem decodeFloat_signed_ne_nan (f : FloatFormat) (neg : Bool) {k : Nat} (h : k ≤ infMagnitude f) :
    decodeFloat f (signed f neg k) ≠ .nan := by
  rcases h.lt_or_eq with lt | rfl
  · rw [decodeFloat_signed_finite f neg lt]; nofun
  · rw [decodeFloat_signed_inf]; nofun

/-! ### Exact values, and R17's rounding and R91's ceiling of them -/

theorem exactValue_false (m : Nat) (e : Int) : exactValue false m e = m * (2 : Rat) ^ e := by simp [exactValue]

theorem abs_exactValue (neg : Bool) (m : Nat) (e : Int) : |exactValue neg m e| = m * (2 : Rat) ^ e := by
  have : (0 : Rat) ≤ m * (2 : Rat) ^ e := by positivity
  cases neg <;> simp [exactValue, abs_of_nonneg this]

theorem exactValue_eq_signedInt (neg : Bool) (m : Nat) (e : Int) :
    exactValue neg m e = (signedInt neg m : Rat) * (2 : Rat) ^ e := by
  cases neg <;> simp [exactValue, signedInt]

theorem signedInt_eq (neg : Bool) (m : Nat) : signedInt neg m = (if neg then -1 else 1) * (m : Int) := by
  cases neg <;> simp [signedInt]

/-- The integer quotient of `roundHalfAway` is `floor (|x| + 1/2)`: both are over the denominator `2 * 2^(-e)`. -/
theorem floor_add_half (m : Nat) (e : Int) :
    (((2 * (m * 2 ^ e.toNat) + 2 ^ (-e).toNat) / (2 * 2 ^ (-e).toNat) : Nat) : Int) =
      ⌊(m : Rat) * (2 : Rat) ^ e + 1 / 2⌋ := by
  have quotient : (m : Rat) * (2 : Rat) ^ e + 1 / 2 =
      ((2 * (m * 2 ^ e.toNat) + 2 ^ (-e).toNat : Nat) : Rat) / ((2 * 2 ^ (-e).toNat : Nat) : Rat) := by
    rw [two_zpow_eq]
    push_cast
    field_simp
  rw [quotient, Rat.floor_natCast_div_natCast, Int.natCast_ediv]

theorem roundHalfAway_finite (neg : Bool) (m : Nat) (e : Int) :
    roundHalfAway (.finite neg m e) = some (.int ((if neg then -1 else 1) * ⌊|exactValue neg m e| + 1 / 2⌋)) := by
  rw [abs_exactValue, roundHalfAway]
  split
  · next zero =>
    have : ⌊(1 / 2 : Rat)⌋ = 0 := by rw [Int.floor_eq_zero_iff]; norm_num
    rw [zero, Nat.cast_zero, zero_mul, zero_add, this, mul_zero]
  · rw [signedInt_eq, floor_add_half]

theorem ceilFloat_finite (neg : Bool) (m : Nat) (e : Int) :
    ceilFloat (.finite neg m e) = some (.int ⌈exactValue neg m e⌉) := by
  rw [ceilFloat, floorScaled_eq, exactValue_eq_signedInt, Int.cast_neg, neg_mul, Int.floor_neg, neg_neg]

/-! ### The two roundings to an integer -/

/-- `q` is less than 1/2 away from `z`, or even and exactly 1/2 away. -/
def NearestInteger (z : Rat) (q : Nat) : Prop := |z - q| < 1 / 2 ∨ (|z - q| = 1 / 2 ∧ q % 2 = 0)

theorem NearestInteger.le_half {z : Rat} {q : Nat} (h : NearestInteger z q) : |z - q| ≤ 1 / 2 :=
  h.elim le_of_lt fun tie => tie.1.le

theorem nearestInteger_roundHalfEven (n : Nat) {d : Nat} (hd : 0 < d) :
    NearestInteger ((n : Rat) / d) (roundHalfEven n d) := by
  have hd' : (0 : Rat) < d := by exact_mod_cast hd
  have quotient : (n : Rat) / d = (n / d : Nat) + ((n % d : Nat) : Rat) / d := by
    rw [← mul_right_inj' hd'.ne', mul_add, mul_div_cancel₀ _ hd'.ne', mul_div_cancel₀ _ hd'.ne']
    exact_mod_cast (Nat.div_add_mod n d).symm
  have below : 2 * (n % d) < d ↔ ((n % d : Nat) : Rat) / d < 1 / 2 := by
    rw [div_lt_div_iff₀ hd' two_pos, one_mul, mul_comm]; exact_mod_cast Iff.rfl
  have above : d < 2 * (n % d) ↔ 1 / 2 < ((n % d : Nat) : Rat) / d := by
    rw [div_lt_div_iff₀ two_pos hd', one_mul, mul_comm 2]; exact_mod_cast Iff.rfl
  have nonneg : 0 ≤ ((n % d : Nat) : Rat) / d := by positivity
  have lt_one : ((n % d : Nat) : Rat) / d < 1 := by
    rw [div_lt_one hd']; exact_mod_cast Nat.mod_lt n hd
  simp only [NearestInteger, roundHalfEven, below, above]
  generalize ((n % d : Nat) : Rat) / d = t at *
  rw [quotient]
  split
  · left; rw [abs_lt]; constructor <;> linarith
  · split
    · left; rw [abs_lt]; push_cast; constructor <;> linarith
    · have tie : t = 1 / 2 := by linarith
      right
      rcases Nat.mod_two_eq_zero_or_one (n / d) with even | odd
      · exact ⟨by rw [even, tie]; norm_num, by omega⟩
      · exact ⟨by rw [odd, tie]; push_cast; rw [abs_eq] <;> norm_num, by omega⟩

/-- `floorLog2` is the binary logarithm rounded down: 2^l ≤ n / d < 2^(l + 1). -/
theorem floorLog2_spec {n d : Nat} (hn : 0 < n) (hd : 0 < d) :
    (2 : Rat) ^ floorLog2 n d ≤ (n : Rat) / d ∧ (n : Rat) / d < (2 : Rat) ^ (floorLog2 n d + 1) := by
  have hd' : (0 : Rat) < d := by exact_mod_cast hd
  have n_low : (2 : Rat) ^ (n.log2 : Int) ≤ n := by exact_mod_cast Nat.log2_self_le hn.ne'
  have n_high : (n : Rat) < (2 : Rat) ^ (n.log2 + 1 : Int) := by exact_mod_cast Nat.lt_log2_self
  have d_low : (2 : Rat) ^ (d.log2 : Int) ≤ d := by exact_mod_cast Nat.log2_self_le hd.ne'
  have d_high : (d : Rat) < (2 : Rat) ^ (d.log2 + 1 : Int) := by exact_mod_cast Nat.lt_log2_self
  have low : (2 : Rat) ^ ((n.log2 : Int) - d.log2 - 1) ≤ (n : Rat) / d := by
    rw [sub_sub, zpow_sub₀ two_ne_zero]
    exact div_le_div₀ (by positivity) n_low hd' d_high.le
  have high : (n : Rat) / d < (2 : Rat) ^ ((n.log2 : Int) - d.log2 + 1) := by
    rw [sub_add_eq_add_sub, zpow_sub₀ two_ne_zero]
    exact div_lt_div₀ n_high d_low (by positivity) (by positivity)
  have test (l : Int) : n * 2 ^ (-l).toNat < d * 2 ^ l.toNat ↔ (n : Rat) / d < (2 : Rat) ^ l := by
    rw [two_zpow_eq, div_lt_div_iff₀ hd' (by positivity), mul_comm d]
    exact_mod_cast Iff.rfl
  simp only [floorLog2, test]
  split
  · exact ⟨low, by rwa [sub_add_cancel]⟩
  · exact ⟨by rwa [← not_lt], high⟩

/-! ### The grid of the magnitudes, as if it had no largest one -/

/-- What a magnitude pattern is worth by its significand and binade. Below the pattern of infinity this is the model's
`magnitudeValue`; from there on the grid goes on, so that rounding can be said before overflow. -/
def gridValue (f : FloatFormat) (k : Nat) : Rat := significandOf f k * (2 : Rat) ^ (minExponent f + binadeOf f k)

theorem magnitudeValue_eq_gridValue {f : FloatFormat} {k : Nat} (h : k < infMagnitude f) :
    magnitudeValue f k = gridValue f k := by
  rw [magnitudeValue, show decodeFloat f k = _ from decodeFloat_signed_finite f false h]
  exact exactValue_false _ _

/-- `q` units of binade `s`: only the subnormals have fewer than 2^fracBits, and a carry may reach the next binade. -/
structure InBinade (f : FloatFormat) (s q : Nat) : Prop where
  normal : s = 0 ∨ 2 ^ f.fracBits ≤ q
  carry  : q ≤ 2 * 2 ^ f.fracBits

theorem gridValue_normal (f : FloatFormat) (s : Nat) {r : Nat} (h : r < 2 ^ f.fracBits) :
    gridValue f ((s + 1) * 2 ^ f.fracBits + r) = (r + 2 ^ f.fracBits : Nat) * (2 : Rat) ^ (minExponent f + s) := by
  have exponent : ((s + 1) * 2 ^ f.fracBits + r) / 2 ^ f.fracBits = s + 1 := by
    rw [Nat.add_comm, Nat.add_mul_div_right _ _ (by positivity), Nat.div_eq_of_lt h, Nat.zero_add]
  have fraction : ((s + 1) * 2 ^ f.fracBits + r) % 2 ^ f.fracBits = r := by
    rw [Nat.add_comm, Nat.add_mul_mod_self_right, Nat.mod_eq_of_lt h]
  rw [gridValue, significandOf, binadeOf, exponent, fraction, if_neg (Nat.succ_ne_zero s), Nat.add_sub_cancel]

/-- Counting units in the last place upwards from 0 counts through the binades. -/
theorem gridValue_binade {f : FloatFormat} {s q : Nat} (h : InBinade f s q) :
    gridValue f (s * 2 ^ f.fracBits + q) = q * (2 : Rat) ^ (minExponent f + s) := by
  obtain ⟨normal, carry⟩ := h
  by_cases subnormal : q < 2 ^ f.fracBits
  · obtain rfl : s = 0 := by omega
    simp [gridValue, significandOf, binadeOf, Nat.div_eq_of_lt subnormal]
  · obtain ⟨r, rfl⟩ := Nat.exists_eq_add_of_le (not_lt.1 subnormal)
    rcases (show r ≤ 2 ^ f.fracBits by omega).lt_or_eq with lt | rfl
    · rw [← add_assoc, ← Nat.succ_mul, gridValue_normal f s lt, Nat.add_comm r]
    · calc gridValue f (s * 2 ^ f.fracBits + (2 ^ f.fracBits + 2 ^ f.fracBits))
          = gridValue f ((s + 1 + 1) * 2 ^ f.fracBits + 0) := by congr 1; ring
        _ = (2 ^ f.fracBits : Nat) * (2 : Rat) ^ (minExponent f + (s + 1 : Nat)) := by
          rw [gridValue_normal f (s + 1) (Nat.two_pow_pos _), zero_add]
        _ = (2 ^ f.fracBits + 2 ^ f.fracBits : Nat) * (2 : Rat) ^ (minExponent f + s) := by
          rw [Nat.cast_succ, ← add_assoc, zpow_add_one₀ two_ne_zero]; push_cast; ring

/-- Every pattern is some number of units of its binade, with room for one more. -/
theorem exists_inBinade (f : FloatFormat) (k : Nat) :
    ∃ s q, k = s * 2 ^ f.fracBits + q ∧ InBinade f s q ∧ InBinade f s (q + 1) := by
  have pos := Nat.two_pow_pos f.fracBits
  have lt := Nat.mod_lt k pos
  by_cases h : k / 2 ^ f.fracBits = 0
  · have := (Nat.div_eq_zero_iff_lt pos).1 h
    exact ⟨0, k, by simp, ⟨.inl rfl, by omega⟩, ⟨.inl rfl, by omega⟩⟩
  · refine ⟨k / 2 ^ f.fracBits - 1, k % 2 ^ f.fracBits + 2 ^ f.fracBits, ?_, ⟨.inr (by omega), by omega⟩,
      ⟨.inr (by omega), by omega⟩⟩
    obtain ⟨s, hs⟩ := Nat.exists_eq_succ_of_ne_zero h
    have := Nat.div_add_mod' k (2 ^ f.fracBits)
    rw [hs, Nat.succ_mul] at this
    rw [hs, Nat.succ_sub_one]; omega

theorem gridValue_strictMono (f : FloatFormat) : StrictMono (gridValue f) := by
  refine strictMono_nat_of_lt_succ fun k => ?_
  obtain ⟨s, q, rfl, h, h'⟩ := exists_inBinade f k
  rw [add_assoc, gridValue_binade h, gridValue_binade h']
  gcongr
  exact Nat.lt_succ_self q

/-- How far the other patterns are from `q` units of a binade: a unit or more, except below the lowest value of a binade,
where the units are smaller. -/
theorem gridValue_far {f : FloatFormat} {s q k : Nat} (h : InBinade f s q) (ne : k ≠ s * 2 ^ f.fracBits + q) :
    (q + 1) * (2 : Rat) ^ (minExponent f + s) ≤ gridValue f k ∨
      gridValue f k + (2 : Rat) ^ (minExponent f + s) ≤ q * (2 : Rat) ^ (minExponent f + s) ∨
      (q = 2 ^ f.fracBits ∧ s ≠ 0 ∧ gridValue f k < q * (2 : Rat) ^ (minExponent f + s)) := by
  have value := gridValue_binade h
  obtain ⟨normal, carry⟩ := h
  rcases lt_or_gt_of_ne ne with below | above
  · right
    by_cases lowest : q = 2 ^ f.fracBits ∧ s ≠ 0
    · exact .inr ⟨lowest.1, lowest.2, value ▸ gridValue_strictMono f below⟩
    · left
      obtain ⟨p, rfl⟩ : ∃ p, q = p + 1 := Nat.exists_eq_succ_of_ne_zero (by
        rintro rfl
        obtain rfl | normal := normal
        · simp at below
        · exact absurd normal (by simp))
      have := (gridValue_strictMono f).monotone (show k ≤ s * 2 ^ f.fracBits + p by omega)
      rw [gridValue_binade ⟨by omega, by omega⟩] at this
      push_cast; linarith
  · left
    have mono := (gridValue_strictMono f).monotone (show s * 2 ^ f.fracBits + q + 1 ≤ k from above)
    refine le_trans ?_ mono
    rcases carry.lt_or_eq with lt | rfl
    · rw [add_assoc, gridValue_binade ⟨by omega, by omega⟩]; push_cast; rfl
    · rw [show s * 2 ^ f.fracBits + 2 * 2 ^ f.fracBits + 1 = (s + 1) * 2 ^ f.fracBits + (2 ^ f.fracBits + 1) by ring,
        gridValue_binade ⟨.inr (Nat.le_succ _), by have := Nat.two_pow_pos f.fracBits; omega⟩, Nat.cast_succ s,
        ← add_assoc, zpow_add_one₀ two_ne_zero]
      have : (0 : Rat) < 2 ^ (minExponent f + s) := by positivity
      push_cast; linarith

/-! ### Rounding is to the nearest of the grid -/

/-- `p` is the pattern of the grid nearest to `x`, the even one of two equally near. -/
def NearestOnGrid (f : FloatFormat) (x : Rat) (p : Nat) : Prop :=
  ∀ k ≠ p, |x - gridValue f p| < |x - gridValue f k| ∨ (|x - gridValue f p| = |x - gridValue f k| ∧ p % 2 = 0)

theorem NearestOnGrid.le {f : FloatFormat} {x : Rat} {p : Nat} (h : NearestOnGrid f x p) (k : Nat) :
    |x - gridValue f p| ≤ |x - gridValue f k| := by
  rcases eq_or_ne k p with rfl | ne
  · rfl
  · exact (h k ne).elim le_of_lt fun tie => tie.1.le

/-- An integer chosen by rounding half to even is nearer than a point a unit or more away from it, and than one that it
lies before. -/
theorem nearest_of_far {z v : Rat} {q : Nat} (round : NearestInteger z q)
    (far : q + 1 ≤ v ∨ v + 1 ≤ q ∨ (v < q ∧ q ≤ z)) :
    |z - q| < |z - v| ∨ (|z - q| = |z - v| ∧ q % 2 = 0) := by
  by_cases before : v < q ∧ q ≤ z
  · left; rw [abs_of_nonneg (by linarith), abs_of_nonneg (by linarith)]; linarith
  · have unit : 1 ≤ |q - v| := by
      rw [le_abs]
      rcases far with h | h | h
      · right; linarith
      · left; linarith
      · exact absurd h before
    have triangle := abs_sub_le (q : Rat) z v
    rw [abs_sub_comm (q : Rat) z] at triangle
    rcases round with close | ⟨tie, even⟩
    · left; linarith
    · exact (show |z - q| ≤ |z - v| by linarith).lt_or_eq.imp_right (⟨·, even⟩)

/-- A number of units of a binade rounds to the nearest pattern of the whole grid. -/
theorem nearestOnGrid_of_binade {f : FloatFormat} {s q : Nat} {z : Rat} (wide : 0 < f.fracBits)
    (round : NearestInteger z q) (normal : s = 0 ∨ (2 ^ f.fracBits : Nat) ≤ z)
    (top : z < (2 * 2 ^ f.fracBits : Nat)) :
    NearestOnGrid f (z * (2 : Rat) ^ (minExponent f + s)) (s * 2 ^ f.fracBits + q) := by
  have near := abs_le.1 round.le_half
  have binade : InBinade f s q := by
    constructor
    · refine normal.imp_right fun h => ?_
      have : ((2 ^ f.fracBits : Nat) : Rat) < (q + 1 : Nat) := by push_cast at *; linarith
      exact Nat.lt_succ_iff.1 (by exact_mod_cast this)
    · have : (q : Rat) < (2 * 2 ^ f.fracBits + 1 : Nat) := by push_cast at *; linarith
      exact Nat.lt_succ_iff.1 (by exact_mod_cast this)
  have unit : (0 : Rat) < 2 ^ (minExponent f + s) := by positivity
  intro k ne
  have far := gridValue_far binade ne
  obtain ⟨v, hv⟩ : ∃ v, gridValue f k = v * (2 : Rat) ^ (minExponent f + s) := ⟨_, (div_mul_cancel₀ _ unit.ne').symm⟩
  have even : (s * 2 ^ f.fracBits + q) % 2 = q % 2 := by
    obtain ⟨b, hb⟩ := Nat.exists_eq_succ_of_ne_zero wide.ne'
    rw [hb, pow_succ, ← mul_assoc, Nat.add_comm, Nat.add_mul_mod_self_right]
  rw [gridValue_binade binade, hv, ← sub_mul, ← sub_mul, abs_mul, abs_mul, abs_of_pos unit, mul_lt_mul_iff_left₀ unit,
    mul_left_inj' unit.ne', even]
  rw [hv, ← add_one_mul, mul_le_mul_iff_left₀ unit, mul_le_mul_iff_left₀ unit, mul_lt_mul_iff_left₀ unit] at far
  refine nearest_of_far round (far.imp_right (Or.imp_right ?_))
  rintro ⟨rfl, hs, lt⟩
  exact ⟨lt, normal.resolve_left hs⟩

/-- The multiple of 2^u that `roundMagnitude` rounds to an integer is the exact value. -/
theorem scaled_quotient_mul (n d : Nat) (e u : Int) :
    ((n * 2 ^ (e - u).toNat : Nat) : Rat) / (d * 2 ^ (u - e).toNat : Nat) * (2 : Rat) ^ u =
      (n : Rat) / d * (2 : Rat) ^ e := by
  have split : (2 : Rat) ^ e = (2 : Rat) ^ (e - u) * (2 : Rat) ^ u := by
    rw [← zpow_add₀ two_ne_zero, sub_add_cancel]
  rw [split, two_zpow_eq (e - u), neg_sub, Nat.cast_mul, Nat.cast_mul, mul_div_mul_comm, mul_assoc]

/-- `roundMagnitude` takes the nearest pattern of the grid, and infinity in place of anything from there on. -/
theorem roundMagnitude_eq_min {f : FloatFormat} (wide : 0 < f.fracBits) (n : Nat) {d : Nat} (hd : 0 < d) (e : Int) :
    ∃ p, roundMagnitude f n d e = min (infMagnitude f) p ∧ NearestOnGrid f ((n : Rat) / d * (2 : Rat) ^ e) p := by
  rcases Nat.eq_zero_or_pos n with rfl | hn
  · refine ⟨0, by simp [roundMagnitude], fun k ne => .inl ?_⟩
    have zero : gridValue f 0 = 0 := by simp [gridValue, significandOf]
    have := gridValue_strictMono f (Nat.pos_of_ne_zero ne)
    rw [zero] at this
    simpa [zero] using this.ne'
  obtain ⟨low, high⟩ := floorLog2_spec hn hd
  generalize hu : max (minExponent f) (floorLog2 n d + e - f.fracBits) = u
  have unit : minExponent f + (u - minExponent f).toNat = u := by omega
  refine ⟨_, by rw [roundMagnitude, if_neg hn.ne', hu], ?_⟩
  have pos : (0 : Rat) < 2 ^ u := by positivity
  have value := scaled_quotient_mul n d e u
  have near := nearestOnGrid_of_binade (f := f) (s := (u - minExponent f).toNat) wide
    (nearestInteger_roundHalfEven (n * 2 ^ (e - u).toNat) (d := d * 2 ^ (u - e).toNat) (by positivity))
  rw [unit, value] at near
  refine near ?_ ?_
  · by_cases h : u = minExponent f
    · left; omega
    · right
      rw [← mul_le_mul_iff_left₀ pos, value, Nat.cast_pow, Nat.cast_two, ← zpow_natCast, ← zpow_add₀ two_ne_zero,
        show (f.fracBits : Int) + u = floorLog2 n d + e by omega, zpow_add₀ two_ne_zero]
      gcongr
  · rw [← mul_lt_mul_iff_left₀ pos, value, ← Nat.pow_succ', Nat.cast_pow, Nat.cast_two, ← zpow_natCast,
      ← zpow_add₀ two_ne_zero]
    calc (n : Rat) / d * 2 ^ e < 2 ^ (floorLog2 n d + 1) * 2 ^ e := by gcongr
      _ = (2 : Rat) ^ (floorLog2 n d + 1 + e) := (zpow_add₀ two_ne_zero _ _).symm
      _ ≤ _ := zpow_le_zpow_right₀ one_le_two (by push_cast; omega)

/-! ### Overflow -/

/-- The upper of two points is as near as the lower from their midpoint on. -/
theorem upper_nearer_iff {x a b : Rat} (h : a < b) : |x - b| ≤ |x - a| ↔ (a + b) / 2 ≤ x := by
  rw [← sq_le_sq]
  constructor <;> intro <;> nlinarith

theorem lower_nearer_iff {x a b : Rat} (h : a < b) : |x - a| ≤ |x - b| ↔ x ≤ (a + b) / 2 := by
  rw [← sq_le_sq]
  constructor <;> intro <;> nlinarith

/-- A nearest pattern is infinity's or later from half a unit before it on: infinity's is even, so it takes the tie. -/
theorem NearestOnGrid.ge_iff {f : FloatFormat} {x : Rat} {p i : Nat} (h : NearestOnGrid f x p) (even : (i + 1) % 2 = 0) :
    i + 1 ≤ p ↔ (gridValue f i + gridValue f (i + 1)) / 2 ≤ x := by
  have mono := gridValue_strictMono f
  constructor
  · intro ge
    have := (upper_nearer_iff (mono (show i < p from ge))).1 (h.le i)
    have := mono.monotone ge
    linarith
  · contrapose!
    intro lt
    have below := mono lt
    rcases h (i + 1) (by omega) with near | ⟨tie, p_even⟩
    · have := lt_of_not_ge (mt (upper_nearer_iff below).2 near.not_ge)
      have := mono.monotone (show p ≤ i by omega)
      linarith
    · have := (lower_nearer_iff below).1 tie.le
      have := mono (show p < i by omega)
      linarith

/-- The last two steps of the grid before infinity are equal. -/
theorem gridValue_last_steps {f : FloatFormat} (wide : 0 < f.fracBits) (tall : 1 < f.expBits) :
    ∃ i, infMagnitude f = i + 2 ∧ i % 2 = 0 ∧
      gridValue f (i + 1) + (gridValue f (i + 1) - gridValue f i) / 2 = (gridValue f (i + 1) + gridValue f (i + 2)) / 2 := by
  obtain ⟨b, hb⟩ := Nat.exists_eq_succ_of_ne_zero wide.ne'
  obtain ⟨s, hs⟩ : ∃ s, 2 ^ f.expBits - 1 = s + 2 := by
    have := Nat.pow_le_pow_right (n := 2) two_pos (show 2 ≤ f.expBits from tall)
    exact ⟨2 ^ f.expBits - 3, by omega⟩
  obtain ⟨j, hj⟩ : ∃ j, 2 ^ f.fracBits = 2 * j + 2 := by
    have := Nat.two_pow_pos b
    exact ⟨2 ^ b - 1, by rw [hb, pow_succ]; omega⟩
  have value (t : Nat) (ht : t ≤ 2) : gridValue f (s * 2 ^ f.fracBits + (2 * j + 2 ^ f.fracBits) + t) =
      (2 * j + 2 ^ f.fracBits + t : Nat) * (2 : Rat) ^ (minExponent f + s) := by
    rw [add_assoc]; exact gridValue_binade ⟨.inr (by omega), by omega⟩
  refine ⟨s * 2 ^ f.fracBits + (2 * j + 2 ^ f.fracBits), ?_, ?_, ?_⟩
  · rw [infMagnitude, hs, hj]; ring
  · rw [hj, show s * (2 * j + 2) + (2 * j + (2 * j + 2)) = 2 * (s * (j + 1) + (2 * j + 1)) by ring, Nat.mul_mod_right]
  · have start := value 0 (Nat.zero_le 2)
    rw [add_zero, add_zero] at start
    rw [start, value 1 one_le_two, value 2 le_rfl]
    push_cast; ring

/-- R16's rounding: nearest on the unbounded grid below infinity, and infinity from half a unit before its pattern on. -/
theorem nearestEven_roundMagnitude {f : FloatFormat} (wide : 0 < f.fracBits) (tall : 1 < f.expBits) (n : Nat) {d : Nat}
    (hd : 0 < d) (e : Int) : NearestEven f ((n : Rat) / d * (2 : Rat) ^ e) (roundMagnitude f n d e) := by
  obtain ⟨p, hp, near⟩ := roundMagnitude_eq_min wide n hd e
  generalize (n : Rat) / d * (2 : Rat) ^ e = x at near ⊢
  obtain ⟨i, inf, even, half⟩ := gridValue_last_steps wide tall
  have finite (h : roundMagnitude f n d e < infMagnitude f) : roundMagnitude f n d e = p := by omega
  constructor
  case range => exact roundMagnitude_le f n d e
  case nearest =>
    intro h q hq
    rw [magnitudeValue_eq_gridValue h, magnitudeValue_eq_gridValue hq, finite h]
    exact near.le q
  case even =>
    intro h q hq ne
    rw [magnitudeValue_eq_gridValue h, magnitudeValue_eq_gridValue hq, finite h]
    intro tie
    exact (near q (finite h ▸ ne)).elim (fun lt => absurd tie lt.ne) And.right
  case overflow =>
    rw [magnitudeValue_eq_gridValue (by omega), magnitudeValue_eq_gridValue (by omega), inf,
      show i + 2 - 1 = i + 1 by omega, Nat.add_sub_cancel, half, ← near.ge_iff (by omega)]
    omega

/-- Both formats have a fraction, so that a significand's parity is its pattern's, and more than one exponent bit. -/
theorem format_wide {f : FloatFormat} (hf : f = binary32 ∨ f = binary64) : 0 < f.fracBits ∧ 1 < f.expBits := by
  rcases hf with rfl | rfl <;> decide

/-! ### Representable values -/

/-- A value of the format is rounded to its own pattern. -/
theorem roundMagnitude_of_gridValue {f : FloatFormat} (wide : 0 < f.fracBits) {n : Nat} {e : Int} {k : Nat}
    (hk : k < infMagnitude f) (value : (n : Rat) * (2 : Rat) ^ e = gridValue f k) : roundMagnitude f n 1 e = k := by
  obtain ⟨p, hp, near⟩ := roundMagnitude_eq_min wide n one_pos e
  rw [Nat.cast_one, div_one, value] at near
  have same : gridValue f k = gridValue f p := by
    have h := near.le k
    rw [sub_self, abs_zero] at h
    exact sub_eq_zero.1 (abs_nonpos_iff.1 h)
  have := (gridValue_strictMono f).injective same
  omega

/-! ### The operations on finite operands -/

theorem floatMul_rounded {f : FloatFormat} (wide : 0 < f.fracBits) (tall : 1 < f.expBits) {a b m n : Nat} {s t : Bool}
    {x y : Int} (ha : decodeFloat f a = .finite s m x) (hb : decodeFloat f b = .finite t n y) :
    ∃ q, floatMul f a b = some (signed f (s ^^ t) q) ∧ NearestEven f |exactValue s m x * exactValue t n y| q := by
  refine ⟨_, by rw [floatMul, ha, hb], ?_⟩
  have value : |exactValue s m x * exactValue t n y| = ((m * n : Nat) : Rat) / (1 : Nat) * (2 : Rat) ^ (x + y) := by
    rw [abs_mul, abs_exactValue, abs_exactValue, zpow_add₀ two_ne_zero]
    push_cast; ring
  rw [value]
  exact nearestEven_roundMagnitude wide tall _ one_pos _

theorem floatDiv_rounded {f : FloatFormat} (wide : 0 < f.fracBits) (tall : 1 < f.expBits) {a b m n : Nat} {s t : Bool}
    {x y : Int} (ha : decodeFloat f a = .finite s m x) (hb : decodeFloat f b = .finite t n y) (hn : n ≠ 0) :
    ∃ q, floatDiv f a b = some (signed f (s ^^ t) q) ∧ NearestEven f |exactValue s m x / exactValue t n y| q := by
  refine ⟨roundMagnitude f m n (x - y), by simp only [floatDiv, ha, hb, if_neg hn], ?_⟩
  have value : |exactValue s m x / exactValue t n y| = (m : Rat) / n * (2 : Rat) ^ (x - y) := by
    rw [abs_div, abs_exactValue, abs_exactValue, zpow_sub₀ two_ne_zero, mul_div_mul_comm]
  rw [value]
  exact nearestEven_roundMagnitude wide tall m (Nat.pos_of_ne_zero hn) _

/-- A value over a smaller exponent. -/
theorem exactValue_rescale (s : Bool) (m : Nat) {e x : Int} (h : e ≤ x) :
    exactValue s m x = (signedInt s (m * 2 ^ (x - e).toNat) : Rat) * (2 : Rat) ^ e := by
  have split : (2 : Rat) ^ x = (2 ^ (x - e).toNat : Nat) * (2 : Rat) ^ e := by
    rw [Nat.cast_pow, Nat.cast_two, ← zpow_natCast, ← zpow_add₀ two_ne_zero, show ((x - e).toNat : Int) + e = x by omega]
  rw [exactValue_eq_signedInt, split, signedInt_eq, signedInt_eq]
  push_cast; ring

/-- The exact sum of `floatAdd`: an integer over the smaller exponent. -/
theorem exactValue_add (s t : Bool) (m n : Nat) (x y : Int) :
    exactValue s m x + exactValue t n y =
      ((signedInt s (m * 2 ^ (x - min x y).toNat) + signedInt t (n * 2 ^ (y - min x y).toNat) : Int) : Rat) *
        (2 : Rat) ^ min x y := by
  rw [exactValue_rescale s m (min_le_left x y), exactValue_rescale t n (min_le_right x y)]
  push_cast; ring

theorem floatAdd_rounded {f : FloatFormat} (wide : 0 < f.fracBits) (tall : 1 < f.expBits) {a b m n : Nat} {s t : Bool}
    {x y : Int} (ha : decodeFloat f a = .finite s m x) (hb : decodeFloat f b = .finite t n y) :
    ∃ neg q, floatAdd f a b = some (signed f neg q) ∧ NearestEven f |exactValue s m x + exactValue t n y| q ∧
      (neg = true ↔ exactValue s m x + exactValue t n y < 0 ∨
        (exactValue s m x + exactValue t n y = 0 ∧ s = true ∧ t = true)) := by
  have unit : (0 : Rat) < 2 ^ min x y := by positivity
  simp only [floatAdd, ha, hb]
  rw [exactValue_add]
  generalize signedInt s (m * 2 ^ (x - min x y).toNat) + signedInt t (n * 2 ^ (y - min x y).toNat) = sum
  split
  · next zero =>
    refine ⟨s && t, 0, rfl, ?_, by simp [zero]⟩
    simpa [zero, roundMagnitude] using nearestEven_roundMagnitude wide tall 0 one_pos 0
  · next nonzero =>
    refine ⟨decide (sum < 0), _, rfl, ?_, ?_⟩
    · have value : |(sum : Rat) * 2 ^ min x y| = (sum.natAbs : Rat) / (1 : Nat) * (2 : Rat) ^ min x y := by
        rw [abs_mul, abs_of_pos unit, Nat.cast_natAbs, Int.cast_abs, Nat.cast_one, div_one]
      rw [value]
      exact nearestEven_roundMagnitude wide tall _ one_pos _
    · have sign : (sum : Rat) * 2 ^ min x y < 0 ↔ sum < 0 := by
        rw [← not_le, ← not_le, mul_nonneg_iff_of_pos_right unit, Int.cast_nonneg_iff]
      simp [sign, nonzero, unit.ne']

/-! ### Widening -/

/-- Each format has every small significand at every exponent from its least on, up to the end of its patterns. -/
theorem exists_gridValue (f : FloatFormat) (j m : Nat) (h : m < 2 * 2 ^ f.fracBits) :
    ∃ k < (j + 2) * 2 ^ f.fracBits, gridValue f k = m * (2 : Rat) ^ (minExponent f + j) := by
  induction j generalizing m with
  | zero => exact ⟨m, by omega, by simpa using gridValue_binade (s := 0) ⟨.inl rfl, h.le⟩⟩
  | succ j ih =>
    by_cases normal : 2 ^ f.fracBits ≤ m
    · exact ⟨(j + 1) * 2 ^ f.fracBits + m, by rw [add_mul (j + 1)]; omega, gridValue_binade ⟨.inr normal, h.le⟩⟩
    · obtain ⟨k, hk, value⟩ := ih (2 * m) (by omega)
      refine ⟨k, hk.trans_le (Nat.mul_le_mul_right _ (by omega)), ?_⟩
      rw [value, Nat.cast_succ, ← add_assoc, zpow_add_one₀ two_ne_zero]
      push_cast; ring

theorem significandOf_lt (f : FloatFormat) (k : Nat) : significandOf f k < 2 * 2 ^ f.fracBits := by
  have pos := Nat.two_pow_pos f.fracBits
  unfold significandOf
  split
  · next zero => have := (Nat.div_eq_zero_iff_lt pos).1 zero; omega
  · have := Nat.mod_lt k pos; omega

theorem binadeOf_lt {f : FloatFormat} {k : Nat} (h : k < infMagnitude f) : binadeOf f k < 2 ^ f.expBits - 1 :=
  (Nat.sub_le _ 1).trans_lt (Nat.div_lt_of_lt_mul (by rwa [mul_comm]))

/-- Every value of binary32 is one of binary64. -/
theorem exists_gridValue_binary64 {k : Nat} (h : k < infMagnitude binary32) :
    ∃ w < infMagnitude binary64, gridValue binary64 w = gridValue binary32 k := by
  have significand : significandOf binary32 k < 2 * 2 ^ 23 := significandOf_lt binary32 k
  have binade : binadeOf binary32 k < 2 ^ 8 - 1 := binadeOf_lt h
  obtain ⟨w, hw, value⟩ := exists_gridValue binary64 (925 + binadeOf binary32 k) (significandOf binary32 k)
    (significand.trans (by decide))
  refine ⟨w, hw.trans_le (Nat.mul_le_mul_right _ (show _ ≤ 2 ^ 11 - 1 by omega)), value.trans ?_⟩
  rw [gridValue, show minExponent binary64 = -1074 by decide, show minExponent binary32 = -149 by decide]
  push_cast; congr 2; ring

theorem toNat_ofNat_signed32 (neg : Bool) {k : Nat} (h : k ≤ infMagnitude binary32) :
    (BitVec.ofNat 32 (signed binary32 neg k)).toNat = signed binary32 neg k :=
  (BitVec.toNat_ofNat _ _).trans (Nat.mod_eq_of_lt (signed_lt binary32 neg (h.trans_lt (infMagnitude_lt binary32))))

theorem toNat_ofNat_signed64 (neg : Bool) {k : Nat} (h : k ≤ infMagnitude binary64) :
    (BitVec.ofNat 64 (signed binary64 neg k)).toNat = signed binary64 neg k :=
  (BitVec.toNat_ofNat _ _).trans (Nat.mod_eq_of_lt (signed_lt binary64 neg (h.trans_lt (infMagnitude_lt binary64))))

theorem f32ToF64_eq_none_iff (a : F32) : f32ToF64 a = none ↔ decodeFloat binary32 a.toNat = .nan := by
  unfold f32ToF64
  cases decodeFloat binary32 a.toNat <;> simp

theorem f32IsNaN_iff (a : F32) : f32IsNaN a = true ↔ decodeFloat binary32 a.toNat = .nan := decide_eq_true_iff

theorem exactValue_congr {neg : Bool} {m m' : Nat} {e e' : Int} (h : (m : Rat) * (2 : Rat) ^ e = m' * (2 : Rat) ^ e') :
    exactValue neg m e = exactValue neg m' e' := by
  rw [exactValue, exactValue, mul_assoc, mul_assoc, h]

/-! ### Infinite operands -/

theorem decodeFloat_binary32_eq_inf_iff (a : F32) (s : Bool) :
    decodeFloat binary32 a.toNat = .inf s ↔ a = f32Infinity s := by
  rw [decodeFloat_eq_inf_iff binary32 a.isLt, ← ofNat_signed_f32Infinity, ← BitVec.toNat_inj,
    toNat_ofNat_signed32 s le_rfl]

theorem decodeFloat_binary64_eq_inf_iff (a : F64) (s : Bool) :
    decodeFloat binary64 a.toNat = .inf s ↔ a = f64Infinity s := by
  rw [decodeFloat_eq_inf_iff binary64 a.isLt, ← ofNat_signed_f64Infinity, ← BitVec.toNat_inj,
    toNat_ofNat_signed64 s le_rfl]

section infiniteOperands
variable {f : FloatFormat} {a b m : Nat} {s t : Bool} {e : Int}

theorem floatMul_inf_inf (ha : decodeFloat f a = .inf s) (hb : decodeFloat f b = .inf t) :
    floatMul f a b = some (signed f (s ^^ t) (infMagnitude f)) := by rw [floatMul, ha, hb]

theorem floatMul_inf_finite (ha : decodeFloat f a = .inf s) (hb : decodeFloat f b = .finite t m e) (hm : m ≠ 0) :
    floatMul f a b = some (signed f (s ^^ t) (infMagnitude f)) := by simp only [floatMul, ha, hb, if_neg hm]

theorem floatMul_finite_inf (ha : decodeFloat f a = .finite t m e) (hb : decodeFloat f b = .inf s) (hm : m ≠ 0) :
    floatMul f a b = some (signed f (s ^^ t) (infMagnitude f)) := by
  simp only [floatMul, ha, hb, if_neg hm, Bool.xor_comm t]

theorem floatAdd_inf_inf (ha : decodeFloat f a = .inf s) (hb : decodeFloat f b = .inf s) :
    floatAdd f a b = some (signed f s (infMagnitude f)) := by simp only [floatAdd, ha, hb, if_true]

theorem floatAdd_inf_finite (ha : decodeFloat f a = .inf s) (hb : decodeFloat f b = .finite t m e) :
    floatAdd f a b = some (signed f s (infMagnitude f)) := by rw [floatAdd, ha, hb]

theorem floatAdd_finite_inf (ha : decodeFloat f a = .finite t m e) (hb : decodeFloat f b = .inf s) :
    floatAdd f a b = some (signed f s (infMagnitude f)) := by rw [floatAdd, ha, hb]

theorem floatDiv_inf_finite (ha : decodeFloat f a = .inf s) (hb : decodeFloat f b = .finite t m e) :
    floatDiv f a b = some (signed f (s ^^ t) (infMagnitude f)) := by rw [floatDiv, ha, hb]

theorem floatDiv_finite_inf (ha : decodeFloat f a = .finite t m e) (hb : decodeFloat f b = .inf s) :
    floatDiv f a b = some (signed f (s ^^ t) 0) := by rw [floatDiv, ha, hb, Bool.xor_comm]

theorem floatDiv_finite_zero {x : Int} (ha : decodeFloat f a = .finite t m e) (hb : decodeFloat f b = .finite s 0 x)
    (hm : m ≠ 0) : floatDiv f a b = some (signed f (s ^^ t) (infMagnitude f)) := by
  simp only [floatDiv, ha, hb, if_true, if_neg hm, Bool.xor_comm t]

end infiniteOperands

theorem map_some_f32Infinity {o : Option Nat} {s : Bool} (h : o = some (signed binary32 s (infMagnitude binary32))) :
    o.map (BitVec.ofNat 32) = some (f32Infinity s) := by rw [h, Option.map_some, ofNat_signed_f32Infinity]

theorem map_some_f64Infinity {o : Option Nat} {s : Bool} (h : o = some (signed binary64 s (infMagnitude binary64))) :
    o.map (BitVec.ofNat 64) = some (f64Infinity s) := by rw [h, Option.map_some, ofNat_signed_f64Infinity]

theorem map_some_f64Zero {o : Option Nat} {s : Bool} (h : o = some (signed binary64 s 0)) :
    o.map (BitVec.ofNat 64) = some (f64Zero s) := by rw [h, Option.map_some, ofNat_signed_f64Zero]

/-! ### NaN results -/

theorem floatMul_eq_none_iff (f : FloatFormat) (a b : Nat) :
    floatMul f a b = none ↔ decodeFloat f a = .nan ∨ decodeFloat f b = .nan ∨
      (∃ s t e, decodeFloat f a = .inf s ∧ decodeFloat f b = .finite t 0 e) ∨
      (∃ s t e, decodeFloat f a = .finite t 0 e ∧ decodeFloat f b = .inf s) := by
  unfold floatMul
  cases decodeFloat f a with
  | nan => simp
  | inf s => cases decodeFloat f b <;> simp
  | finite s m x => cases decodeFloat f b <;> simp

theorem floatAdd_eq_none_iff (f : FloatFormat) (a b : Nat) :
    floatAdd f a b = none ↔ decodeFloat f a = .nan ∨ decodeFloat f b = .nan ∨
      ∃ s, decodeFloat f a = .inf s ∧ decodeFloat f b = .inf (!s) := by
  unfold floatAdd
  cases decodeFloat f a with
  | nan => simp
  | inf s =>
    cases decodeFloat f b with
    | nan => simp
    | inf t => cases s <;> cases t <;> simp
    | finite t n y => simp
  | finite s m x =>
    cases decodeFloat f b with
    | nan => simp
    | inf t => simp
    | finite t n y => dsimp only; split <;> simp

theorem floatDiv_eq_none_iff (f : FloatFormat) (a b : Nat) :
    floatDiv f a b = none ↔ decodeFloat f a = .nan ∨ decodeFloat f b = .nan ∨
      (∃ s t, decodeFloat f a = .inf s ∧ decodeFloat f b = .inf t) ∨
      ∃ s t e e', decodeFloat f a = .finite s 0 e ∧ decodeFloat f b = .finite t 0 e' := by
  unfold floatDiv
  cases decodeFloat f a with
  | nan => simp
  | inf s => cases decodeFloat f b <;> simp
  | finite s m x =>
    cases decodeFloat f b with
    | nan => simp
    | inf t => simp
    | finite t n y => by_cases hn : n = 0 <;> simp [hn]

/-- A product that is not a NaN is a sign and a magnitude up to infinity's. -/
theorem floatMul_eq_some {f : FloatFormat} {a b r : Nat} (h : floatMul f a b = some r) :
    ∃ neg, ∃ k ≤ infMagnitude f, r = signed f neg k := by
  unfold floatMul at h
  split at h
  · cases h
  · cases h
  · cases h
  · cases h; exact ⟨_, _, le_rfl, rfl⟩
  · obtain ⟨-, h⟩ := Option.ite_none_left_eq_some.1 h
    cases h; exact ⟨_, _, le_rfl, rfl⟩
  · obtain ⟨-, h⟩ := Option.ite_none_left_eq_some.1 h
    cases h; exact ⟨_, _, le_rfl, rfl⟩
  · cases h; exact ⟨_, _, roundMagnitude_le _ _ _ _, rfl⟩

theorem decodeFloat_f64Mul_ne_nan {a b y : F64} (h : f64Mul a b = some y) : decodeFloat binary64 y.toNat ≠ .nan := by
  obtain ⟨r, hr, rfl⟩ := Option.map_eq_some_iff.1 h
  obtain ⟨neg, k, hk, rfl⟩ := floatMul_eq_some hr
  rw [toNat_ofNat_signed64 neg hk]
  exact decodeFloat_signed_ne_nan binary64 neg hk

theorem ceilFloat_eq_none_iff (v : FloatValue) : ceilFloat v = none ↔ v = .nan := by
  cases v with
  | nan => simp [ceilFloat]
  | inf neg => cases neg <;> simp [ceilFloat]
  | finite s m e => simp [ceilFloat]

/-- Dividing by 1000.0 brings no NaN of its own. -/
theorem f64Div_thousand_eq_none_iff (y : F64) : f64Div y f64Thousand = none ↔ decodeFloat binary64 y.toNat = .nan := by
  have thousand : decodeFloat binary64 f64Thousand.toNat = .finite false (1000 * 2 ^ 43) (-43) := by decide
  rw [f64Div, Option.map_eq_none_iff, floatDiv_eq_none_iff, thousand]
  simp

/-- The delay in samples is a NaN for a NaN delay time or a NaN product with SAMPLE_RATE (R78). -/
theorem delayExact_eq_none_iff (t : F32) (sr : F64) :
    delayExact t sr = none ↔ f32IsNaN t = true ∨ ∃ w, f32ToF64 t = some w ∧ f64Mul w sr = none := by
  rw [f32IsNaN_iff, ← f32ToF64_eq_none_iff, delayExact]
  cases f32ToF64 t with
  | none => simp
  | some w =>
    cases hy : f64Mul w sr with
    | none => simp [hy]
    | some y => simp [hy, f64Div_thousand_eq_none_iff, decodeFloat_f64Mul_ne_nan hy]

/-- The requested capacity is a NaN exactly when the product of R91 is (R92). -/
theorem requestedCapacity_eq_none_iff (mds sr : F64) : requestedCapacity mds sr = none ↔ f64Mul sr mds = none := by
  rw [requestedCapacity]
  cases hy : f64Mul sr mds with
  | none => simp
  | some y => simp [ceilFloat_eq_none_iff, decodeFloat_f64Mul_ne_nan hy]

/-! ### The obligations -/

/-- Settles O20, by the inversion lemma of a step: a meaning leaves the build alone, and so does retiring. -/
theorem stepsNeverChangeTheBuild : Obligations.StepsNeverChangeTheBuild := by
  intro s t h
  cases step_cases h with
  | idle => exact passTurn_cfg s
  | command _ _ _ run => exact (retireCommand_cfg _).trans (exec_surroundings run).1
  | illegalCommand => exact retireCommand_cfg _
  | parameter _ _ _ run => exact (exec_surroundings run).1
  | illegalParameter => rfl
  | access => exact accessBlock_cfg s _
  | microOp _ _ _ run => exact (exec_surroundings run).1

/-- Settles O49, on the exact value as a quotient of integers. -/
theorem roundHalfAwayAndCeilAreExact : Obligations.RoundHalfAwayAndCeilAreExact := by
  intro neg m e
  refine ⟨roundHalfAway_finite neg m e, ceilFloat_finite neg m e, ?_, ?_⟩ <;> cases neg <;> rfl

/-- Settles O50: the nearest pattern of the unbounded grid, cut off at infinity. -/
theorem roundingIsToNearestEven : Obligations.RoundingIsToNearestEven := by
  intro f n d e hf hd
  obtain ⟨wide, tall⟩ := format_wide hf
  exact nearestEven_roundMagnitude wide tall n hd e

/-- Settles O51: each operation rounds its exact rational result once. -/
theorem arithmeticIsCorrectlyRounded : Obligations.ArithmeticIsCorrectlyRounded := by
  have h32 := format_wide (f := binary32) (.inl rfl)
  have h64 := format_wide (f := binary64) (.inr rfl)
  constructor
  · intro a b s t m n x y ha hb
    obtain ⟨q, mul, mulNear⟩ := floatMul_rounded h32.1 h32.2 ha hb
    obtain ⟨neg, r, add, addNear, sign⟩ := floatAdd_rounded h32.1 h32.2 ha hb
    exact ⟨⟨q, by rw [f32Mul, mul]; rfl, mulNear⟩, neg, r, by rw [f32Add, add]; rfl, addNear, sign⟩
  · intro a b s t m n x y ha hb
    obtain ⟨q, mul, mulNear⟩ := floatMul_rounded h64.1 h64.2 ha hb
    refine ⟨⟨q, by rw [f64Mul, mul]; rfl, mulNear⟩, fun hn => ?_⟩
    obtain ⟨r, div, divNear⟩ := floatDiv_rounded h64.1 h64.2 ha hb hn
    exact ⟨r, by rw [f64Div, div]; rfl, divNear⟩

/-- Settles O52: the decoded value is its own pattern's value. -/
theorem roundingKeepsRepresentableValues : Obligations.RoundingKeepsRepresentableValues := by
  intro f bits m neg e hf hbits hd
  obtain ⟨k, hk, rfl, rfl, rfl⟩ := decodeFloat_eq_finite hbits hd
  rw [roundMagnitude_of_gridValue (format_wide hf).1 hk rfl]

/-- Settles O53: a binary32 value is on the grid of binary64, so rounding keeps it. -/
theorem wideningIsExact : Obligations.WideningIsExact := by
  intro a
  refine ⟨(f32IsNaN_iff a).trans (f32ToF64_eq_none_iff a).symm, ?_, ?_⟩
  · intro neg ha
    exact ⟨f64Infinity neg, by rw [f32ToF64, ha, ← ofNat_signed_f64Infinity], decodeFloat_f64Infinity neg⟩
  · intro neg m e ha
    obtain ⟨k, hk, -, rfl, rfl⟩ := decodeFloat_eq_finite a.isLt ha
    obtain ⟨w, hw, value⟩ := exists_gridValue_binary64 hk
    refine ⟨_, _, _, by rw [f32ToF64, ha], ?_, exactValue_congr value⟩
    rw [roundMagnitude_of_gridValue (by decide) hw value.symm, toNat_ofNat_signed64 neg hw.le,
      decodeFloat_signed_finite binary64 neg hw]

/-- Settles O54, by the NaN cases of each operation. -/
theorem nanCasesOfTheArithmetic : Obligations.NanCasesOfTheArithmetic := by
  refine ⟨fun a b => ⟨?_, ?_⟩, fun a b => ⟨?_, ?_⟩,
    fun t sr mds => ⟨delayExact_eq_none_iff t sr, requestedCapacity_eq_none_iff mds sr⟩⟩
  · rw [f32Mul, Option.map_eq_none_iff, floatMul_eq_none_iff, f32IsNaN_iff, f32IsNaN_iff]
  · rw [f32Add, Option.map_eq_none_iff, floatAdd_eq_none_iff, f32IsNaN_iff, f32IsNaN_iff]
  · rw [f64Mul, Option.map_eq_none_iff, floatMul_eq_none_iff]
  · rw [f64Div, Option.map_eq_none_iff, floatDiv_eq_none_iff]

/-- Settles O60, from the arms of the operations with an infinity or a zero divisor. -/
theorem infiniteOperandsAsStated : Obligations.InfiniteOperandsAsStated := by
  have i32 := decodeFloat_f32Infinity
  have i64 := decodeFloat_f64Infinity
  refine ⟨fun s a b => ⟨decodeFloat_binary32_eq_inf_iff a s, decodeFloat_binary64_eq_inf_iff b s⟩,
    fun s t => ⟨?_, ?_, ?_⟩, fun s t a m e ha => ⟨?_, ?_, fun hm => ⟨?_, ?_⟩⟩,
    fun s t a m e ha => ⟨?_, ?_, fun hm => ⟨?_, ?_, ?_⟩⟩⟩
  · exact map_some_f32Infinity (floatMul_inf_inf (i32 s) (i32 t))
  · exact map_some_f32Infinity (floatAdd_inf_inf (i32 s) (i32 s))
  · exact map_some_f64Infinity (floatMul_inf_inf (i64 s) (i64 t))
  · exact map_some_f32Infinity (floatAdd_inf_finite (i32 s) ha)
  · exact map_some_f32Infinity (floatAdd_finite_inf ha (i32 s))
  · exact map_some_f32Infinity (floatMul_inf_finite (i32 s) ha hm)
  · exact map_some_f32Infinity (floatMul_finite_inf ha (i32 s) hm)
  · exact map_some_f64Infinity (floatDiv_inf_finite (i64 s) ha)
  · exact map_some_f64Zero (floatDiv_finite_inf ha (i64 s))
  · exact map_some_f64Infinity (floatMul_inf_finite (i64 s) ha hm)
  · exact map_some_f64Infinity (floatMul_finite_inf ha (i64 s) hm)
  · exact map_some_f64Infinity (floatDiv_finite_zero ha (decodeFloat_f64Zero s) hm)

end Sys2Proof.Machine
end

section
/-! Proofs of the family of 10_state.md: every step of any agent keeps the invariant of R33.
The invariant is kept part by part: only PREPARE, RELEASE and the body of PROCESS change what R33 speaks of, and a PROCESS
in progress is started, and left, by the command port alone. -/

namespace Sys2Proof.Machine

/-! ### What R33 speaks of -/

/-- The part of a state that R33 (a) and (b) read. -/
def State.session (s : State) : Config × Word × Word × F64 × Memory :=
  (s.cfg, s.capacity, s.writeCursor, s.sampleRate, s.store)

theorem session_eq_iff {s t : State} : t.session = s.session ↔
    t.cfg = s.cfg ∧ t.capacity = s.capacity ∧ t.writeCursor = s.writeCursor ∧ t.sampleRate = s.sampleRate ∧
      t.store = s.store := by
  simp [State.session]

/-- R33 holds or fails by that part alone. -/
theorem sessionOk_congr {s t : State} (e : t.session = s.session) (h : s.Unprepared ∨ s.Prepared) :
    t.Unprepared ∨ t.Prepared := by
  obtain ⟨cfg, capacity, cursor, rate, store⟩ := session_eq_iff.1 e
  refine h.imp (fun u => ⟨capacity ▸ u.capacity, cursor ▸ u.cursor, store ▸ u.noCells⟩) fun p => ?_
  refine ⟨?_, ?_, ?_, ?_, ?_⟩
  · rw [capacity]; exact p.capacityPos
  · rw [capacity, cfg]; exact p.capacityMax
  · rw [capacity, cursor]; exact p.cursor
  · rw [State.storeInShape, capacity, cfg, store]; exact p.cells
  · rw [capacity, cfg, rate]; exact p.rate

/-- A nonzero capacity makes the session of an invariant state a prepared one. -/
theorem State.Inv.prepared {s : State} (h : s.Inv) (hc : s.capacity ≠ 0) : s.Prepared :=
  h.session.resolve_left fun u => hc u.capacity

/-- A change outside what R33 speaks of keeps the invariant where it keeps its other parts. -/
theorem State.Inv.of_session {s t : State} (h : s.Inv) (session : t.session = s.session)
    (block : t.block.wf unlistedBlock) (pstatus : t.pstatus = .ok ∨ t.pstatus = .illegalCommand)
    (process : t.ProcessOk) (noMicroOp : t.microPort = []) : t.Inv := by
  obtain ⟨cfg, -, -, -, store⟩ := session_eq_iff.1 session
  exact ⟨cfg ▸ h.build, sessionOk_congr session h.session, ⟨store ▸ h.memory.store, block⟩, pstatus, process, noMicroOp⟩

/-! ### A PROCESS in progress -/

theorem processOk_of_idle {s : State} (idle : s.inProgress = none) : s.ProcessOk := fun hp => absurd idle hp

/-- With another descriptor than a PROCESS at the head of the command port, none is in progress (R21). -/
theorem State.ProcessOk.idle {s : State} (h : s.ProcessOk) {d : Descriptor} {rest : List Descriptor}
    (port : s.commandPort = d :: rest) (other : ∀ nc ns, decodeCommand d ≠ .ok (.process nc ns)) :
    s.inProgress = none := by
  by_contra hp
  obtain ⟨-, d', rest', nc, ns, port', legal, -⟩ := h hp
  obtain rfl : d' = d := (List.cons.inj (port'.symm.trans port)).1
  exact other nc ns legal

/-! ### Retiring -/

section retire
variable {s : State} (h : s.Inv)
include h

theorem State.Inv.passTurn : s.passTurn.Inv := h.of_session rfl h.memory.block h.pstatus h.process h.noMicroOp

theorem State.Inv.retireParameter : s.retireParameter.Inv :=
  h.of_session rfl h.memory.block h.pstatus h.process h.noMicroOp

/-- The descriptor of a PROCESS in progress stays at the head; without one the queue is free to move. -/
theorem State.Inv.retireCommand : s.retireCommand.Inv := by
  unfold State.retireCommand
  split
  · exact h.passTurn
  · rename_i idle
    exact h.of_session rfl h.memory.block h.pstatus (processOk_of_idle (by simpa using idle)) h.noMicroOp

theorem State.Inv.raiseStatus (k : StatusCode) : (s.raiseStatus k).Inv :=
  h.of_session rfl h.memory.block h.pstatus h.process h.noMicroOp

end retire

/-! ### The body of PROCESS -/

theorem memoryOk_processBody (nc ns : Int) (g t : F32) {s : State} (h : s.MemoryOk) :
    (s.processBody nc ns g t).MemoryOk := by
  have loop := forUpto_keeps (P := State.MemoryOk) (processedChannels nc s.cfg.numCh.toNat)
    (fun c u _ hu => memoryOk_processChannel s.writeCursor.toNat (s.delayOf t) g ns.toNat s.draws c hu) h
  exact ⟨loop.store, loop.block⟩

/-- Only channels of the build are processed (R79). -/
theorem processedChannels_le (nc : Int) (numCh : Nat) : processedChannels nc numCh ≤ numCh := by
  unfold processedChannels; omega

/-- The passes over the channels of the build leave STORE in its shape. -/
theorem storeInShape_channels (wc d : Int) (g : F32) (len k : Nat) {n : Nat} {s : State} (h : s.storeInShape)
    (hn : n ≤ s.cfg.numCh.toNat) (hcap : 0 < s.capacity.toNat) :
    (forUpto n (State.processChannel wc d g len k) s).storeInShape := by
  induction n with
  | zero => exact h
  | succ n ih =>
    have hcfg : (forUpto n (State.processChannel wc d g len k) s).cfg = s.cfg :=
      (congrArg State.cfg (withoutCells_channels wc d g len k n s) :)
    exact storeInShape_processChannel wc d g len k (ih (by omega)) (by rw [hcfg]; omega)
      (by rw [capacity_channels]; exact hcap)

theorem storeInShape_processBody (nc ns : Int) (g t : F32) {s : State} (h : s.storeInShape)
    (hcap : 0 < s.capacity.toNat) : (s.processBody nc ns g t).storeInShape :=
  storeInShape_channels _ _ g ns.toNat _ h (processedChannels_le nc _) hcap

/-- The body of PROCESS keeps R33 (b): the cursor advance is modulo CAPACITY (R84). -/
theorem State.Prepared.processBody (nc ns : Int) (g t : F32) {s : State} (h : s.Prepared) :
    (s.processBody nc ns g t).Prepared where
  capacityPos := by simpa using h.capacityPos
  capacityMax := by simpa using h.capacityMax
  cursor := by
    have hc : s.capacity ≠ 0 := fun h0 => absurd h.capacityPos (by simp [h0])
    simpa using advanceCursor_lt s.writeCursor ns hc
  cells := storeInShape_processBody nc ns g t h.cells h.capacityPos
  rate := by simpa using h.rate

theorem State.Inv.processBody (nc ns : Int) (g t : F32) {s : State} (h : s.Inv) (hc : s.capacity ≠ 0) :
    (s.processBody nc ns g t).Inv where
  build := by simpa using h.build
  session := .inr ((h.prepared hc).processBody nc ns g t)
  memory := memoryOk_processBody nc ns g t h.memory
  pstatus := by simpa using h.pstatus
  process := processOk_of_idle (processBody_inProgress nc ns g t s)
  noMicroOp := by simpa using h.noMicroOp

/-! ### The meanings -/

section meanings
variable {s t : State} (h : s.Inv)
include h

/-- A PREPARE that succeeds establishes R33 (b) afresh; one that fails changes STATUS only. -/
theorem State.Inv.execPrepare {sr : F64} {m : Int} (idle : s.inProgress = none) (e : execPrepare sr m s = .next t) :
    t.Inv := by
  rcases execPrepare_cases sr m s with ⟨n, rate, pos, fits, run⟩ | ⟨-, run⟩ | ⟨-, run⟩
  · cases run.symm.trans e
    have hn : ((BitVec.ofInt 32 n).toNat : Int) = n := toNat_ofInt_capacity pos fits
    refine ⟨h.build, .inr ⟨?_, ?_, ?_, ?_, ?_⟩, ⟨Memory.wf_nil _, h.memory.block⟩, h.pstatus,
      processOk_of_idle idle, h.noMicroOp⟩
    · show 1 ≤ (BitVec.ofInt 32 n).toNat; omega
    · show (BitVec.ofInt 32 n).toNat ≤ s.cfg.capMax.toNat; omega
    · show 0 < (BitVec.ofInt 32 n).toNat; omega
    · intro cell listed; cases listed
    · show requestedCapacity s.cfg.maxDelaySeconds sr = some (.int (BitVec.ofInt 32 n).toNat)
      rw [hn]; exact rate
  · cases run.symm.trans e; exact h.raiseStatus _
  · cases run.symm.trans e; exact h.raiseStatus _

/-- RELEASE establishes R33 (a). -/
theorem State.Inv.execRelease (idle : s.inProgress = none) (e : execRelease s = .next t) : t.Inv := by
  cases e
  exact ⟨h.build, .inl ⟨rfl, rfl, rfl⟩, ⟨Memory.wf_nil _, h.memory.block⟩, h.pstatus,
    processOk_of_idle idle, h.noMicroOp⟩

/-- PROCESS ends as a no-op, stops in progress with its own descriptor at the head, or does its body. -/
theorem State.Inv.execProcess {nc ns : Int} {d : Descriptor} {rest : List Descriptor}
    (port : s.commandPort = d :: rest) (legal : decodeCommand d = .ok (.process nc ns))
    (e : execProcess nc ns s = .next t) : t.Inv := by
  rcases execProcess_cases nc ns s with ⟨-, run⟩ | ⟨hc, pos, holds, run⟩ | ⟨-, -, -, run⟩
  · cases run.symm.trans e
    exact h.of_session rfl h.memory.block h.pstatus (processOk_of_idle rfl) h.noMicroOp
  · cases run.symm.trans e
    rcases runProcess_cases nc ns (s.inProgress.getD ⟨none, none⟩) s with ⟨q, -, run⟩ | ⟨-, run⟩
    · rw [run]
      exact h.of_session rfl h.memory.block h.pstatus
        (fun _ => ⟨hc, d, rest, nc, ns, port, legal, pos, holds⟩) h.noMicroOp
    · rw [run]; exact h.processBody _ _ _ _ hc
  · cases run.symm.trans e

/-- A legal descriptor at the head of the command port: its meaning keeps the invariant. -/
theorem State.Inv.exec_command {i : Instr} {d : Descriptor} {rest : List Descriptor}
    (port : s.commandPort = d :: rest) (legal : decodeCommand d = .ok i) (run : exec i s = .next t) : t.Inv := by
  have atCommand := decodeCommand_port legal
  cases i with
  | prepare sr m => exact h.execPrepare (h.process.idle port (by simp [legal])) run
  | release => exact h.execRelease (h.process.idle port (by simp [legal])) run
  | process nc ns => exact h.execProcess port legal run
  | setgain | setdelay | swrite | sread | sresize => cases atCommand

/-- A legal descriptor of the parameter port writes a parameter register and OK, neither of which concerns R33. -/
theorem State.Inv.exec_parameter {i : Instr} {d : Descriptor} (legal : decodeParameter d = .ok i)
    (run : exec i s = .next t) : t.Inv := by
  have atParameter := decodeParameter_port legal
  cases i with
  | setgain v => cases run; exact h.of_session rfl h.memory.block (.inl rfl) h.process h.noMicroOp
  | setdelay v => cases run; exact h.of_session rfl h.memory.block (.inl rfl) h.process h.noMicroOp
  | prepare | release | process | swrite | sread | sresize => cases atParameter

/-- An access to block memory, which no agent makes while a PROCESS is in progress (R46). -/
theorem State.Inv.accessBlock (a : BlockAccess) (owned : s.inProgress = none) :
    (s.accessBlock a).retireBlockAccess.Inv := by
  cases a with
  | read a => exact h.of_session rfl h.memory.block h.pstatus h.process h.noMicroOp
  | write a v =>
    exact h.of_session rfl (Memory.wf_write a v h.memory.block) h.pstatus (processOk_of_idle owned) h.noMicroOp
  | withdraw a =>
    exact h.of_session rfl (Memory.wf_unlist a h.memory.block) h.pstatus (processOk_of_idle owned) h.noMicroOp

end meanings

/-! ### The obligation -/

/-- Settles O16, by the inversion lemma of a step and one lemma for each agent; the store interface has nothing waiting. -/
theorem everyStepKeepsTheInvariant : Obligations.EveryStepKeepsTheInvariant := by
  intro s t h hs
  cases step_cases hs with
  | idle => exact h.passTurn
  | command _ port legal run => exact (h.exec_command port legal run).retireCommand
  | illegalCommand => exact (h.raiseStatus .illegalCommand).retireCommand
  | parameter _ _ legal run => exact (h.exec_parameter legal run).retireParameter
  | illegalParameter => exact h.of_session rfl h.memory.block (.inr rfl) h.process h.noMicroOp
  | access _ _ owned => exact h.accessBlock _ owned
  | microOp _ port => cases h.noMicroOp.symm.trans port

end Sys2Proof.Machine
end

section
/-! Proofs of the family of 20_memory.md: a descriptor as bytes (R37), the outside agents' accesses to block memory (R44,
R46), a PROCESS that lacks its samples (R45), and the order in which one block sees two parameter writes (R49).
The lemmas stand first; the settled obligations follow. -/

namespace Sys2Proof.Machine

/-! ### A descriptor as bytes -/

theorem getElem?_bytesOfNat {n k : Nat} (v : Nat) (h : k < n) :
    (bytesOfNat n v)[k]? = some (BitVec.ofNat 8 (v / 256 ^ k)) := by
  induction n generalizing k v with
  | zero => omega
  | succ n ih =>
    cases k with
    | zero => simp [bytesOfNat]
    | succ k => rw [bytesOfNat, List.getElem?_cons_succ, ih _ (by omega), Nat.div_div_eq_div_mul, pow_succ']

/-- Byte `k` of a number is its bits [8k+7:8k]. -/
theorem ofNat_bitsOf_byte (d : Descriptor) (k : Nat) :
    BitVec.ofNat 8 (bitsOf d (8 * k + 7) (8 * k)) = BitVec.ofNat 8 (d.toNat / 256 ^ k) := by
  apply BitVec.eq_of_toNat_eq
  rw [bitsOf, show 8 * k + 7 + 1 - 8 * k = 8 by omega, pow_mul]
  simp

theorem length_descriptorBytes (d : Descriptor) : (descriptorBytes d).length = 16 := length_bytesOfNat 16 d.toNat

/-- Sixteen bytes decode as the descriptor they spell, and what follows them is left over. -/
theorem decodeBytes_append (p : Port) {bs : List Byte} (rest : List Byte) (h : bs.length = 16) :
    decodeBytes p (bs ++ rest) = (decode p (BitVec.ofNat 128 (natOfBytes bs))).map fun i => (i, rest) := by
  rw [decodeBytes, if_neg (by simp [h]), List.take_left' h, List.drop_left' h]
  cases decode p (BitVec.ofNat 128 (natOfBytes bs)) <;> rfl

/-! ### Withdrawing a sample -/

@[simp] theorem Memory.read_unlist_self (m : Memory) (a : CellAddr) : (m.unlist a).read unlistedBlock a = none := by
  rw [Memory.read, Memory.listed_unlist_self]; rfl

theorem Memory.read_unlist_other (m : Memory) {a b : CellAddr} (h : b ≠ a) :
    (m.unlist a).read unlistedBlock b = m.read unlistedBlock b := by
  rw [Memory.read, Memory.listed_unlist_other m h, Memory.read]

/-! ### A turn of one agent -/

theorem step_of_blockAccess {s : State} (turn : s.nextTurn = .blockAccess) : step s = blockAccessTurn s := by
  rw [step, takeTurn, turn]

/-- Between commands the access at the head of the queue is made (R44). -/
theorem step_accessBlock {s : State} {a : BlockAccess} {rest : List BlockAccess} (turn : s.nextTurn = .blockAccess)
    (queue : s.blockAccesses = a :: rest) (idle : s.inProgress = none) :
    step s = .next (s.accessBlock a).retireBlockAccess := by
  rw [step_of_blockAccess turn, blockAccessTurn, queue, idle]; rfl

/-- The parameter port executes the legal descriptor at its head (R62). -/
theorem step_of_parameter {s : State} {e : Descriptor} {rest : List Descriptor} {i : Instr}
    (turn : s.nextTurn = .parameter) (port : s.paramPort = e :: rest) (legal : decodeParameter e = .ok i) :
    step s = mapNext State.retireParameter (exec i s) := by
  simp only [step, takeTurn, turn, parameterTurn, port, legal]

theorem step_setgain {s : State} {e : Descriptor} {rest : List Descriptor} {v : F32} (turn : s.nextTurn = .parameter)
    (port : s.paramPort = e :: rest) (legal : decodeParameter e = .ok (.setgain v)) :
    step s = .next { s with paramGain := v, pstatus := .ok, paramPort := rest, schedule := s.schedule.tail } := by
  cases s; cases port
  exact step_of_parameter turn rfl legal

theorem step_setdelay {s : State} {e : Descriptor} {rest : List Descriptor} {v : F32} (turn : s.nextTurn = .parameter)
    (port : s.paramPort = e :: rest) (legal : decodeParameter e = .ok (.setdelay v)) :
    step s = .next { s with paramDelayMs := v, pstatus := .ok, paramPort := rest, schedule := s.schedule.tail } := by
  cases s; cases port
  exact step_of_parameter turn rfl legal

/-- With no schedule left, the command port goes first (log entry 6). -/
theorem nextTurn_of_commandPort {s : State} {d : Descriptor} {rest : List Descriptor} (schedule : s.schedule = [])
    (port : s.commandPort = d :: rest) : s.nextTurn = .command := by
  simp [State.nextTurn, schedule, port]

theorem stepTimes_succ {s t : State} (n : Nat) (h : step s = .next t) : stepTimes (n + 1) s = stepTimes n t := by
  rw [stepTimes, h]

/-! ### A PROCESS at the head of the command port -/

/-- A PROCESS stands at the head of the command port, RBDL is prepared, the block is not empty and its samples are there:
on a turn of the command port it goes on (R74, R45). -/
structure State.ProcessReady (s : State) (nc ns : Int) : Prop where
  port     : ∃ d rest, s.commandPort = d :: rest ∧ decodeCommand d = .ok (.process nc ns)
  prepared : s.capacity ≠ 0
  nonempty : 0 < ns
  supplied : s.Supplied nc ns

theorem State.ProcessReady.step_eq {s : State} {nc ns : Int} (h : s.ProcessReady nc ns)
    (turn : s.nextTurn.servesCommand = true) :
    step s = .next (s.runProcess nc ns (s.inProgress.getD ⟨none, none⟩)).retireCommand := by
  obtain ⟨d, rest, port, legal⟩ := h.port
  simp only [step_of_servesCommand turn, commandTurn, port, legal, exec,
    execProcess_of_supplied h.prepared h.nonempty h.supplied, mapNext]

/-- On a turn that does not stop it, a PROCESS does its body with what it has sampled or samples now (R77). -/
theorem runProcess_of_completes (nc ns : Int) (p : Sampling) {s : State} (h : s.nextTurn.completes = true) :
    s.runProcess nc ns p = s.processBody nc ns (p.gain.getD s.paramGain) (p.delay.getD s.paramDelayMs) := by
  rcases runProcess_cases nc ns p s with ⟨-, stops, -⟩ | ⟨-, run⟩
  · simp [h] at stops
  · exact run

theorem runProcess_commandReadGain (nc ns : Int) (p : Sampling) {s : State} (h : s.nextTurn = .commandReadGain) :
    s.runProcess nc ns p = { s with inProgress := some (p.readGain s) } := by
  rw [State.runProcess, h]

/-- With nothing sampled, a turn that stops at the gain read step takes the gain as it then is (R77). -/
theorem State.ProcessReady.step_commandReadGain {s : State} {nc ns : Int} (h : s.ProcessReady nc ns)
    (turn : s.nextTurn = .commandReadGain) (idle : s.inProgress = none) :
    step s = .next { s with inProgress := some ⟨some s.paramGain, none⟩, schedule := s.schedule.tail } := by
  rw [h.step_eq (by rw [turn]; rfl), runProcess_commandReadGain _ _ _ turn, idle]; rfl

/-- A turn that does not stop it completes the PROCESS, and its descriptor leaves the port (R21). -/
theorem State.ProcessReady.step_command {s : State} {nc ns : Int} (h : s.ProcessReady nc ns)
    (turn : s.nextTurn = .command) :
    step s = .next { s.processBody nc ns s.sampledGain s.sampledDelay with
      commandPort := s.commandPort.tail, schedule := s.schedule.tail } := by
  have gain : (s.inProgress.getD ⟨none, none⟩).gain.getD s.paramGain = s.sampledGain := by
    rw [State.sampledGain]; cases s.inProgress <;> rfl
  have delay : (s.inProgress.getD ⟨none, none⟩).delay.getD s.paramDelayMs = s.sampledDelay := by
    rw [State.sampledDelay]; cases s.inProgress <;> rfl
  rw [h.step_eq (by rw [turn]; rfl), runProcess_of_completes _ _ _ (by rw [turn]; rfl), gain, delay,
    State.retireCommand, if_neg (by simp), State.passTurn, processBody_commandPort, processBody_schedule]

/-! ### What the body of PROCESS does not look at -/

/-- The parameter surface of a state, its PROCESS in progress and its schedule, replaced. Given a sampled gain and delay
time, the body of PROCESS reads none of them. -/
def State.withOutside (gain delay : F32) (code : StatusCode) (port : List Descriptor) (p : Option Sampling)
    (turns : List Turn) (s : State) : State :=
  { s with
    paramGain := gain, paramDelayMs := delay, pstatus := code, paramPort := port, inProgress := p, schedule := turns }

section withOutside
variable (gain delay : F32) (code : StatusCode) (port : List Descriptor) (p : Option Sampling)
  (turns : List Turn) (s : State)

theorem processChannel_withOutside (wc d : Int) (g : F32) (len k c : Nat) :
    (s.withOutside gain delay code port p turns).processChannel wc d g len k c =
      (s.processChannel wc d g len k c).withOutside gain delay code port p turns := by
  have writes := forUpto_comm (State.withOutside gain delay code port p turns)
    (body := State.writeSample wc c) (fun _ _ => rfl) len s
  rw [State.processChannel, writes]
  exact forUpto_comm (State.withOutside gain delay code port p turns)
    (body := fun i => State.mixSample (wc - d) g (k + c * len + i) c i) (fun _ _ => rfl) len _

/-- The body gives the same block, whatever stands outside, and ends the PROCESS. -/
theorem processBody_withOutside (nc ns : Int) (g t : F32) :
    (s.withOutside gain delay code port p turns).processBody nc ns g t =
      (s.processBody nc ns g t).withOutside gain delay code port none turns := by
  have channels := forUpto_comm (State.withOutside gain delay code port p turns)
    (fun c u => processChannel_withOutside gain delay code port p turns u
      s.writeCursor.toNat (s.delayOf t) g ns.toNat s.draws c) (processedChannels nc s.cfg.numCh.toNat) s
  exact congrArg (fun u : State =>
    (u.advanceBlock ns (processedChannels nc s.cfg.numCh.toNat * ns.toNat)).completeProcess) channels

theorem State.ProcessReady.withOutside {nc ns : Int} {s : State} (h : s.ProcessReady nc ns) :
    (s.withOutside gain delay code port p turns).ProcessReady nc ns :=
  ⟨h.port, h.prepared, h.nonempty, h.supplied⟩

/-- A completing turn with other things outside: a value already sampled is used, a missing one is taken from its
register (R77). -/
theorem State.ProcessReady.step_command_withOutside {nc ns : Int} {s : State} (h : s.ProcessReady nc ns)
    (turn : (s.withOutside gain delay code port p turns).nextTurn = .command) :
    step (s.withOutside gain delay code port p turns) = .next
      { (s.processBody nc ns ((p.bind Sampling.gain).getD gain) ((p.bind Sampling.delay).getD delay)).withOutside
          gain delay code port none turns.tail with commandPort := s.commandPort.tail } := by
  rw [(h.withOutside gain delay code port p turns).step_command turn, processBody_withOutside]; rfl

theorem withOutside_of_idle {s : State} (idle : s.inProgress = none) (schedule : s.schedule = []) :
    s.withOutside gain delay code port none [] =
      { s with paramGain := gain, paramDelayMs := delay, pstatus := code, paramPort := port } := by
  rw [State.withOutside, ← idle, ← schedule]

end withOutside

/-! ### The obligations -/

/-- Settles O3: byte `k` by induction on the bytes, the rest by reading the descriptor back from them. -/
theorem descriptorBytesAreLittleEndian : Obligations.DescriptorBytesAreLittleEndian := by
  intro p d rest
  refine ⟨length_descriptorBytes d, fun k hk => ?_, ?_⟩
  · rw [ofNat_bitsOf_byte]; exact getElem?_bytesOfNat d.toNat hk
  · rw [decodeBytes_append p rest (length_descriptorBytes d), ofNat_natOfBytes_descriptorBytes]

/-- Settles O40: three steps of the schedule leave the old gain sampled and both new values in their registers, and the
body does not look at the registers. -/
theorem oneBlockMayMixOldGainAndNewDelay : Obligations.OneBlockMayMixOldGainAndNewDelay := by
  intro s d e f rest prest nc ns v w schedule idle command legal prepared nonempty supplied param setgain setdelay
  have ready : s.ProcessReady nc ns := ⟨⟨d, rest, command, legal⟩, prepared, nonempty, supplied⟩
  have alone : step { s with paramDelayMs := w } = .next
      { (s.processBody nc ns s.paramGain w).withOutside s.paramGain w s.pstatus s.paramPort none [] with
        commandPort := s.commandPort.tail } := by
    have run := ready.step_command_withOutside s.paramGain w s.pstatus s.paramPort none []
      (nextTurn_of_commandPort rfl command)
    rwa [withOutside_of_idle _ _ _ _ idle schedule] at run
  calc stepTimes 4 { s with schedule := [.commandReadGain, .parameter, .parameter, .command] }
    _ = stepTimes 3 (s.withOutside s.paramGain s.paramDelayMs s.pstatus s.paramPort (some ⟨some s.paramGain, none⟩)
          [.parameter, .parameter, .command]) :=
        stepTimes_succ 3 ((ready.withOutside s.paramGain s.paramDelayMs s.pstatus s.paramPort s.inProgress
          [.commandReadGain, .parameter, .parameter, .command]).step_commandReadGain rfl idle)
    _ = stepTimes 2 (s.withOutside v s.paramDelayMs .ok (f :: prest) (some ⟨some s.paramGain, none⟩)
          [.parameter, .command]) :=
        stepTimes_succ 2 (step_setgain rfl param setgain)
    _ = stepTimes 1 (s.withOutside v w .ok prest (some ⟨some s.paramGain, none⟩) [.command]) :=
        stepTimes_succ 1 (step_setdelay rfl rfl setdelay)
    _ = .next { (s.processBody nc ns s.paramGain w).withOutside v w .ok prest none [] with
          commandPort := s.commandPort.tail } :=
        stepTimes_succ 0 (ready.step_command_withOutside v w .ok prest (some ⟨some s.paramGain, none⟩) [.command] rfl)
    _ = mapNext (fun t => { t with paramGain := v, pstatus := .ok, paramPort := prest })
          (step { s with paramDelayMs := w }) := by rw [alone]; rfl

/-- Settles O35, by the cases of what PROCESS can answer. -/
theorem processIsStuckWithoutItsSamples : Obligations.ProcessIsStuckWithoutItsSamples := by
  intro s nc ns prepared nonempty lacking
  rcases execProcess_cases nc ns s with ⟨nothing, -⟩ | ⟨-, -, holds, -⟩ | ⟨-, -, -, stuck⟩
  · rcases nothing with unprepared | empty
    · exact absurd unprepared prepared
    · omega
  · exact absurd ((blockHolds_iff_supplied s nc ns).1 holds) lacking
  · exact stuck

/-- Settles O57: an access is waiting, and the turn finds a PROCESS in progress. -/
theorem blockAccessDuringProcessIsStuck : Obligations.BlockAccessDuringProcessIsStuck := by
  intro s a rest turn queue busy
  rw [step_of_blockAccess turn, blockAccessTurn, queue]
  exact if_pos (Option.isSome_iff_ne_none.2 busy)

/-- Settles O58: the step is the access at the head of the queue, and a read after a write or a withdrawal is a law of the
sparse memory. -/
theorem blockAccessBetweenCommands : Obligations.BlockAccessBetweenCommands := by
  intro s a v rest turn idle
  refine ⟨fun queue => ?_, fun queue => ⟨_, step_accessBlock turn queue idle, ?_, ?_, ?_, rfl⟩,
    fun queue => ⟨_, step_accessBlock turn queue idle, ?_, ?_, ?_, rfl⟩⟩
  · rw [step_accessBlock turn queue idle]
    simp [State.accessBlock, State.retireBlockAccess, State.passTurn, queue]
  · exact Memory.read_write_self unlistedBlock s.block a v
  · exact fun b hb => Memory.read_write_other unlistedBlock s.block v hb
  · exact congrArg List.tail queue
  · exact Memory.read_unlist_self s.block a
  · exact fun b hb => Memory.read_unlist_other s.block hb
  · exact congrArg List.tail queue

end Sys2Proof.Machine
end


section
/-! Proofs of the family of 30_encoding.md: decode and encode on the three ports (R55 to R63).
The decoders are taken apart once: `decode_ok_iff` says that a port decodes a descriptor exactly when it has the bits of a
row of the opcode map (`OpcodeRow`). The round trips, the decoding bit by bit and the lists of illegal descriptors follow
from the rows; the settled obligations stand last. -/

namespace Sys2Proof.Machine

/-! ### The rows of the opcode map -/

/-- The eight rows of the opcode map (R60): the fixed fields a descriptor has at its port, and the operands in its other
fields (R56 to R59). -/
inductive OpcodeRow (d : Descriptor) : Port → Instr → Prop where
  | prepare {sr : F64} {m : Int} (reserved : fieldReserved d = 0) (opc : fieldOpc d = 0x01)
      (rate : fieldW2 d ++ fieldW1 d = sr) (maxBlock : (fieldW3 d).toInt = m) : OpcodeRow d .command (.prepare sr m)
  | release (reserved : fieldReserved d = 0) (opc : fieldOpc d = 0x02)
      (w1 : fieldW1 d = 0) (w2 : fieldW2 d = 0) (w3 : fieldW3 d = 0) : OpcodeRow d .command .release
  | process {nc ns : Int} (reserved : fieldReserved d = 0) (opc : fieldOpc d = 0x03) (w3 : fieldW3 d = 0)
      (channels : (fieldW1 d).toInt = nc) (samples : (fieldW2 d).toInt = ns) : OpcodeRow d .command (.process nc ns)
  | setgain {v : F32} (reserved : fieldReserved d = 0) (w2 : fieldW2 d = 0) (w3 : fieldW3 d = 0)
      (opc : fieldOpc d = 0x10) (val : fieldW1 d = v) : OpcodeRow d .parameter (.setgain v)
  | setdelay {v : F32} (reserved : fieldReserved d = 0) (w2 : fieldW2 d = 0) (w3 : fieldW3 d = 0)
      (opc : fieldOpc d = 0x11) (val : fieldW1 d = v) : OpcodeRow d .parameter (.setdelay v)
  | swrite {c : Nat} {p : Int} {v : F32} (reserved : fieldUReserved d = 0) (top : fieldUTop d = 0) (uop : fieldUop d = 1)
      (channel : (fieldCh d).toNat = c) (position : (fieldPos d).toInt = p) (val : fieldData d = v) :
      OpcodeRow d .store (.swrite c p v)
  | sread {c : Nat} {p : Int} (reserved : fieldUReserved d = 0) (top : fieldUTop d = 0) (uop : fieldUop d = 2)
      (data : fieldData d = 0) (channel : (fieldCh d).toNat = c) (position : (fieldPos d).toInt = p) :
      OpcodeRow d .store (.sread c p)
  | sresize {n : Nat} {cap : Int} (reserved : fieldUReserved d = 0) (top : fieldUTop d = 0) (uop : fieldUop d = 3)
      (data : fieldData d = 0) (channels : (fieldCh d).toNat = n) (capacity : (fieldPos d).toInt = cap) :
      OpcodeRow d .store (.sresize n cap)

theorem OpcodeRow.port {d : Descriptor} {p : Port} {i : Instr} (row : OpcodeRow d p i) : i.port = p := by
  cases row <;> rfl

theorem OpcodeRow.decode_eq {d : Descriptor} {p : Port} {i : Instr} (row : OpcodeRow d p i) : decode p d = .ok i := by
  cases row <;> simp [decode, decodeCommand, decodeParameter, decodeMicroOp, *]

theorem opcodeRow_of_decodeCommand {d : Descriptor} {i : Instr} (h : decodeCommand d = .ok i) :
    OpcodeRow d .command i := by
  unfold decodeCommand at h
  split_ifs at h with reserved prepare release zero process w3
  all_goals cases h
  · exact .prepare (not_not.1 reserved) prepare rfl rfl
  · exact .release (not_not.1 reserved) release zero.1 zero.2.1 zero.2.2
  · exact .process (not_not.1 reserved) process w3 rfl rfl

theorem opcodeRow_of_decodeParameter {d : Descriptor} {i : Instr} (h : decodeParameter d = .ok i) :
    OpcodeRow d .parameter i := by
  unfold decodeParameter at h
  split_ifs at h with reserved words setgain setdelay
  all_goals cases h
  all_goals obtain ⟨w2, w3⟩ := not_or.1 words
  · exact .setgain (not_not.1 reserved) (not_not.1 w2) (not_not.1 w3) setgain rfl
  · exact .setdelay (not_not.1 reserved) (not_not.1 w2) (not_not.1 w3) setdelay rfl

/-- A UOP that is not 00, 01 or 10 is 11. -/
theorem uop_eq_three {u : BitVec 2} (h0 : u ≠ 0) (h1 : u ≠ 1) (h2 : u ≠ 2) : u = 3 := by
  revert u; decide

theorem opcodeRow_of_decodeMicroOp {u : Descriptor} {i : Instr} (h : decodeMicroOp u = .ok i) :
    OpcodeRow u .store i := by
  unfold decodeMicroOp at h
  split_ifs at h with fields swrite unknown data sread
  all_goals cases h
  all_goals obtain ⟨reserved, top⟩ := not_or.1 fields
  · exact .swrite (not_not.1 reserved) (not_not.1 top) swrite rfl rfl rfl
  · exact .sread (not_not.1 reserved) (not_not.1 top) sread (not_not.1 data) rfl rfl
  · exact .sresize (not_not.1 reserved) (not_not.1 top) (uop_eq_three unknown swrite sread) (not_not.1 data) rfl rfl

/-- What a port decodes: the rows of the opcode map at that port, and nothing else. -/
theorem decode_ok_iff {p : Port} {d : Descriptor} {i : Instr} : decode p d = .ok i ↔ OpcodeRow d p i := by
  refine ⟨fun h => ?_, OpcodeRow.decode_eq⟩
  cases p with
  | command => exact opcodeRow_of_decodeCommand h
  | parameter => exact opcodeRow_of_decodeParameter h
  | store => exact opcodeRow_of_decodeMicroOp h

/-- A port rejects a descriptor exactly when it has the bits of no row at that port (R64). -/
theorem decode_error_iff {p : Port} {d : Descriptor} : (∃ e, decode p d = .error e) ↔ ∀ i, ¬ OpcodeRow d p i := by
  simp only [← decode_ok_iff]
  cases decode p d <;> simp

/-! ### Encoding -/

/-- The encoder writes the row of a well-formed instruction. -/
theorem opcodeRow_encode {i : Instr} (wf : i.wellFormed = true) : OpcodeRow (encode i) i.port i := by
  cases i with
  | prepare sr m =>
    obtain ⟨opc, reserved⟩ := Laws.TableRow.prepare sr m
    exact .prepare reserved opc (by simp [encode, halves_append]) (by rw [encode, fieldW3_words, toInt_ofInt32 wf])
  | release => exact .release (by decide) (by decide) (by decide) (by decide) (by decide)
  | process nc ns =>
    obtain ⟨opc, reserved, w3⟩ := Laws.TableRow.process nc ns
    obtain ⟨hc, hs⟩ := Bool.and_eq_true_iff.1 wf
    exact .process reserved opc w3 (by rw [encode, fieldW1_words, toInt_ofInt32 hc])
      (by rw [encode, fieldW2_words, toInt_ofInt32 hs])
  | setgain v =>
    obtain ⟨opc, reserved, w2, w3⟩ := Laws.TableRow.setgain v
    exact .setgain reserved w2 w3 opc (fieldW1_words ..)
  | setdelay v =>
    obtain ⟨opc, reserved, w2, w3⟩ := Laws.TableRow.setdelay v
    exact .setdelay reserved w2 w3 opc (fieldW1_words ..)
  | swrite c p v =>
    obtain ⟨uop, reserved, top⟩ := Laws.TableRow.swrite c p v
    obtain ⟨hc, hp⟩ := Bool.and_eq_true_iff.1 wf
    exact .swrite reserved top uop (by rw [encode, fieldCh_micro, toNat_ofNat16 hc])
      (by rw [encode, fieldPos_micro, toInt_ofInt40 hp]) (fieldData_micro ..)
  | sread c p =>
    obtain ⟨uop, reserved, data, top⟩ := Laws.TableRow.sread c p
    obtain ⟨hc, hp⟩ := Bool.and_eq_true_iff.1 wf
    exact .sread reserved top uop data (by rw [encode, fieldCh_micro, toNat_ofNat16 hc])
      (by rw [encode, fieldPos_micro, toInt_ofInt40 hp])
  | sresize n cap =>
    obtain ⟨uop, reserved, data, top⟩ := Laws.TableRow.sresize n cap
    obtain ⟨hc, hp⟩ := Bool.and_eq_true_iff.1 wf
    exact .sresize reserved top uop data (by rw [encode, fieldCh_micro, toNat_ofNat16 hc])
      (by rw [encode, fieldPos_micro, toInt_ofInt40 hp])

theorem OpcodeRow.wellFormed {d : Descriptor} {p : Port} {i : Instr} (row : OpcodeRow d p i) :
    i.wellFormed = true := by
  cases row <;> subst_vars <;> simp [Instr.wellFormed, isInt32_toInt, isInt40_toInt, isUint16_toNat]

/-- The words of a descriptor whose W0 holds an opcode and no reserved bit are all of its bits. -/
theorem wordsToDescriptor_eq {d : Descriptor} {opc : BitVec 8} {w1 w2 w3 : Word} (reserved : fieldReserved d = 0)
    (ho : fieldOpc d = opc) (h1 : fieldW1 d = w1) (h2 : fieldW2 d = w2) (h3 : fieldW3 d = w3) :
    wordsToDescriptor w3 w2 w1 ((0 : BitVec 24) ++ opc) = d := by
  rw [← ho, ← h1, ← h2, ← h3, ← reserved, words_of_fields]

/-- The operands of a micro-operation whose reserved fields are 0 are all of its bits. -/
theorem microToDescriptor_eq {u : Descriptor} {uop : BitVec 2} {c : Nat} {p : Int} {v : Word}
    (reserved : fieldUReserved u = 0) (top : fieldUTop u = 0) (hu : fieldUop u = uop) (hc : (fieldCh u).toNat = c)
    (hp : (fieldPos u).toInt = p) (hv : fieldData u = v) :
    microToDescriptor v (BitVec.ofInt 40 p) (BitVec.ofNat 16 c) uop = u := by
  rw [← hu, ← hc, ← hp, ← hv, BitVec.ofInt_toInt, BitVec.ofNat_toNat, BitVec.setWidth_eq, micro_of_fields reserved top]

/-- A row's instruction is encoded as the descriptor. -/
theorem OpcodeRow.encode_eq {d : Descriptor} {p : Port} {i : Instr} (row : OpcodeRow d p i) : encode i = d := by
  cases row with
  | prepare reserved opc rate maxBlock =>
    rw [← rate, ← maxBlock, encode, high_of_append, low_of_append, BitVec.ofInt_toInt]
    exact wordsToDescriptor_eq reserved opc rfl rfl rfl
  | release reserved opc w1 w2 w3 => exact wordsToDescriptor_eq reserved opc w1 w2 w3
  | process reserved opc w3 channels samples =>
    rw [← channels, ← samples, encode, BitVec.ofInt_toInt, BitVec.ofInt_toInt]
    exact wordsToDescriptor_eq reserved opc rfl rfl w3
  | setgain reserved w2 w3 opc val => exact wordsToDescriptor_eq reserved opc val w2 w3
  | setdelay reserved w2 w3 opc val => exact wordsToDescriptor_eq reserved opc val w2 w3
  | swrite reserved top uop channel position val => exact microToDescriptor_eq reserved top uop channel position val
  | sread reserved top uop data channel position => exact microToDescriptor_eq reserved top uop channel position data
  | sresize reserved top uop data channels capacity => exact microToDescriptor_eq reserved top uop channels capacity data

/-! ### Bits -/

theorem bitsOf_127_64_eq_zero_iff (d : Descriptor) : bitsOf d 127 64 = 0 ↔ fieldW2 d = 0 ∧ fieldW3 d = 0 := by
  rw [bitsOf_127_64]
  bv_omega

theorem bitsOf_127_32_eq_zero_iff (d : Descriptor) :
    bitsOf d 127 32 = 0 ↔ fieldW1 d = 0 ∧ fieldW2 d = 0 ∧ fieldW3 d = 0 := by
  rw [bitsOf_127_32]
  bv_omega

/-- W2 and W1 put together are the number `W2 * 2^32 + W1` (R59). -/
theorem append_eq_ofNat (a b : Word) : (a ++ b : BitVec (32 + 32)) = BitVec.ofNat 64 (a.toNat * 2 ^ 32 + b.toNat) := by
  apply BitVec.eq_of_toNat_eq
  have ha := a.isLt
  have hb := b.isLt
  rw [BitVec.toNat_append, ← Nat.shiftLeft_add_eq_or_of_lt hb, Nat.shiftLeft_eq, BitVec.toNat_ofNat, Nat.mod_eq_of_lt]
  omega

theorem illegalOnCommandPort_iff_fields (d : Descriptor) : IllegalOnCommandPort d ↔
    (fieldOpc d ≠ 1 ∧ fieldOpc d ≠ 2 ∧ fieldOpc d ≠ 3) ∨ fieldReserved d ≠ 0 ∨
      (fieldOpc d = 2 ∧ (fieldW1 d ≠ 0 ∨ fieldW2 d ≠ 0 ∨ fieldW3 d ≠ 0)) ∨ (fieldOpc d = 3 ∧ fieldW3 d ≠ 0) := by
  simp [IllegalOnCommandPort, bitsOf_opc, bitsOf_reserved, bitsOf_w1, bitsOf_w2, bitsOf_w3, BitVec.toNat_eq_nat]

theorem illegalOnParameterPort_iff_fields (d : Descriptor) : IllegalOnParameterPort d ↔
    (fieldOpc d ≠ 16 ∧ fieldOpc d ≠ 17) ∨ fieldReserved d ≠ 0 ∨ fieldW2 d ≠ 0 ∨ fieldW3 d ≠ 0 := by
  simp [IllegalOnParameterPort, bitsOf_opc, bitsOf_reserved, bitsOf_w2, bitsOf_w3, BitVec.toNat_eq_nat]

theorem illegalMicroOp_iff_fields (u : Descriptor) : IllegalMicroOp u ↔
    fieldUop u = 0 ∨ fieldUReserved u ≠ 0 ∨ fieldUTop u ≠ 0 ∨
      ((fieldUop u = 2 ∨ fieldUop u = 3) ∧ fieldData u ≠ 0) := by
  simp [IllegalMicroOp, bitsOf_uop, bitsOf_ureserved, bitsOf_utop, bitsOf_data, BitVec.toNat_eq_nat]

/-! ### The illegal descriptors of R61 and R63 -/

theorem illegalOnCommandPort_iff (d : Descriptor) : IllegalOnCommandPort d ↔ ∃ e, decode .command d = .error e := by
  rw [decode_error_iff, illegalOnCommandPort_iff_fields]
  constructor
  · intro illegal i row
    cases row <;> simp_all
  · intro noRow
    by_contra legal
    push Not at legal
    obtain ⟨known, reserved, release, process⟩ := legal
    by_cases prepare : fieldOpc d = 1
    · exact noRow _ (.prepare reserved prepare rfl rfl)
    by_cases opc : fieldOpc d = 2
    · obtain ⟨w1, w2, w3⟩ := release opc
      exact noRow _ (.release reserved opc w1 w2 w3)
    · exact noRow _ (.process reserved (known prepare opc) (process (known prepare opc)) rfl rfl)

theorem illegalOnParameterPort_iff (d : Descriptor) :
    IllegalOnParameterPort d ↔ ∃ e, decode .parameter d = .error e := by
  rw [decode_error_iff, illegalOnParameterPort_iff_fields]
  constructor
  · intro illegal i row
    cases row <;> simp_all
  · intro noRow
    by_contra legal
    push Not at legal
    obtain ⟨known, reserved, w2, w3⟩ := legal
    by_cases setgain : fieldOpc d = 16
    · exact noRow _ (.setgain reserved w2 w3 setgain rfl)
    · exact noRow _ (.setdelay reserved w2 w3 (known setgain) rfl)

theorem illegalMicroOp_iff (u : Descriptor) : IllegalMicroOp u ↔ ∃ e, decode .store u = .error e := by
  rw [decode_error_iff, illegalMicroOp_iff_fields]
  constructor
  · intro illegal i row
    cases row <;> simp_all
  · intro noRow
    by_contra legal
    push Not at legal
    obtain ⟨known, reserved, top, data⟩ := legal
    by_cases swrite : fieldUop u = 1
    · exact noRow _ (.swrite reserved top swrite rfl rfl rfl)
    by_cases sread : fieldUop u = 2
    · exact noRow _ (.sread reserved top sread (data (.inl sread)) rfl rfl)
    · have sresize := uop_eq_three known swrite sread
      exact noRow _ (.sresize reserved top sresize (data (.inr sresize)) rfl rfl)

/-! ### A turn that meets an illegal descriptor -/

/-- With no PROCESS in progress an illegal descriptor leaves the command port, and STATUS gets its code. -/
theorem step_illegalCommand {s : State} {d : Descriptor} {rest : List Descriptor}
    (turn : s.nextTurn.servesCommand = true) (idle : s.inProgress = none) (port : s.commandPort = d :: rest)
    (illegal : ∃ e, decode .command d = .error e) :
    step s = .next { s with status := .illegalCommand, commandPort := rest, schedule := s.schedule.tail } := by
  obtain ⟨e, he⟩ := illegal
  rw [decode] at he
  rw [step_of_servesCommand turn]
  simp [commandTurn, port, he, State.retireCommand, idle, State.raiseStatus, State.passTurn]

theorem step_illegalParameter {s : State} {d : Descriptor} {rest : List Descriptor}
    (turn : s.nextTurn = .parameter) (port : s.paramPort = d :: rest)
    (illegal : ∃ e, decode .parameter d = .error e) :
    step s = .next { s with pstatus := .illegalCommand, paramPort := rest, schedule := s.schedule.tail } := by
  obtain ⟨e, he⟩ := illegal
  rw [decode] at he
  simp [step, takeTurn, turn, parameterTurn, port, he, State.retireParameter, State.raiseParamStatus, State.passTurn]

theorem step_illegalMicroOp {s : State} {u : Descriptor} {rest : List Descriptor}
    (turn : s.nextTurn = .store) (port : s.microPort = u :: rest) (illegal : ∃ e, decode .store u = .error e) :
    step s = .fault .illegalMicroOp := by
  obtain ⟨e, he⟩ := illegal
  rw [decode] at he
  simp only [step, takeTurn, turn, storeTurn, port, he]

/-! ### The obligations -/

/-- Settles O1: the encoder writes the instruction's row, and the port decodes the row. -/
theorem decodeOfEncodeIsTheInstruction : Obligations.DecodeOfEncodeIsTheInstruction :=
  fun _ wf => decode_ok_iff.2 (opcodeRow_encode wf)

/-- Settles O2: what a port decodes is a row, whose fields are all the bits of the descriptor. -/
theorem encodeOfDecodeIsTheDescriptor : Obligations.EncodeOfDecodeIsTheDescriptor := by
  intro p d i h
  have row := decode_ok_iff.1 h
  exact ⟨row.wellFormed, row.port, row.encode_eq⟩

/-- Settles O4: the bits named are those of a row, and the illegal descriptors are those of no row. -/
theorem commandPortDecodesAsStated : Obligations.CommandPortDecodesAsStated := by
  intro d
  simp only [bitsOf_127_32_eq_zero_iff, bitsOf_opc, bitsOf_reserved, bitsOf_w1, bitsOf_w2, bitsOf_w3,
    BitVec.toNat_eq_nat, ← append_eq_ofNat, ← toInt_eq_sext _ (show 0 < 32 by decide)]
  refine ⟨fun ⟨_, reserved⟩ ⟨_, opc⟩ => ?_, fun ⟨_, reserved⟩ ⟨_, opc⟩ ⟨w1, w2, w3⟩ => ?_,
    fun ⟨_, reserved⟩ ⟨_, opc⟩ ⟨_, w3⟩ => ?_, illegalOnCommandPort_iff d⟩
  · exact decode_ok_iff.2 (.prepare reserved opc rfl rfl)
  · exact decode_ok_iff.2 (.release reserved opc w1 w2 w3)
  · exact decode_ok_iff.2 (.process reserved opc w3 rfl rfl)

/-- Settles O5: as on the command port. -/
theorem parameterPortDecodesAsStated : Obligations.ParameterPortDecodesAsStated := by
  intro d
  simp only [bitsOf_127_64_eq_zero_iff, bitsOf_opc, bitsOf_reserved, bitsOf_w1, BitVec.toNat_eq_nat,
    BitVec.ofNat_toNat, BitVec.setWidth_eq]
  refine ⟨fun ⟨_, reserved⟩ ⟨w2, w3⟩ ⟨_, opc⟩ => ?_, fun ⟨_, reserved⟩ ⟨w2, w3⟩ ⟨_, opc⟩ => ?_,
    illegalOnParameterPort_iff d⟩
  · exact decode_ok_iff.2 (.setgain reserved w2 w3 opc rfl)
  · exact decode_ok_iff.2 (.setdelay reserved w2 w3 opc rfl)

/-- Settles O6: a micro-operation that R63 leaves a meaning has its reserved fields 0, and DATA 0 where
its row asks that. -/
theorem microOperationDecodesAsStated : Obligations.MicroOperationDecodesAsStated := by
  intro u
  have fields (legal : ¬ IllegalMicroOp u) : fieldUReserved u = 0 ∧ fieldUTop u = 0 ∧
      (fieldUop u = 2 ∨ fieldUop u = 3 → fieldData u = 0) := by
    rw [illegalMicroOp_iff_fields] at legal
    push Not at legal
    exact legal.2
  simp only [bitsOf_uop, bitsOf_ch, bitsOf_pos, bitsOf_data, BitVec.toNat_eq_nat, BitVec.ofNat_toNat,
    BitVec.setWidth_eq, ← toInt_eq_sext _ (show 0 < 40 by decide)]
  refine ⟨fun legal ⟨_, uop⟩ => ?_, fun legal ⟨_, uop⟩ => ?_, fun legal ⟨_, uop⟩ => ?_, illegalMicroOp_iff u⟩
  all_goals obtain ⟨reserved, top, data⟩ := fields legal
  · exact decode_ok_iff.2 (.swrite reserved top uop rfl rfl rfl)
  · exact decode_ok_iff.2 (.sread reserved top uop (data (.inl uop)) rfl rfl)
  · exact decode_ok_iff.2 (.sresize reserved top uop (data (.inr uop)) rfl rfl)

/-- Settles O11, by the turn of each port that meets an illegal descriptor. -/
theorem illegalDescriptorsChangeOnlyTheirStatus : Obligations.IllegalDescriptorsChangeOnlyTheirStatus :=
  fun _ d _ =>
  ⟨fun turn idle port illegal => step_illegalCommand turn idle port ((illegalOnCommandPort_iff d).1 illegal),
    fun turn port illegal => step_illegalParameter turn port ((illegalOnParameterPort_iff d).1 illegal)⟩

/-- Settles O12, by the turn of the store interface. -/
theorem illegalMicroOperationFaults : Obligations.IllegalMicroOperationFaults :=
  fun _ u _ turn port illegal => step_illegalMicroOp turn port ((illegalMicroOp_iff u).1 illegal)

end Sys2Proof.Machine
end


section
/-! Proofs of the family of 40_ring_buffer_store.md: the wraparound mapping (R68, R69), the precondition and the meanings of
the three micro-operations (R70 to R73), and which faults a step can stop with.
The lemmas stand first; the settled obligations follow. -/

namespace Sys2Proof.Machine

/-! ### The wraparound mapping -/

/-- The source's formula is never negative, so its place among the natural numbers loses nothing (R68). -/
theorem physicalPosition_eq_tmod (p : Int) {cap : Nat} (h : 0 < cap) :
    (physicalPosition p cap : Int) = Int.tmod (Int.tmod p cap + cap) cap := by
  have lower : -(cap : Int) < Int.tmod p cap := Int.lt_tmod_of_pos p (by exact_mod_cast h)
  exact Int.toNat_of_nonneg (Int.tmod_nonneg _ (by omega))

/-- Congruent positions name one cell (R69). -/
theorem physicalPosition_congr {p p' : Int} {cap : Nat} (h : 0 < cap) (e : p' % cap = p % cap) :
    physicalPosition p' cap = physicalPosition p cap := by
  rw [← physicalPosition_eq p h, ← physicalPosition_eq p' h] at e
  exact_mod_cast e

/-! ### The precondition of SWRITE and SREAD -/

theorem capacity_toNat_pos {s : State} (h : s.capacity ≠ 0) : 0 < s.capacity.toNat :=
  Nat.pos_of_ne_zero (BitVec.toNat_ne.1 h)

theorem storeFault_unprepared {s : State} (h : s.capacity = 0) (c : Nat) : s.storeFault c = some .storeUnprepared :=
  if_pos h

theorem storeFault_channel {s : State} {c : Nat} (h : s.capacity ≠ 0) (hc : s.cfg.numCh.toNat ≤ c) :
    s.storeFault c = some .storeChannelOutOfRange := by
  rw [State.storeFault, if_neg h, if_pos hc]

theorem storeFault_none {s : State} {c : Nat} (h : s.capacity ≠ 0) (hc : c < s.cfg.numCh.toNat) :
    s.storeFault c = none := by
  rw [State.storeFault, if_neg h, if_neg (not_le.2 hc)]

section precondition
variable {s : State} {c : Nat} (p : Int) (v : F32)

theorem exec_swrite_of_storeFault {f : Fault} (h : s.storeFault c = some f) : exec (.swrite c p v) s = .fault f := by
  rw [exec, execSwrite, h]

theorem exec_sread_of_storeFault {f : Fault} (h : s.storeFault c = some f) : exec (.sread c p) s = .fault f := by
  rw [exec, execSread, h]

theorem exec_swrite_eq (h : s.storeFault c = none) :
    exec (.swrite c p v) s = .next ((s.storeWrite c p v).replyStore .nothing) := by
  rw [exec, execSwrite, h]

theorem exec_sread_eq (h : s.storeFault c = none) :
    exec (.sread c p) s = .next (s.replyStore (.value (s.storeRead c p))) := by
  rw [exec, execSread, h]

end precondition

/-! ### Cells -/

/-- Every cell of STORE reads as a pattern, that of an unlisted one being +0.0 (R48). -/
theorem read_unlistedStore (m : Memory) (a : CellAddr) : m.read unlistedStore a = some ((m.listed a).getD 0) := by
  rw [Memory.read]; cases m.listed a <;> rfl

/-- `StoreRead` is the read of the cell that the position wraps to (R73). -/
theorem storeRead_eq_listed (s : State) (c : Nat) (p : Int) :
    s.storeRead c p = (s.store.listed (s.storeCell c p)).getD 0 := by
  rw [State.storeRead, read_unlistedStore]; rfl

/-- After a resize, or before any SWRITE, every cell reads +0.0 (R48, R71). -/
theorem storeRead_of_noCells {s : State} (h : s.store = []) (c : Nat) (p : Int) : s.storeRead c p = 0 := by
  rw [storeRead_eq_listed, h]; rfl

/-! ### SRESIZE -/

section resize
variable {s : State} {n : Nat} {cap : Int}

theorem resizeStore_nonpos (h : cap ≤ 0) : resizeStore n cap s = .ok (.invalidCapacity, s) := if_pos h

theorem resizeStore_exceeds (h : 0 < cap) (k : (s.cfg.capMax.toNat : Int) < cap) :
    resizeStore n cap s = .ok (.capacityExceedsStorage, s) := by
  rw [resizeStore, if_neg (not_le.2 h), if_pos k]

theorem resizeStore_mismatch (h : 0 < cap) (k : cap ≤ s.cfg.capMax.toNat) (hn : n ≠ s.cfg.numCh.toNat) :
    resizeStore n cap s = .error .resizeChannelMismatch := by
  rw [resizeStore, if_neg (not_le.2 h), if_neg (not_lt.2 k), if_pos hn]

theorem resizeStore_fits (h : 0 < cap) (k : cap ≤ s.cfg.capMax.toNat) (hn : n = s.cfg.numCh.toNat) :
    resizeStore n cap s = .ok (.ok, { s with store := [], capacity := BitVec.ofInt 32 cap, writeCursor := 0 }) := by
  rw [resizeStore, if_neg (not_le.2 h), if_neg (not_lt.2 k), if_neg (not_not.2 hn)]

/-- The code SRESIZE returns is the reply of the store interface (R58, R71). -/
theorem exec_sresize_of_ok {code : StatusCode} {t : State} (h : resizeStore n cap s = .ok (code, t)) :
    exec (.sresize n cap) s = .next (t.replyStore (.code code)) := by
  rw [exec, execSresize, h]

theorem exec_sresize_of_error {f : Fault} (h : resizeStore n cap s = .error f) :
    exec (.sresize n cap) s = .fault f := by
  rw [exec, execSresize, h]

end resize

/-! ### What can stop a step -/

/-- Every way a step can fault: a PROCESS without its samples, an access to block memory during a PROCESS, or a
micro-operation from outside the engine that has no meaning or breaks its precondition (R45, R46, R63, R70, R71). -/
inductive StopsWith (s : State) : Fault → Prop where
  | sampleMissing {d rest nc ns} (turn : s.nextTurn.servesCommand = true) (port : s.commandPort = d :: rest)
      (legal : decodeCommand d = .ok (.process nc ns)) (prepared : s.capacity ≠ 0) (nonempty : 0 < ns)
      (lacking : ¬ s.Supplied nc ns) : StopsWith s .blockSampleMissing
  | accessDuringProcess {a rest} (turn : s.nextTurn = .blockAccess) (queue : s.blockAccesses = a :: rest)
      (busy : s.inProgress ≠ none) : StopsWith s .blockAccessDuringProcess
  | microOp {u rest i f} (turn : s.nextTurn = .store) (port : s.microPort = u :: rest)
      (legal : decodeMicroOp u = .ok i) (run : exec i s = .fault f) : StopsWith s f
  | illegalMicroOp {u rest e} (turn : s.nextTurn = .store) (port : s.microPort = u :: rest)
      (illegal : decodeMicroOp u = .error e) : StopsWith s .illegalMicroOp

/-- An outcome that is a next state, or a fault of the given kind: nothing is refused. -/
def GoesOnOr (stops : Fault → Prop) (o : Host.Outcome State Fault Refusal) : Prop :=
  (∃ t, o = .next t) ∨ ∃ f, o = .fault f ∧ stops f

theorem goesOnOr_next (stops : Fault → Prop) (t : State) : GoesOnOr stops (.next t) := .inl ⟨t, rfl⟩

theorem goesOnOr_fault {stops : Fault → Prop} {f : Fault} (h : stops f) : GoesOnOr stops (.fault f) := .inr ⟨f, rfl, h⟩

theorem GoesOnOr.mono {stops stops' : Fault → Prop} {o : Host.Outcome State Fault Refusal} (h : GoesOnOr stops o)
    (le : ∀ f, stops f → stops' f) : GoesOnOr stops' o :=
  h.imp_right fun ⟨f, e, hf⟩ => ⟨f, e, le f hf⟩

/-- Retiring changes no fault. -/
theorem GoesOnOr.mapNext {stops : Fault → Prop} {o : Host.Outcome State Fault Refusal} (h : GoesOnOr stops o)
    (g : State → State) : GoesOnOr stops (mapNext g o) := by
  rcases h with ⟨t, rfl⟩ | ⟨f, rfl, hf⟩
  · exact goesOnOr_next stops (g t)
  · exact goesOnOr_fault hf

/-- Of the commands only PROCESS can stop, for lack of a sample (R45, R109): PREPARE gives SRESIZE the row count of the
build (R94). -/
theorem exec_command_goesOnOr {i : Instr} (atCommand : i.port = .command) (s : State) :
    GoesOnOr (fun f => f = .blockSampleMissing ∧
      ∃ nc ns, i = .process nc ns ∧ s.capacity ≠ 0 ∧ 0 < ns ∧ ¬ s.Supplied nc ns) (exec i s) := by
  cases i with
  | prepare sr m =>
    rcases execPrepare_cases sr m s with ⟨n, -, -, -, run⟩ | ⟨-, run⟩ | ⟨-, run⟩ <;>
      exact .inl ⟨_, run⟩
  | release => exact goesOnOr_next _ _
  | process nc ns =>
    rcases execProcess_cases nc ns s with ⟨-, run⟩ | ⟨-, -, -, run⟩ | ⟨prepared, nonempty, lacking, run⟩
    · exact .inl ⟨_, run⟩
    · exact .inl ⟨_, run⟩
    · refine .inr ⟨_, run, rfl, nc, ns, rfl, prepared, nonempty, fun supplied => ?_⟩
      simp [(blockHolds_iff_supplied s nc ns).2 supplied] at lacking
  | setgain | setdelay | swrite | sread | sresize => cases atCommand

/-- SETGAIN and SETDELAY always complete (R98, R99). -/
theorem exec_parameter_goesOn {i : Instr} (atParameter : i.port = .parameter) (s : State) :
    ∃ t, exec i s = .next t := by
  cases i with
  | setgain v => exact ⟨_, rfl⟩
  | setdelay v => exact ⟨_, rfl⟩
  | prepare | release | process | swrite | sread | sresize => cases atParameter

/-- A micro-operation completes or faults (R70, R71). -/
theorem exec_store_goesOnOr {i : Instr} (atStore : i.port = .store) (s : State) :
    GoesOnOr (fun f => exec i s = .fault f) (exec i s) := by
  cases i with
  | swrite c p v =>
    cases h : s.storeFault c with
    | some f => have run := exec_swrite_of_storeFault p v h; exact .inr ⟨f, run, run⟩
    | none => exact .inl ⟨_, exec_swrite_eq p v h⟩
  | sread c p =>
    cases h : s.storeFault c with
    | some f => have run := exec_sread_of_storeFault p h; exact .inr ⟨f, run, run⟩
    | none => exact .inl ⟨_, exec_sread_eq p h⟩
  | sresize n cap =>
    cases h : resizeStore n cap s with
    | error f => have run := exec_sresize_of_error h; exact .inr ⟨f, run, run⟩
    | ok r => exact .inl ⟨_, exec_sresize_of_ok h⟩
  | prepare | release | process | setgain | setdelay => cases atStore

section turns
variable {s : State}

theorem commandTurn_goesOnOr (turn : s.nextTurn.servesCommand = true) : GoesOnOr (StopsWith s) (commandTurn s) := by
  unfold commandTurn
  split
  · exact goesOnOr_next _ _
  · rename_i d rest port
    split
    · rename_i i legal
      refine ((exec_command_goesOnOr (decodeCommand_port legal) s).mono ?_).mapNext _
      rintro _ ⟨rfl, nc, ns, rfl, prepared, nonempty, lacking⟩
      exact .sampleMissing turn port legal prepared nonempty lacking
    · exact goesOnOr_next _ _

theorem parameterTurn_goesOnOr (s : State) : GoesOnOr (StopsWith s) (parameterTurn s) := by
  unfold parameterTurn
  split
  · exact goesOnOr_next _ _
  · split
    · rename_i legal
      exact GoesOnOr.mapNext (.inl (exec_parameter_goesOn (decodeParameter_port legal) s)) _
    · exact goesOnOr_next _ _

theorem blockAccessTurn_goesOnOr (turn : s.nextTurn = .blockAccess) : GoesOnOr (StopsWith s) (blockAccessTurn s) := by
  unfold blockAccessTurn
  split
  · exact goesOnOr_next _ _
  · rename_i queue
    split
    · rename_i busy
      exact goesOnOr_fault (.accessDuringProcess turn queue (Option.isSome_iff_ne_none.1 busy))
    · exact goesOnOr_next _ _

theorem storeTurn_goesOnOr (turn : s.nextTurn = .store) : GoesOnOr (StopsWith s) (storeTurn s) := by
  unfold storeTurn
  split
  · exact goesOnOr_next _ _
  · rename_i port
    split
    · rename_i legal
      exact ((exec_store_goesOnOr (decodeMicroOp_port legal) s).mono fun _ run => .microOp turn port legal run).mapNext _
    · exact goesOnOr_fault (.illegalMicroOp turn port ‹_›)

end turns

/-- A step goes on, or faults in one of those ways; it refuses nothing (R109). With `step_cases` this is all that a step
can answer. -/
theorem step_goesOnOr (s : State) : GoesOnOr (StopsWith s) (step s) := by
  unfold step takeTurn
  cases turn : s.nextTurn with
  | command | commandStart | commandReadGain | commandReadDelay => exact commandTurn_goesOnOr (by rw [turn]; rfl)
  | parameter => exact parameterTurn_goesOnOr s
  | blockAccess => exact blockAccessTurn_goesOnOr turn
  | store => exact storeTurn_goesOnOr turn

/-- With nothing at the store interface only the two stuck states of the host's duties are left (log entry 14). -/
theorem StopsWith.hostDuty {s : State} {f : Fault} (h : StopsWith s f) (noMicroOp : s.microPort = []) :
    f = .blockSampleMissing ∨ f = .blockAccessDuringProcess := by
  cases h with
  | sampleMissing => exact .inl rfl
  | accessDuringProcess => exact .inr rfl
  | microOp _ port | illegalMicroOp _ port => cases noMicroOp.symm.trans port

/-! ### The obligations -/

/-- Settles O18, by what can stop a step; the invariant leaves nothing at the store interface. -/
theorem onlyBrokenHostDutiesStop : Obligations.OnlyBrokenHostDutiesStop := by
  intro s h
  rcases step_goesOnOr s with ⟨t, e⟩ | ⟨f, e, stops⟩
  · simp [e]
  · simpa [e] using stops.hostDuty h.noMicroOp

/-- Settles O21, by the formula's two readings. -/
theorem wraparoundIsEuclidean : Obligations.WraparoundIsEuclidean := fun p cap pos =>
  ⟨physicalPosition_eq_tmod p pos, physicalPosition_eq p pos, physicalPosition_lt p pos,
    fun k => physicalPosition_congr pos (Int.add_mul_emod_self_right p k cap)⟩

/-- Settles O22, by reads after a write to the same cell and to another. -/
theorem swriteWritesOneCell : Obligations.SwriteWritesOneCell := by
  intro s c p v prepared channel
  refine ⟨_, exec_swrite_eq p v (storeFault_none prepared channel), fun p' congruent => ?_, fun a other => ?_, rfl, rfl⟩
  · exact storeRead_storeWrite_same s v ((storeCell_eq_iff s c c p p' (capacity_toNat_pos prepared)).2 ⟨rfl, congruent⟩)
  · exact Memory.read_write_other unlistedStore s.store v other

/-- Settles O23: the reply is what the cell lists, or +0.0. -/
theorem sreadReturnsTheCell : Obligations.SreadReturnsTheCell := by
  intro s c p prepared channel
  refine ⟨_, read_unlistedStore s.store _, fun unlisted => by rw [unlisted]; rfl, ?_⟩
  rw [exec_sread_eq p (storeFault_none prepared channel), storeRead_eq_listed]; rfl

/-- Settles O24, by the two ways the precondition is broken. -/
theorem storeAccessOutsideItsPreconditionFaults : Obligations.StoreAccessOutsideItsPreconditionFaults := by
  intro s c p v
  refine ⟨fun unprepared => ?_, fun prepared channel => ?_⟩
  · have broken := storeFault_unprepared unprepared c
    exact ⟨exec_swrite_of_storeFault p v broken, exec_sread_of_storeFault p broken⟩
  · have broken := storeFault_channel prepared channel
    exact ⟨exec_swrite_of_storeFault p v broken, exec_sread_of_storeFault p broken⟩

/-- Settles O25, by what SRESIZE answers in each of its four cases. -/
theorem sresizeAsStated : Obligations.SresizeAsStated := by
  intro s n cap
  refine ⟨fun nonpos => ?_, fun pos exceeds => ?_, fun pos fits rows => ?_, fun pos fits rows => ?_⟩
  · exact exec_sresize_of_ok (resizeStore_nonpos nonpos)
  · exact exec_sresize_of_ok (resizeStore_exceeds pos exceeds)
  · exact exec_sresize_of_error (resizeStore_mismatch pos fits rows)
  · exact ⟨_, exec_sresize_of_ok (resizeStore_fits pos fits rows), rfl, toNat_ofInt_capacity pos fits, rfl,
      storeRead_of_noCells rfl, rfl⟩

end Sys2Proof.Machine
end

section
/-! Proofs of the family of 41_delay_engine.md: PROCESS, its read steps and its block (R74 to R90).
`blockDone_processBody` says once what the body of PROCESS does, and `afterWrites_of_window` which sample a cell holds after
the write phase; the closed form, the single echo and the zero delay are readings of these two. The lemmas stand first;
the settled obligations follow. -/

namespace Sys2Proof.Machine

/-! ### The last write to a cell (R80) -/

/-- Positions less than CAPACITY apart name different cells. -/
theorem emod_ne_of_lt {a b cap : Int} (lt : b < a) (near : a < b + cap) : a % cap ≠ b % cap := by
  intro e
  have := Int.le_of_dvd (by omega) (Int.dvd_of_emod_eq_zero (Int.emod_eq_emod_iff_emod_sub_eq_zero.1 e))
  omega

/-- Let `q` be the offset from the cursor, among the CAPACITY offsets that end with the block, that names the cell of `p`.
A `q` in the block is its last write; an earlier one says that the block does not write it. -/
theorem lastWrite_of_window {wc p q : Int} {cap n : Nat} (cell : (wc + q) % cap = p % cap)
    (lower : (n : Int) - cap ≤ q) (upper : q < n) :
    lastWrite wc p cap n = if 0 ≤ q then some q.toNat else none := by
  induction n with
  | zero => rw [if_neg (by omega)]; rfl
  | succ n ih =>
    by_cases last : q = n
    · subst last
      rw [lastWrite, if_pos cell, if_pos (by omega)]; rfl
    · have other : (wc + n) % cap ≠ p % cap := cell ▸ emod_ne_of_lt (by omega) (by omega)
      rw [lastWrite, if_neg other, ih (by omega) (by omega)]

/-- What the cell of `p` holds after the write phase, by the same offset. -/
theorem afterWrites_of_window {s : State} (c : Nat) {len : Nat} {p q : Int}
    (cell : (s.writeCursor.toNat + q) % s.capacity.toNat = p % s.capacity.toNat)
    (lower : (len : Int) - s.capacity.toNat ≤ q) (upper : q < len) :
    s.afterWrites c len p = if 0 ≤ q then s.ioRead c q.toNat else s.storeRead c p := by
  rw [State.afterWrites, lastWrite_of_window cell lower upper]
  by_cases inBlock : 0 ≤ q
  · rw [if_pos inBlock, if_pos inBlock]
  · rw [if_neg inBlock, if_neg inBlock]

/-- The write phase leaves what was there, or a dry sample of the block (R83). -/
theorem afterWrites_cases (s : State) (c len : Nat) (p : Int) :
    s.afterWrites c len p = s.storeRead c p ∨ ∃ i < len, s.afterWrites c len p = s.ioRead c i := by
  rw [State.afterWrites]
  cases h : lastWrite s.writeCursor.toNat p s.capacity.toNat len with
  | none => exact .inl rfl
  | some j => exact .inr ⟨j, (lastWrite_some h).1, rfl⟩

/-- It reads CAPACITY, the cursor and the channel's own row and samples (R79). -/
theorem afterWrites_congr {s u : State} {c : Nat} (capacity : u.capacity = s.capacity)
    (cursor : u.writeCursor = s.writeCursor) (samples : ∀ i, u.ioRead c i = s.ioRead c i)
    (row : ∀ p, u.storeRead c p = s.storeRead c p) (len : Nat) (p : Int) :
    u.afterWrites c len p = s.afterWrites c len p := by
  simp only [State.afterWrites, capacity, cursor, samples, row]

/-- A block and a delay that fit in CAPACITY reach back to this block, or to STORE as it was before it (R86). -/
theorem afterWrites_of_shortBlock {s : State} (c : Nat) {len i : Nat} {d : Int} (nonneg : 0 ≤ d) (hi : i < len)
    (fits : len + d ≤ s.capacity.toNat) :
    s.afterWrites c len (s.writeCursor.toNat - d + i) =
      if d ≤ i then s.ioRead c (i - d.toNat) else s.storeRead c (s.writeCursor.toNat + i - d) := by
  have position : s.writeCursor.toNat - d + i = s.writeCursor.toNat + ((i : Int) - d) := by ring
  rw [position, afterWrites_of_window c rfl (by omega) (by omega)]
  by_cases inBlock : d ≤ i
  · rw [if_pos inBlock, if_pos (by omega), show ((i : Int) - d).toNat = i - d.toNat by omega]
  · rw [if_neg inBlock, if_neg (by omega), add_sub_assoc]

/-! ### The pass over the channels -/

section channels
variable {s : State} (pos : 0 < s.capacity.toNat) (d : Int) (g : F32) (len k : Nat) {n c : Nat} (hc : c < n)
include pos hc

theorem storeRead_channels (p : Int) :
    (forUpto n (State.processChannel s.writeCursor.toNat d g len k) s).storeRead c p = s.afterWrites c len p := by
  obtain ⟨row, samples⟩ := channels_before s.writeCursor.toNat d g len k s c
  rw [(channels_at _ d g len k s hc).1 p,
    storeRead_processChannel _ d g len k c _ (by rw [capacity_channels]; exact pos), capacity_channels]
  simp only [row, samples]
  rfl

theorem ioRead_channels {i : Nat} (hi : i < len) :
    (forUpto n (State.processChannel s.writeCursor.toNat d g len k) s).ioRead c i =
      mix (k + c * len + i) (s.ioRead c i) g (s.afterWrites c len (s.writeCursor.toNat - d + i)) := by
  obtain ⟨row, samples⟩ := channels_before s.writeCursor.toNat d g len k s c
  rw [(channels_at _ d g len k s hc).2 i,
    ioRead_processChannel _ d g len k c _ (by rw [capacity_channels]; exact pos) hi, capacity_channels]
  simp only [row, samples]
  rfl

end channels

/-! ### The body of PROCESS -/

/-- The body of PROCESS does the block (R74, R79 to R85). -/
theorem blockDone_processBody {s : State} (nc : Int) {ns : Int} (g t : F32) (prepared : s.capacity ≠ 0)
    (nonempty : 0 < ns) :
    BlockDone (processedChannels nc s.cfg.numCh.toNat) ns.toNat g t s (s.processBody nc ns g t) where
  outputs _ hc _ hi := ioRead_channels (capacity_toNat_pos prepared) (s.delayOf t) g ns.toNat s.draws hc hi
  others a outside := block_channels_other _ _ g ns.toNat s.draws _ s a outside
  rows _ hc p := storeRead_channels (capacity_toNat_pos prepared) (s.delayOf t) g ns.toNat s.draws hc p
  otherRows a other := store_channels_other _ _ g ns.toNat s.draws _ s a other
  cursor := by
    rw [processBody_writeCursor, advanceCursor_eq _ _ prepared, Int.toNat_of_nonneg nonempty.le]
  status := processBody_status ..
  idle := processBody_inProgress ..
  frame := congrArg (fun u : State =>
      { u with
        block := s.block, store := s.store, writeCursor := s.writeCursor, status := s.status,
        inProgress := s.inProgress, draws := s.draws })
    (withoutCells_channels s.writeCursor.toNat (s.delayOf t) g ns.toNat s.draws _ s)
  draws := processBody_draws ..

section blockDone
variable {n len : Nat} {g t : F32} {s s' : State} (done : BlockDone n len g t s s')
include done

theorem BlockDone.capacity : s'.capacity = s.capacity := (congrArg State.capacity done.frame :)

/-- Every position of every row after the block. -/
theorem BlockDone.storeRead_eq (c : Nat) (p : Int) :
    s'.storeRead c p = if c < n then s.afterWrites c len p else s.storeRead c p := by
  split
  · next hc => exact done.rows c hc p
  · next hc =>
    rw [State.storeRead, State.storeCell, done.capacity, done.otherRows _ (not_lt.1 hc)]; rfl

/-- Every sample of block memory after the block. -/
theorem BlockDone.ioRead_eq (c i : Nat) :
    s'.ioRead c i = if c < n ∧ i < len then mix (s.draws + c * len + i) (s.ioRead c i) g
      (s.afterWrites c len (s.writeCursor.toNat - s.delayOf t + i)) else s.ioRead c i := by
  split
  · next inside => exact done.outputs c inside.1 i inside.2
  · next outside => rw [State.ioRead, done.others ⟨c, i⟩ outside]; rfl

end blockDone

/-- No sample of block memory goes away in the body. -/
theorem supplied_processBody {s : State} {nc ns : Int} (h : s.Supplied nc ns) (nc' ns' : Int) (g t : F32) :
    (s.processBody nc' ns' g t).Supplied nc ns := by
  intro c hc i hi
  rw [processBody_cfg] at hc
  refine forUpto_keeps (P := fun u : State => (u.block.read unlistedBlock ⟨c, i⟩).isSome = true) _ (fun c' u _ hu => ?_)
    (h c hc i hi)
  refine forUpto_keeps (P := fun u : State => (u.block.read unlistedBlock ⟨c, i⟩).isSome = true) ns'.toNat
    (fun _ v _ hv => isSome_read_ioWrite v _ _ _ hv) ?_
  rw [block_writePhase]
  exact hu

/-! ### PROCESS from its start to its completion -/

/-- RBDL is prepared, the block is not empty, its samples are there and the turn does not stop the PROCESS: it does its
block (R74). -/
structure State.BlockReady (s : State) (nc ns : Int) : Prop where
  prepared  : s.capacity ≠ 0
  nonempty  : 0 < ns
  supplied  : s.Supplied nc ns
  completes : s.nextTurn.completes = true

theorem getD_gain (s : State) : (s.inProgress.getD ⟨none, none⟩).gain.getD s.paramGain = s.sampledGain := by
  rw [State.sampledGain]; cases s.inProgress <;> rfl

theorem getD_delay (s : State) : (s.inProgress.getD ⟨none, none⟩).delay.getD s.paramDelayMs = s.sampledDelay := by
  rw [State.sampledDelay]; cases s.inProgress <;> rfl

section blockReady
variable {s : State} {nc ns : Int} (h : s.BlockReady nc ns)
include h

theorem State.BlockReady.exec_eq :
    exec (.process nc ns) s = .next (s.processBody nc ns s.sampledGain s.sampledDelay) := by
  rw [exec, execProcess_of_supplied h.prepared h.nonempty h.supplied, runProcess_of_completes nc ns _ h.completes,
    getD_gain, getD_delay]

theorem State.BlockReady.blockDone : BlockDone (processedChannels nc s.cfg.numCh.toNat) ns.toNat s.sampledGain
    s.sampledDelay s (s.processBody nc ns s.sampledGain s.sampledDelay) :=
  blockDone_processBody nc _ _ h.prepared h.nonempty

/-- The block leaves RBDL ready to do it again: the dry input of the next block is the output of this one. -/
theorem State.BlockReady.processBody (g t : F32) : (s.processBody nc ns g t).BlockReady nc ns where
  prepared := by rw [processBody_capacity]; exact h.prepared
  nonempty := h.nonempty
  supplied := supplied_processBody h.supplied nc ns g t
  completes := by simpa [State.nextTurn] using h.completes

/-- The outputs of a block that fits in CAPACITY together with its delay (R86). -/
theorem State.BlockReady.output_of_shortBlock {c i : Nat} (hc : c < processedChannels nc s.cfg.numCh.toNat)
    (hi : i < ns.toNat) (fits : ns + s.delayOf s.sampledDelay ≤ s.capacity.toNat) :
    (s.processBody nc ns s.sampledGain s.sampledDelay).ioRead c i =
      mix (s.draws + c * ns.toNat + i) (s.ioRead c i) s.sampledGain
        (if s.delayOf s.sampledDelay ≤ i then s.ioRead c (i - (s.delayOf s.sampledDelay).toNat)
          else s.storeRead c (s.writeCursor.toNat + i - s.delayOf s.sampledDelay)) := by
  have nonneg : 0 ≤ s.delayOf s.sampledDelay := (delaySamples_bounds _ _ (capacity_toNat_pos h.prepared)).1
  rw [h.blockDone.outputs c hc i hi,
    afterWrites_of_shortBlock c nonneg hi (by rw [Int.toNat_of_nonneg h.nonempty.le]; exact fits)]

/-- `n` executions count `n * ns` onto the cursor (R88). -/
theorem State.BlockReady.execTimes_cursor {k : Int} (n : Nat)
    (cursor : (s.writeCursor.toNat : Int) = k % s.capacity.toNat) :
    ∃ t, execTimes (.process nc ns) n s = .next t ∧
      (t.writeCursor.toNat : Int) = (k + n * ns) % s.capacity.toNat := by
  induction n generalizing s k with
  | zero => exact ⟨s, rfl, by simpa using cursor⟩
  | succ n ih =>
    have advanced : ((s.processBody nc ns s.sampledGain s.sampledDelay).writeCursor.toNat : Int) =
        (k + ns) % (s.processBody nc ns s.sampledGain s.sampledDelay).capacity.toNat := by
      rw [processBody_writeCursor, processBody_capacity, advanceCursor_eq _ _ h.prepared, cursor, Int.emod_add_emod]
    obtain ⟨t, run, count⟩ := ih (h.processBody _ _) advanced
    refine ⟨t, by rw [execTimes, h.exec_eq]; exact run, ?_⟩
    rw [count, processBody_capacity]
    congr 1
    push_cast
    ring

end blockReady

/-! ### The history of a session (R87) -/

/-- The history of a channel at an absolute position: +0.0 before the session began. -/
def historySample (x : Nat → F32) (p : Int) : F32 := if p < 0 then 0 else x p.toNat

/-- `m*` names the cell of `m`, and it is one of the last CAPACITY positions of the history after the block. -/
theorem lastAlias_spec {cap : Nat} (pos : 0 < cap) (b len : Nat) (m : Int) :
    lastAlias cap b len m % cap = m % cap ∧ (b : Int) + len - cap ≤ lastAlias cap b len m ∧
      lastAlias cap b len m < b + len := by
  have split := Int.mul_ediv_add_emod (b + len - 1 - m) cap
  have nonneg := Int.emod_nonneg (b + len - 1 - m) (by omega : (cap : Int) ≠ 0)
  have small := Int.emod_lt_of_pos (b + len - 1 - m) (by omega : (0 : Int) < cap)
  rw [lastAlias]
  exact ⟨Int.add_mul_emod_self_left .., by omega, by omega⟩

/-- A position among those is its own `m*`. -/
theorem lastAlias_self {cap b len : Nat} {p : Int} (lower : (b : Int) + len - cap ≤ p) (upper : p < b + len) :
    lastAlias cap b len p = p := by
  rw [lastAlias, Int.ediv_eq_zero_of_lt (by omega) (by omega), mul_zero, add_zero]

section history
variable {s : State} {c b : Nat} {x : Nat → F32} (h : HistoryHolds s c x b)
include h

/-- The cursor stands at the position `b` of the history, up to a multiple of CAPACITY. -/
theorem HistoryHolds.cursor_add (q : Int) :
    (s.writeCursor.toNat + q) % s.capacity.toNat = (b + q) % (s.capacity.toNat : Int) := by
  rw [h.cursor, Int.natCast_emod, Int.emod_add_emod]

/-- After the writes of the next `len` samples of the history, the cell of an absolute position `m` holds the sample
`m*`. -/
theorem HistoryHolds.afterWrites_eq (pos : 0 < s.capacity.toNat) {len : Nat}
    (block : ∀ i < len, s.ioRead c i = x (b + i)) {p m : Int}
    (cell : p % s.capacity.toNat = m % s.capacity.toNat) :
    s.afterWrites c len p = historySample x (lastAlias s.capacity.toNat b len m) := by
  obtain ⟨same, lower, upper⟩ := lastAlias_spec pos b len m
  generalize lastAlias s.capacity.toNat b len m = m' at same lower upper ⊢
  have names : (s.writeCursor.toNat + (m' - b)) % s.capacity.toNat = p % (s.capacity.toNat : Int) := by
    rw [h.cursor_add, add_sub_cancel, same, cell]
  rw [afterWrites_of_window c names (by omega) (by omega)]
  by_cases inBlock : 0 ≤ m' - b
  · rw [if_pos inBlock, block _ (by omega), historySample, if_neg (by omega)]
    congr 1; omega
  · have sameCell : s.storeCell c p = s.storeCell c m' :=
      (storeCell_eq_iff s c c m' p pos).2 ⟨rfl, cell.trans same.symm⟩
    rw [if_neg inBlock, State.storeRead, sameCell]
    exact h.cells m' (by omega) (by omega)

/-- A block of the history leaves STORE holding the history up to the block's end. -/
theorem HistoryHolds.blockDone {n len : Nat} {g t : F32} {s' : State} (done : BlockDone n len g t s s')
    (pos : 0 < s.capacity.toNat) (hc : c < n) (block : ∀ i < len, s.ioRead c i = x (b + i)) :
    HistoryHolds s' c x (b + len) := by
  constructor
  · have advanced := done.cursor
    rw [h.cursor_add] at advanced
    rw [done.capacity]
    exact_mod_cast advanced
  · intro p lower upper
    rw [done.capacity] at lower
    push_cast at lower upper
    rw [done.rows c hc p, h.afterWrites_eq pos block rfl, lastAlias_self lower upper]; rfl

end history

/-! ### PREPARE -/

/-- A PREPARE whose capacity fits answers the new session (R94). -/
theorem execPrepare_of_fits {s : State} {sr : F64} {n : Int} (mbl : Int)
    (requested : requestedCapacity s.cfg.maxDelaySeconds sr = some (.int n)) (pos : 0 < n)
    (fits : n ≤ s.cfg.capMax.toNat) :
    execPrepare sr mbl s = .next
      { s with
        store := [], capacity := BitVec.ofInt 32 n, writeCursor := 0, sampleRate := sr,
        maxBlock := BitVec.ofInt 32 mbl, status := .ok } := by
  have operand : s.capacityOperand sr = n := by rw [State.capacityOperand, requested, capField_of_fits pos fits]
  rcases execPrepare_cases sr mbl s with ⟨n', requested', -, -, run⟩ | ⟨nonpos, -⟩ | ⟨exceeds, -⟩
  · cases requested.symm.trans requested'
    exact run
  · omega
  · omega

/-! ### The delay offset (R78, R90) -/

theorem delaySamples_of_nan {t : F32} {sr : F64} (h : delayExact t sr = none) (cap : Nat) : delaySamples t sr cap = 0 := by
  simp [delaySamples, h]

theorem delaySamples_of_rounded {t : F32} {sr x : F64} {r : ExtInt} (h : delayExact t sr = some x)
    (rounded : roundHalfAway (decodeFloat binary64 x.toNat) = some r) (cap : Nat) :
    delaySamples t sr cap = clampExt r 0 (cap - 1) := by
  simp [delaySamples, h, rounded]

/-! ### The mix (R82) -/

/-- Every free draw is a NaN pattern (I6). -/
theorem f32IsNaN_freeNaN (k : Nat) : f32IsNaN (Config.freeNaN k) = true := by
  rw [f32IsNaN_iff, decodeFloat_nan_iff]
  have fraction := (Config.freeNaNFraction k).isLt
  have fractionBits : (BitVec.ofNat 23 ((Config.freeNaNFraction k).val + 1)).toNat = (Config.freeNaNFraction k).val + 1 := by
    rw [BitVec.toNat_ofNat]; omega
  have value : (Config.freeNaN k).toNat =
      (Config.freeNaNSign k).toNat * 2 ^ 31 + 255 * 2 ^ 23 + ((Config.freeNaNFraction k).val + 1) := by
    rw [Config.freeNaN, BitVec.toNat_append, BitVec.toNat_append, fractionBits, BitVec.toNat_ofBool,
      ← Nat.shiftLeft_add_eq_or_of_lt (by omega), ← Nat.shiftLeft_add_eq_or_of_lt (by decide), Nat.shiftLeft_eq,
      Nat.shiftLeft_eq, show (0xFF : BitVec 8).toNat = 255 from rfl]
    omega
  have sign := Bool.toNat_lt (Config.freeNaNSign k)
  simp only [value, binary32]
  omega

/-! ### The read steps (R77) -/

theorem runProcess_commandStart (nc ns : Int) (p : Sampling) {s : State} (h : s.nextTurn = .commandStart) :
    s.runProcess nc ns p = { s with inProgress := some p } := by
  rw [State.runProcess, h]

theorem runProcess_commandReadDelay (nc ns : Int) (p : Sampling) {s : State} (h : s.nextTurn = .commandReadDelay) :
    s.runProcess nc ns p = { s with inProgress := some (p.readDelay s) } := by
  rw [State.runProcess, h]

/-- A read step is made once. -/
theorem readGain_of_sampled {p : Sampling} {s : State} (h : p.gain ≠ none) : p.readGain s = p := by
  obtain ⟨g, read⟩ := Option.ne_none_iff_exists'.1 h
  rw [Sampling.readGain, read, Option.getD_some, ← read]

theorem readDelay_of_sampled {p : Sampling} {s : State} (h : p.delay ≠ none) : p.readDelay s = p := by
  obtain ⟨t, read⟩ := Option.ne_none_iff_exists'.1 h
  rw [Sampling.readDelay, read, Option.getD_some, ← read]

/-! ### The turns of a PROCESS among those of the parameter port -/

section turns
variable {s : State} {nc ns : Int} (ready : s.ProcessReady nc ns) (gain delay : F32) (code : StatusCode)
  (port : List Descriptor) (p : Option Sampling) (turns : List Turn)
include ready

/-- What a PROCESS has sampled so far stays; the gain read step takes the gain if it has not been taken (R77). -/
theorem State.ProcessReady.step_readGain :
    step (s.withOutside gain delay code port p (.commandReadGain :: turns)) = .next
      (s.withOutside gain delay code port
        (some ⟨some ((p.bind Sampling.gain).getD gain), p.bind Sampling.delay⟩) turns) := by
  rw [(ready.withOutside ..).step_eq rfl]
  cases p <;> rfl

theorem State.ProcessReady.step_readDelay :
    step (s.withOutside gain delay code port p (.commandReadDelay :: turns)) = .next
      (s.withOutside gain delay code port
        (some ⟨p.bind Sampling.gain, some ((p.bind Sampling.delay).getD delay)⟩) turns) := by
  rw [(ready.withOutside ..).step_eq rfl]
  cases p <;> rfl

theorem State.ProcessReady.step_start :
    step (s.withOutside gain delay code port p (.commandStart :: turns)) = .next
      (s.withOutside gain delay code port (some ⟨p.bind Sampling.gain, p.bind Sampling.delay⟩) turns) := by
  rw [(ready.withOutside ..).step_eq rfl]
  cases p <;> rfl

/-- The state in which a PROCESS of this gain and delay time completes, with other things outside. -/
theorem State.ProcessReady.step_last :
    stepTimes 1 (s.withOutside gain delay code port p [.command]) = .next
      { (s.processBody nc ns ((p.bind Sampling.gain).getD gain) ((p.bind Sampling.delay).getD delay)).withOutside
          gain delay code port none [] with commandPort := s.commandPort.tail } :=
  stepTimes_succ 0 (ready.step_command_withOutside gain delay code port p [.command] rfl)

/-- With nobody scheduled and nothing sampled, the PROCESS runs in one step with the registers as they stand. -/
theorem State.ProcessReady.step_alone (schedule : s.schedule = []) (idle : s.inProgress = none) :
    step { s with paramGain := gain, paramDelayMs := delay } = .next
      { (s.processBody nc ns gain delay).withOutside gain delay s.pstatus s.paramPort none [] with
        commandPort := s.commandPort.tail } := by
  obtain ⟨d, rest, command, -⟩ := ready.port
  have run := ready.step_command_withOutside gain delay s.pstatus s.paramPort none [] (nextTurn_of_commandPort rfl command)
  rwa [withOutside_of_idle _ _ _ _ idle schedule] at run

end turns

theorem step_setgain_withOutside (s : State) {e : Descriptor} {v : F32} (legal : decodeParameter e = .ok (.setgain v))
    (gain delay : F32) (code : StatusCode) (rest : List Descriptor) (p : Option Sampling) (turns : List Turn) :
    step (s.withOutside gain delay code (e :: rest) p (.parameter :: turns)) = .next
      (s.withOutside v delay .ok rest p turns) :=
  step_setgain rfl rfl legal

theorem step_setdelay_withOutside (s : State) {e : Descriptor} {v : F32}
    (legal : decodeParameter e = .ok (.setdelay v)) (gain delay : F32) (code : StatusCode) (rest : List Descriptor)
    (p : Option Sampling) (turns : List Turn) :
    step (s.withOutside gain delay code (e :: rest) p (.parameter :: turns)) = .next
      (s.withOutside gain v .ok rest p turns) :=
  step_setdelay rfl rfl legal

theorem withSchedule_of_idle {s : State} {port : List Descriptor} (idle : s.inProgress = none)
    (param : s.paramPort = port) (turns : List Turn) : { s with schedule := turns } =
      s.withOutside s.paramGain s.paramDelayMs s.pstatus port none turns := by
  rw [State.withOutside, ← idle, ← param]

/-! ### The obligations -/

/-- Settles O43: the body does the block, and the cell it reads and each cell it leaves hold the sample `m*`. -/
theorem blockFollowsTheClosedForm : Obligations.BlockFollowsTheClosedForm := by
  intro s nc ns c b x prepared nonempty supplied completes hc holds block
  have ready : s.BlockReady nc ns := ⟨prepared, nonempty, supplied, completes⟩
  have pos := capacity_toNat_pos prepared
  refine ⟨_, ready.exec_eq, holds.blockDone ready.blockDone pos hc block, fun i hi => ?_⟩
  have cell : (s.writeCursor.toNat - s.delayOf s.sampledDelay + i) % s.capacity.toNat =
      ((b : Int) + i - s.delayOf s.sampledDelay) % s.capacity.toNat := by
    rw [sub_add_eq_add_sub, add_sub_assoc, holds.cursor_add, ← add_sub_assoc]
  rw [ready.blockDone.outputs c hc i hi, holds.afterWrites_eq pos block cell, block i hi]
  rfl

/-- Settles O37, by what the body of PROCESS does. -/
theorem processDoesTheBlock : Obligations.ProcessDoesTheBlock := by
  intro s nc ns prepared nonempty supplied completes
  have ready : s.BlockReady nc ns := ⟨prepared, nonempty, supplied, completes⟩
  refine ⟨fun c => ?_, _, ready.exec_eq, ready.blockDone⟩
  rw [processedChannels]
  omega

/-- Settles O38: every order ends with the same gain and delay time sampled. -/
theorem readOrderIsUnobservableAlone : Obligations.ReadOrderIsUnobservableAlone := by
  intro s d rest nc ns schedule idle command legal prepared nonempty supplied
  have ready : s.ProcessReady nc ns := ⟨⟨d, rest, command, legal⟩, prepared, nonempty, supplied⟩
  have alone := ready.step_alone s.paramGain s.paramDelayMs schedule idle
  have start := withSchedule_of_idle idle rfl
  refine ⟨?_, ?_, ?_⟩
  · rw [start, stepTimes_succ 2 (ready.step_readGain ..), stepTimes_succ 1 (ready.step_readDelay ..), ready.step_last]
    exact alone.symm
  · rw [start, stepTimes_succ 2 (ready.step_readDelay ..), stepTimes_succ 1 (ready.step_readGain ..), ready.step_last]
    exact alone.symm
  · rw [start, stepTimes_succ 1 (ready.step_start ..), ready.step_last]
    exact alone.symm

/-- Settles O39: at the completing turn the value sampled before the write stands beside the register written since. -/
theorem parameterWritesAreSeenFromTheReadStepOn : Obligations.ParameterWritesAreSeenFromTheReadStepOn := by
  intro s d e rest prest nc ns v schedule idle command legal prepared nonempty supplied param
  have ready : s.ProcessReady nc ns := ⟨⟨d, rest, command, legal⟩, prepared, nonempty, supplied⟩
  have alone (gain delay : F32) := ready.step_alone gain delay schedule idle
  have unwritten : step s = _ := alone s.paramGain s.paramDelayMs
  have start := withSchedule_of_idle idle param
  refine ⟨fun setgain => ⟨?_, ?_⟩, fun setdelay => ⟨?_, ?_⟩⟩
  · rw [start, stepTimes_succ 2 (ready.step_readGain ..), stepTimes_succ 1 (step_setgain_withOutside s setgain ..),
      ready.step_last, unwritten]; rfl
  · rw [start, stepTimes_succ 2 (ready.step_readDelay ..), stepTimes_succ 1 (step_setgain_withOutside s setgain ..),
      ready.step_last, alone v s.paramDelayMs]; rfl
  · rw [start, stepTimes_succ 2 (ready.step_readDelay ..), stepTimes_succ 1 (step_setdelay_withOutside s setdelay ..),
      ready.step_last, unwritten]; rfl
  · rw [start, stepTimes_succ 2 (ready.step_readGain ..), stepTimes_succ 1 (step_setdelay_withOutside s setdelay ..),
      ready.step_last, alone s.paramGain v]; rfl

/-- Settles O41: a row is as the writes leave it, or as it was. -/
theorem storeHoldsDryHistoryOnly : Obligations.StoreHoldsDryHistoryOnly := by
  intro s t nc ns run c p
  rcases execProcess_cases nc ns s with ⟨-, e⟩ | ⟨prepared, nonempty, -, e⟩ | ⟨-, -, -, e⟩
  · cases e.symm.trans run
    exact .inl rfl
  · cases e.symm.trans run
    rcases runProcess_cases nc ns (s.inProgress.getD ⟨none, none⟩) s with ⟨q, -, stops⟩ | ⟨-, does⟩
    · rw [stops]
      exact .inl rfl
    · rw [does, (blockDone_processBody nc _ _ prepared nonempty).storeRead_eq]
      split
      · exact afterWrites_cases s c ns.toNat p
      · exact .inl rfl
  · cases e.symm.trans run

/-- Settles O42: what the block leaves in a channel is computed from the channel's own row and samples. -/
theorem channelsAreIndependent : Obligations.ChannelsAreIndependent := by
  intro s u nc ns c prepared nonempty supplied supplied' completes same samples row
  generalize u.store = store, u.block = block at same
  subst same
  have ready : s.BlockReady nc ns := ⟨prepared, nonempty, supplied, completes⟩
  have ready' : { s with store := store, block := block }.BlockReady nc ns := ⟨prepared, nonempty, supplied', completes⟩
  have writes := afterWrites_congr (s := s) (u := { s with store := store, block := block }) (c := c) rfl rfl samples row
  refine ⟨_, _, ready.exec_eq, ready'.exec_eq, fun i => ?_, fun p => ?_⟩
  · rw [ready.blockDone.ioRead_eq, ready'.blockDone.ioRead_eq, samples, writes]; rfl
  · rw [ready.blockDone.storeRead_eq, ready'.blockDone.storeRead_eq, row, writes]

/-- Settles O44: every cell is +0.0, as every sample before the session is, and there are no others. -/
theorem prepareStartsAnEmptyHistory : Obligations.PrepareStartsAnEmptyHistory := by
  intro s sr mbl n requested pos fits
  refine ⟨_, execPrepare_of_fits mbl requested pos fits, fun c x => ⟨(Nat.zero_mod _).symm, fun p _ before => ?_⟩⟩
  rw [storeRead_of_noCells rfl, if_pos (by exact_mod_cast before)]

/-- Settles O45, by the outputs of a block that fits in CAPACITY together with its delay. -/
theorem shortBlocksGiveASingleEcho : Obligations.ShortBlocksGiveASingleEcho := by
  intro s nc ns c i prepared nonempty supplied completes hc hi fits
  have ready : s.BlockReady nc ns := ⟨prepared, nonempty, supplied, completes⟩
  have output := ready.output_of_shortBlock hc hi fits
  refine ⟨_, ready.exec_eq, fun inBlock => ?_, fun before => ?_⟩
  · rwa [if_pos inBlock] at output
  · rwa [if_neg (not_le.2 before)] at output

/-- Settles O46: the single echo with D = 0 mixes the dry sample with itself. -/
theorem zeroDelayMixesTheDryInput : Obligations.ZeroDelayMixesTheDryInput := by
  intro s nc ns c i prepared nonempty supplied completes hc hi zero fits
  have ready : s.BlockReady nc ns := ⟨prepared, nonempty, supplied, completes⟩
  have output := ready.output_of_shortBlock hc hi (by rw [zero, add_zero]; exact fits)
  rw [zero, if_pos (Int.natCast_nonneg i), Int.toNat_zero, Nat.sub_zero] at output
  have arithmetic : (f32Mul s.sampledGain (s.ioRead c i)).bind (f32Add (s.ioRead c i)) =
      mixExact (s.ioRead c i) s.sampledGain (s.ioRead c i) := rfl
  refine ⟨_, ready.exec_eq, ?_⟩
  rw [output, arithmetic]
  cases mixed : mixExact (s.ioRead c i) s.sampledGain (s.ioRead c i) with
  | some v => exact mix_of_exact mixed
  | none => rw [mix_of_nan mixed]; exact f32IsNaN_freeNaN _

/-- Settles O47, by induction on the executions. -/
theorem cursorCountsBlocks : Obligations.CursorCountsBlocks := by
  intro s nc L n prepared nonempty supplied completes start
  have ready : s.BlockReady nc L := ⟨prepared, nonempty, supplied, completes⟩
  obtain ⟨t, run, count⟩ := ready.execTimes_cursor (k := 0) n (by rw [start]; exact (Int.zero_emod _).symm)
  exact ⟨t, run, by rwa [zero_add] at count⟩

/-- Settles O48, by the cases of the rounded sample count. -/
theorem delayOffsetIsClamped : Obligations.DelayOffsetIsClamped := by
  intro t sr cap pos
  refine ⟨delaySamples_bounds t sr pos, fun nan => delaySamples_of_nan nan cap,
    fun x samples => ⟨fun low => ?_, fun high => ?_, fun n rounded => ?_⟩⟩
  · rw [delaySamples_of_rounded samples low, clampExt]; omega
  · rw [delaySamples_of_rounded samples high, clampExt]
  · rw [delaySamples_of_rounded samples rounded, clampExt]; omega

/-- Settles O34, by the first check of PROCESS. -/
theorem processOfNothingIsANoOp : Obligations.ProcessOfNothingIsANoOp := by
  intro s nc ns idle nothing
  rw [exec, execProcess, if_pos nothing, State.completeProcess, State.raiseStatus, ← idle]

/-- Settles O36: each turn that stops a PROCESS, from what it has sampled. -/
theorem processReadStepsAsStated : Obligations.ProcessReadStepsAsStated := by
  intro s nc ns p prepared nonempty supplied sampled
  have run : exec (.process nc ns) s = .next (s.runProcess nc ns p) := by
    rw [exec, execProcess_of_supplied prepared nonempty supplied]
    rcases sampled with busy | ⟨idle, rfl⟩
    · rw [busy]; rfl
    · rw [idle]; rfl
  refine ⟨fun turn => ?_, fun turn unread => ?_, fun turn unread => ?_, fun turn read => ?_, fun turn read => ?_⟩
  · rw [run, runProcess_commandStart _ _ _ turn]
  · rw [run, runProcess_commandReadGain _ _ _ turn, Sampling.readGain, unread]; rfl
  · rw [run, runProcess_commandReadDelay _ _ _ turn, Sampling.readDelay, unread]; rfl
  · rw [run, runProcess_commandReadGain _ _ _ turn, readGain_of_sampled read]
  · rw [run, runProcess_commandReadDelay _ _ _ turn, readDelay_of_sampled read]

end Sys2Proof.Machine
end

section
/-! Proofs of the family of 42_lifecycle.md: what PREPARE and RELEASE leave of a session (R91 to R97).
A PREPARE that fits is `execPrepare_of_fits`; the two ways to fail are told apart by the capacity it asks SRESIZE for. The
lemmas stand first; the settled obligations follow. -/

namespace Sys2Proof.Machine

/-! ### A PREPARE that fails (R92, R93, R95) -/

section failure
variable {s : State} {sr : F64} (mbl : Int)

theorem execPrepare_of_nonpos (h : s.capacityOperand sr ≤ 0) :
    execPrepare sr mbl s = .next (s.raiseStatus .invalidCapacity) := by
  rw [execPrepare, resizeStore_nonpos h]

theorem execPrepare_of_exceeds (h : (s.cfg.capMax.toNat : Int) < s.capacityOperand sr) :
    execPrepare sr mbl s = .next (s.raiseStatus .capacityExceedsStorage) := by
  rw [execPrepare, resizeStore_exceeds (by omega) h]

end failure

/-! ### The obligations -/

/-- Settles O26: the new session, whose capacity is the requested one and whose STORE lists no cell. -/
theorem prepareStartsASession : Obligations.PrepareStartsASession := by
  intro s sr mbl n requested pos fits
  exact ⟨_, execPrepare_of_fits mbl requested pos fits, toNat_ofInt_capacity pos fits, rfl, rfl, rfl, rfl,
    storeRead_of_noCells rfl, rfl⟩

/-- Settles O27, by the requested capacities that make the operand of SRESIZE too small or too large. -/
theorem failedPrepareChangesOnlyStatus : Obligations.FailedPrepareChangesOnlyStatus := fun _ _ mbl =>
  ⟨fun invalid => execPrepare_of_nonpos mbl ((capField_nonpos_iff _ _).2 invalid),
    fun tooLarge => execPrepare_of_exceeds mbl ((capField_exceeds_iff _ _).2 tooLarge)⟩

/-- Settles O28: the new session is a function of the build and the operands. -/
theorem prepareForgetsTheOldSession : Obligations.PrepareForgetsTheOldSession := by
  intro s u sr mbl n requested pos fits build
  have requested' : requestedCapacity u.cfg.maxDelaySeconds sr = some (.int n) := by rw [build, requested]
  have fits' : n ≤ u.cfg.capMax.toNat := by rw [build]; exact fits
  exact ⟨_, _, execPrepare_of_fits mbl requested pos fits, execPrepare_of_fits mbl requested' pos fits', rfl, rfl, rfl, rfl,
    fun c p => ⟨storeRead_of_noCells rfl c p, storeRead_of_noCells rfl c p⟩, rfl, rfl, rfl⟩

/-- Settles O29, by the meaning of RELEASE: STORE is discarded and the code is OK. -/
theorem releaseEndsTheSession : Obligations.ReleaseEndsTheSession := by
  intro s
  rw [exec, execRelease, State.discardStore, State.raiseStatus]

end Sys2Proof.Machine
end

section
/-! Proofs of the family of 43_parameter_surface.md: what SETGAIN and SETDELAY store (R98 to R100), that the parameter port
never waits (R102), and that nothing else touches the Parameter Surface (R101, R106).
The lemmas stand first; the settled obligations follow. -/

namespace Sys2Proof.Machine

/-! ### The Parameter Surface, kept by everything but its own port -/

/-- The part of a state that the parameter port alone may change: its two registers, its status and its queue. -/
def State.parameterSurface (s : State) : F32 × F32 × StatusCode × List Descriptor :=
  (s.paramGain, s.paramDelayMs, s.pstatus, s.paramPort)

theorem parameterSurface_eq_iff {s t : State} : t.parameterSurface = s.parameterSurface ↔
    t.paramGain = s.paramGain ∧ t.paramDelayMs = s.paramDelayMs ∧ t.pstatus = s.pstatus ∧ t.paramPort = s.paramPort := by
  simp [State.parameterSurface]

@[simp] theorem retireCommand_parameterSurface (s : State) :
    s.retireCommand.parameterSurface = s.parameterSurface := by
  simp [State.parameterSurface]

@[simp] theorem processBody_parameterSurface (nc ns : Int) (g t : F32) (s : State) :
    (s.processBody nc ns g t).parameterSurface = s.parameterSurface := by
  simp [State.parameterSurface]

theorem accessBlock_parameterSurface (s : State) (a : BlockAccess) :
    (s.accessBlock a).parameterSurface = s.parameterSurface := by
  cases a <;> rfl

section meanings
variable {s t : State}

/-- PROCESS reads the parameter registers and writes none, stopped at a read step or not (R77, R101). -/
theorem execProcess_parameterSurface {nc ns : Int} (run : execProcess nc ns s = .next t) :
    t.parameterSurface = s.parameterSurface := by
  rcases execProcess_cases nc ns s with ⟨-, e⟩ | ⟨-, -, -, e⟩ | ⟨-, -, -, e⟩ <;> cases e.symm.trans run
  · rfl
  · rcases runProcess_cases nc ns (s.inProgress.getD ⟨none, none⟩) s with ⟨q, -, stops⟩ | ⟨-, does⟩
    · rw [stops]; rfl
    · rw [does, processBody_parameterSurface]

theorem execPrepare_parameterSurface {sr : F64} {m : Int} (run : execPrepare sr m s = .next t) :
    t.parameterSurface = s.parameterSurface := by
  rcases execPrepare_cases sr m s with ⟨n, -, -, -, e⟩ | ⟨-, e⟩ | ⟨-, e⟩ <;>
    · cases e.symm.trans run; rfl

/-- SRESIZE answers the state as it was, or one whose store alone is new (R71). -/
theorem resizeStore_parameterSurface {n : Nat} {cap : Int} {code : StatusCode} (h : resizeStore n cap s = .ok (code, t)) :
    t.parameterSurface = s.parameterSurface := by
  rcases resizeStore_cases h with ⟨-, e⟩ | ⟨-, -, e⟩ | ⟨-, -, -, e⟩ | ⟨-, -, -, e⟩ <;> cases e <;> rfl

/-- No instruction of another port changes the Parameter Surface. -/
theorem exec_parameterSurface {i : Instr} (other : i.port ≠ .parameter) (run : exec i s = .next t) :
    t.parameterSurface = s.parameterSurface := by
  cases i with
  | prepare sr m => exact execPrepare_parameterSurface run
  | release => cases run; rfl
  | process nc ns => exact execProcess_parameterSurface run
  | setgain | setdelay => exact absurd rfl other
  | swrite c p v =>
    cases fault : s.storeFault c with
    | some f => cases (exec_swrite_of_storeFault p v fault).symm.trans run
    | none => cases (exec_swrite_eq p v fault).symm.trans run; rfl
  | sread c p =>
    cases fault : s.storeFault c with
    | some f => cases (exec_sread_of_storeFault p fault).symm.trans run
    | none => cases (exec_sread_eq p fault).symm.trans run; rfl
  | sresize n cap =>
    cases resize : resizeStore n cap s with
    | error f => cases (exec_sresize_of_error resize).symm.trans run
    | ok r =>
      cases (exec_sresize_of_ok resize).symm.trans run
      exact (resizeStore_parameterSurface resize : r.2.parameterSurface = s.parameterSurface)

end meanings

/-- A step keeps the Parameter Surface unless it is a step of the parameter port with a descriptor on it. -/
theorem StepsTo.parameterSurface {s t : State} (h : StepsTo s t) :
    t.parameterSurface = s.parameterSurface ∨ (s.nextTurn = .parameter ∧ s.paramPort ≠ []) := by
  cases h with
  | idle => exact .inl rfl
  | command _ _ legal run =>
    have kept := exec_parameterSurface (by rw [decodeCommand_port legal]; decide) run
    exact .inl ((retireCommand_parameterSurface _).trans kept)
  | illegalCommand => exact .inl (retireCommand_parameterSurface _)
  | parameter turn port | illegalParameter turn port => exact .inr ⟨turn, by simp [port]⟩
  | access => exact .inl (accessBlock_parameterSurface s _)
  | microOp _ _ legal run =>
    have kept := exec_parameterSurface (by rw [decodeMicroOp_port legal]; decide) run
    exact .inl kept

/-! ### The obligations -/

/-- Settles O31, by the three answers of the parameter decoder: the rows SETGAIN and SETDELAY, and an illegal descriptor. -/
theorem parameterPortNeverWaits : Obligations.ParameterPortNeverWaits := by
  intro s d rest turn port
  cases decoded : decode .parameter d with
  | error e => exact ⟨_, step_illegalParameter turn port ⟨e, decoded⟩, rfl, rfl⟩
  | ok i =>
    cases decode_ok_iff.1 decoded with
    | setgain => exact ⟨_, step_setgain turn port decoded, rfl, rfl⟩
    | setdelay => exact ⟨_, step_setdelay turn port decoded, rfl, rfl⟩

/-- Settles O32, by the inversion lemma of a step: every other case keeps the Parameter Surface. -/
theorem onlyTheParameterPortChangesParameters : Obligations.OnlyTheParameterPortChangesParameters := by
  intro s t run changed
  refine (step_cases run).parameterSurface.resolve_left fun kept => ?_
  obtain ⟨gain, delay, pstatus, port⟩ := parameterSurface_eq_iff.1 kept
  simp [gain, delay, pstatus, port] at changed

/-- Settles O30, by the meanings of SETGAIN and SETDELAY: a register write, and PSTATUS raised to OK. -/
theorem parameterWritesStoreThePattern : Obligations.ParameterWritesStoreThePattern := by
  intro s v
  constructor
  · rw [exec, execSetgain, State.writeGain, State.raiseParamStatus]
  · rw [exec, execSetdelay, State.writeDelay, State.raiseParamStatus]

end Sys2Proof.Machine
end

section
/-! Proofs of the statements that no one chapter of the spec holds: what a line of assembly gives (R66), the canonical form
of the memories, that steps go on while the host keeps its duties, who writes which register, the pattern of a NaN sample, and the
sanity statements on steps, reset, status words and the spec's own examples.
The lemmas stand first, in the order of the definitions they speak of; the settled obligations follow. -/

namespace Sys2Proof.Machine

/-! ### The mix (R82) -/

/-- A sum that is not a NaN is a sign and a magnitude up to infinity's. -/
theorem floatAdd_eq_some {f : FloatFormat} {a b r : Nat} (h : floatAdd f a b = some r) :
    ∃ neg, ∃ k ≤ infMagnitude f, r = signed f neg k := by
  unfold floatAdd at h
  split at h
  · cases h
  · cases h
  · cases h
  · obtain ⟨-, h⟩ := Option.ite_none_right_eq_some.1 h
    cases h; exact ⟨_, _, le_rfl, rfl⟩
  · cases h; exact ⟨_, _, le_rfl, rfl⟩
  · cases h; exact ⟨_, _, le_rfl, rfl⟩
  · dsimp only at h
    split at h
    · cases h; exact ⟨_, _, Nat.zero_le _, rfl⟩
    · cases h; exact ⟨_, _, roundMagnitude_le _ _ _ _, rfl⟩

theorem f32IsNaN_f32Add {a b v : F32} (h : f32Add a b = some v) : f32IsNaN v = false := by
  obtain ⟨r, sum, rfl⟩ := Option.map_eq_some_iff.1 h
  obtain ⟨neg, k, hk, rfl⟩ := floatAdd_eq_some sum
  rw [f32IsNaN, toNat_ofNat_signed32 neg hk]
  exact decide_eq_false (decodeFloat_signed_ne_nan binary32 neg hk)

/-- The mix ends with a sum, so what it answers is no NaN (R82). -/
theorem f32IsNaN_mixExact {dry g wet v : F32} (h : mixExact dry g wet = some v) : f32IsNaN v = false := by
  obtain ⟨p, -, sum⟩ := Option.bind_eq_some_iff.1 h
  exact f32IsNaN_f32Add sum

/-! ### Lines of assembly -/

/-- An integer literal fits its field (R66). -/
theorem isInt32_of_parseInt32 {cs : List Char} {n : Int} (h : parseInt32 cs = some n) : isInt32 n = true := by
  unfold parseInt32 at h
  dsimp only at h
  split at h
  · cases h
  · split at h
    · cases h
    · obtain ⟨fits, value⟩ := Option.ite_none_right_eq_some.1 h
      exact Option.some.inj value ▸ fits

/-- A mnemonic with its operands gives a well-formed instruction of one of the two ports; a micro-operation has none
(R66). -/
theorem assembleInstr_wellFormed_port {mnemonic operands : List Char} {i : Instr}
    (h : assembleInstr mnemonic operands = some i) : i.wellFormed = true ∧ i.port ≠ .store := by
  unfold assembleInstr at h
  split_ifs at h with prepare release bare process setgain setdelay
  · split at h
    · cases h
    · split at h <;> cases h
      exact ⟨isInt32_of_parseInt32 ‹_›, nofun⟩
  · cases h; exact ⟨rfl, nofun⟩
  · split at h
    · cases h
    · split at h <;> cases h
      exact ⟨Bool.and_eq_true_iff.2 ⟨isInt32_of_parseInt32 ‹_›, isInt32_of_parseInt32 ‹_›⟩, nofun⟩
  · obtain ⟨v, -, rfl⟩ := Option.map_eq_some_iff.1 h
    exact ⟨rfl, nofun⟩
  · obtain ⟨v, -, rfl⟩ := Option.map_eq_some_iff.1 h
    exact ⟨rfl, nofun⟩

theorem AsmLine.ofOption_eq_instr {o : Option Instr} {i : Instr} (h : AsmLine.ofOption o = .instr i) : o = some i := by
  cases o <;> cases h
  rfl

/-- The instruction of a line is that of its mnemonic and operands. -/
theorem assembleLine_eq_instr {line : List Char} {i : Instr} (h : assembleLine line = .instr i) :
    ∃ mnemonic operands, assembleInstr mnemonic operands = some i := by
  unfold assembleLine at h
  dsimp only at h
  split at h
  · cases h
  · split at h <;> exact ⟨_, _, AsmLine.ofOption_eq_instr h⟩

/-! ### What a meaning that completes leaves -/

section completions
variable {s t : State}

theorem execPrepare_next {sr : F64} {m : Int} (run : execPrepare sr m s = .next t) :
    (∃ capacity, t = { s with
      store := [], capacity := capacity, writeCursor := 0, sampleRate := sr, maxBlock := BitVec.ofInt 32 m,
      status := .ok }) ∨ ∃ code, t = s.raiseStatus code := by
  rcases execPrepare_cases sr m s with ⟨n, -, -, -, e⟩ | ⟨-, e⟩ | ⟨-, e⟩ <;> cases e.symm.trans run
  · exact .inl ⟨_, rfl⟩
  · exact .inr ⟨_, rfl⟩
  · exact .inr ⟨_, rfl⟩

theorem execProcess_next {nc ns : Int} (run : execProcess nc ns s = .next t) :
    t = s.completeProcess ∨ (∃ q, t = { s with inProgress := some q }) ∨ ∃ g u, t = s.processBody nc ns g u := by
  rcases execProcess_cases nc ns s with ⟨-, e⟩ | ⟨-, -, -, e⟩ | ⟨-, -, -, e⟩ <;> cases e.symm.trans run
  · exact .inl rfl
  · rcases runProcess_cases nc ns (s.inProgress.getD ⟨none, none⟩) s with ⟨q, -, stops⟩ | ⟨-, does⟩
    · exact .inr (.inl ⟨q, stops⟩)
    · exact .inr (.inr ⟨_, _, does⟩)

theorem exec_swrite_next {c : Nat} {p : Int} {v : F32} (run : exec (.swrite c p v) s = .next t) :
    t = (s.storeWrite c p v).replyStore .nothing := by
  cases fault : s.storeFault c with
  | some f => cases (exec_swrite_of_storeFault p v fault).symm.trans run
  | none => cases (exec_swrite_eq p v fault).symm.trans run; rfl

theorem exec_sread_next {c : Nat} {p : Int} (run : exec (.sread c p) s = .next t) :
    t = s.replyStore (.value (s.storeRead c p)) := by
  cases fault : s.storeFault c with
  | some f => cases (exec_sread_of_storeFault p fault).symm.trans run
  | none => cases (exec_sread_eq p fault).symm.trans run; rfl

theorem exec_sresize_next {n : Nat} {cap : Int} (run : exec (.sresize n cap) s = .next t) :
    (∃ code, t = s.replyStore (.code code)) ∨
      ∃ capacity code, t = { s with store := [], capacity := capacity, writeCursor := 0, storeReply := .code code } := by
  cases resize : resizeStore n cap s with
  | error f => cases (exec_sresize_of_error resize).symm.trans run
  | ok r =>
    cases (exec_sresize_of_ok resize).symm.trans run
    rcases resizeStore_cases resize with ⟨-, e⟩ | ⟨-, -, e⟩ | ⟨-, -, -, e⟩ | ⟨-, -, -, e⟩ <;> cases e
    · exact .inl ⟨_, rfl⟩
    · exact .inl ⟨_, rfl⟩
    · exact .inr ⟨_, _, rfl⟩

end completions

/-! ### The canonical form of the memories -/

/-- The canonical form speaks of the two memories alone. -/
theorem State.MemoryOk.congr {s t : State} (h : s.MemoryOk) (store : t.store = s.store) (block : t.block = s.block) :
    t.MemoryOk := ⟨store ▸ h.store, block ▸ h.block⟩

/-- A new STORE lists no cell (R71). -/
theorem State.MemoryOk.of_newStore {s t : State} (h : s.MemoryOk) (store : t.store = []) (block : t.block = s.block) :
    t.MemoryOk := ⟨store ▸ Memory.wf_nil _, block ▸ h.block⟩

section memoryOk
variable {s t : State} (h : s.MemoryOk)
include h

theorem State.MemoryOk.retireCommand : s.retireCommand.MemoryOk := h.congr (retireCommand_store s) (retireCommand_block s)

theorem State.MemoryOk.accessBlock (a : BlockAccess) : (s.accessBlock a).MemoryOk := by
  cases a with
  | read a => exact h.congr rfl rfl
  | write a v => exact ⟨h.store, Memory.wf_write a v h.block⟩
  | withdraw a => exact ⟨h.store, Memory.wf_unlist a h.block⟩

/-- Every meaning keeps the canonical form. -/
theorem State.MemoryOk.exec {i : Instr} (run : exec i s = .next t) : t.MemoryOk := by
  cases i with
  | prepare sr m =>
    rcases execPrepare_next run with ⟨_, rfl⟩ | ⟨_, rfl⟩
    · exact h.of_newStore rfl rfl
    · exact h.congr rfl rfl
  | release => cases run; exact h.of_newStore rfl rfl
  | process nc ns =>
    rcases execProcess_next run with rfl | ⟨_, rfl⟩ | ⟨g, u, rfl⟩
    · exact h.congr rfl rfl
    · exact h.congr rfl rfl
    · exact memoryOk_processBody nc ns g u h
  | setgain | setdelay => cases run; exact h.congr rfl rfl
  | swrite c p v => rw [exec_swrite_next run]; exact ⟨Memory.wf_write _ v h.store, h.block⟩
  | sread c p => rw [exec_sread_next run]; exact h.congr rfl rfl
  | sresize n cap =>
    rcases exec_sresize_next run with ⟨_, rfl⟩ | ⟨_, _, rfl⟩
    · exact h.congr rfl rfl
    · exact h.of_newStore rfl rfl

end memoryOk

/-! ### Host duties -/

/-- While the host keeps its duties the only stops left are those of the store interface (R45, R46). -/
theorem StopsWith.microPort_ne_nil {s : State} {f : Fault} (h : StopsWith s f) (duties : s.HostDuties) :
    s.microPort ≠ [] := by
  cases h with
  | sampleMissing turn port legal prepared _ lacking =>
    exact absurd (duties.supplied turn prepared _ _ _ _ port legal) lacking
  | accessDuringProcess turn queue busy => exact absurd (duties.ownership turn (by simp [queue])) busy
  | microOp _ port | illegalMicroOp _ port => simp [port]

/-! ### A turn that meets a legal descriptor -/

section steps
variable {s : State} {d : Descriptor} {rest : List Descriptor} {i : Instr}

/-- The command port executes the legal descriptor at its head (R62). -/
theorem step_of_command (turn : s.nextTurn.servesCommand = true) (port : s.commandPort = d :: rest)
    (legal : decode .command d = .ok i) : step s = mapNext State.retireCommand (exec i s) := by
  rw [decode] at legal
  simp only [step_of_servesCommand turn, commandTurn, port, legal]

/-- The store interface executes the legal micro-operation at its head (R58). -/
theorem step_of_store (turn : s.nextTurn = .store) (port : s.microPort = d :: rest)
    (legal : decode .store d = .ok i) : step s = mapNext State.retireMicroOp (exec i s) := by
  rw [decode] at legal
  simp only [step, takeTurn, turn, storeTurn, port, legal]

end steps

/-! ### A turn with nothing waiting only passes (log entry 6) -/

section nothingWaiting
variable {s : State}

theorem commandTurn_of_nil (h : s.commandPort = []) : commandTurn s = .next s.passTurn := by rw [commandTurn, h]

theorem parameterTurn_of_nil (h : s.paramPort = []) : parameterTurn s = .next s.passTurn := by rw [parameterTurn, h]

theorem blockAccessTurn_of_nil (h : s.blockAccesses = []) : blockAccessTurn s = .next s.passTurn := by
  rw [blockAccessTurn, h]

theorem storeTurn_of_nil (h : s.microPort = []) : storeTurn s = .next s.passTurn := by rw [storeTurn, h]

end nothingWaiting

/-! ### A word presented at its port (log entries 8 and 10) -/

/-- The next step runs a descriptor presented at a port that decodes it. -/
theorem step_presentAt {p : Port} {d : Descriptor} {i : Instr} (legal : decode p d = .ok i) (s : State) :
    step (s.presentAt p d) = mapNext (retireAt p) (exec i (s.presentAt p d)) := by
  cases p with
  | command => exact step_of_command rfl rfl legal
  | parameter => exact step_of_parameter rfl rfl legal
  | store => exact step_of_store rfl rfl legal

theorem completes_nextTurn_presentAt (p : Port) (d : Descriptor) (s : State) :
    (s.presentAt p d).nextTurn.completes = true := by
  cases p <;> rfl

/-- The bytes of a bare word decode as the word itself, at the port it is read at (log entry 8). -/
theorem decode_of_decodeAnyPort {d : Descriptor} {i : Instr} (h : decodeAnyPort d = some i) :
    decode (portOfWord d) d = .ok i := by
  have bytes := decodeBytes_append (portOfWord d) [] (length_descriptorBytes d)
  rw [List.append_nil, ofNat_natOfBytes_descriptorBytes] at bytes
  rw [decodeAnyPort, bytes] at h
  cases decoded : decode (portOfWord d) d with
  | error e => simp [decoded, Except.map] at h
  | ok j => simpa [decoded, Except.map] using h

/-! ### Status words -/

theorem statusWord_reserved (c : StatusCode) : (statusWord c).toNat / 4 = 0 := by
  cases c <;> decide

/-! ### Reset -/

/-- At reset RBDL is unprepared and idle, with nothing in its memories (R36). -/
theorem inv_resetOf {cfg : Config} (legal : LegalBuild cfg) : (State.resetOf cfg).Inv where
  build := legal
  session := .inl ⟨rfl, rfl, rfl⟩
  memory := ⟨Memory.wf_nil _, Memory.wf_nil _⟩
  pstatus := .inl rfl
  process := processOk_of_idle rfl
  noMicroOp := rfl

theorem legalBuild_reference : LegalBuild Config.reference := ⟨by decide, by decide, by decide⟩

/-! ### The obligations -/

/-- Settles O8: what a line gives is well formed, and the port's decoder reads the encoder's row back. -/
theorem assemblyGivesPortInstructions : Obligations.AssemblyGivesPortInstructions := by
  intro line i h
  obtain ⟨mnemonic, operands, assembled⟩ := assembleLine_eq_instr h
  obtain ⟨wf, notStore⟩ := assembleInstr_wellFormed_port assembled
  exact ⟨wf, notStore, by rw [assembleDescriptor, h], decode_ok_iff.2 (opcodeRow_encode wf)⟩

/-- Settles O17, by the inversion lemma of a step and what every meaning keeps. -/
theorem everyStepKeepsMemoryCanonical : Obligations.EveryStepKeepsMemoryCanonical := by
  intro s t h hs
  cases step_cases hs with
  | idle => exact h.congr rfl rfl
  | command _ _ _ run => exact (h.exec run).retireCommand
  | illegalCommand => exact (h.congr rfl rfl : (s.raiseStatus .illegalCommand).MemoryOk).retireCommand
  | parameter _ _ _ run => exact (h.exec run).congr rfl rfl
  | illegalParameter => exact h.congr rfl rfl
  | access => exact (h.accessBlock _).congr rfl rfl
  | microOp _ _ _ run => exact (h.exec run).congr rfl rfl

/-- Settles O19: a step that stops would break a duty, or come from the store interface, which has nothing waiting. -/
theorem stepsGoOnWhileDutiesAreKept : Obligations.StepsGoOnWhileDutiesAreKept := by
  intro s h duties
  rcases step_goesOnOr s with goesOn | ⟨f, -, stops⟩
  · exact goesOn
  · exact absurd h.noMicroOp (stops.microPort_ne_nil duties)

/-- Settles O33: the state that each meaning leaves, with its other registers as they were. -/
theorem registerWritersAsStated : Obligations.RegisterWritersAsStated := by
  intro i s t run
  cases i with
  | prepare sr m => rcases execPrepare_next run with ⟨_, rfl⟩ | ⟨_, rfl⟩ <;> simp [Instr.port]
  | release => cases run; simp [Instr.port]
  | process nc ns => rcases execProcess_next run with rfl | ⟨_, rfl⟩ | ⟨_, _, rfl⟩ <;> simp [Instr.port]
  | setgain v => cases run; simp [Instr.port]
  | setdelay v => cases run; simp [Instr.port]
  | swrite c p v => cases exec_swrite_next run; simp
  | sread c p => cases exec_sread_next run; simp
  | sresize n cap => rcases exec_sresize_next run with ⟨_, rfl⟩ | ⟨_, _, rfl⟩ <;> simp

/-- Settles O55: the arithmetic answers no NaN pattern, and every free pattern is one. -/
theorem mixedNanIsSomeNan : Obligations.MixedNanIsSomeNan := by
  intro k dry g wet
  cases mixed : mixExact dry g wet with
  | none => simp [mix_of_nan mixed, f32IsNaN_freeNaN]
  | some v => simp [mix_of_exact mixed, f32IsNaN_mixExact mixed]

/-- Settles O7, by running the decoders on the nine words. -/
theorem encodingExamplesDecode : Obligations.EncodingExamplesDecode := by
  unfold Obligations.EncodingExamplesDecode
  decide

/-- Settles O9, by the turn of each port that meets a legal descriptor, and by what retiring is. -/
theorem stepRunsTheDecodedInstruction : Obligations.StepRunsTheDecodedInstruction := by
  intro s d rest i
  refine ⟨step_of_command, step_of_parameter, step_of_store, fun idle => ?_, fun busy => ?_, rfl, rfl⟩
  · rw [State.retireCommand, if_neg (by simp [idle])]; rfl
  · rw [State.retireCommand, if_pos (Option.isSome_iff_ne_none.2 busy)]; rfl

/-- Settles O10: the word's bytes decode as the word, which is presented at the port of its instruction. -/
theorem fetchWordRunsItsInstruction : Obligations.FetchWordRunsItsInstruction := by
  intro s w i h
  have legal := decode_of_decodeAnyPort h
  rw [(decode_ok_iff.1 legal).port]
  exact ⟨step_presentAt legal s, completes_nextTurn_presentAt _ _ s⟩

/-- Settles O13, code by code. -/
theorem statusWordsAsStated : Obligations.StatusWordsAsStated := by
  intro s
  refine ⟨?_, ?_, statusWord_reserved s.status, statusWord_reserved s.pstatus⟩
  · rw [State.readStatus]; cases s.status <;> rfl
  · rw [State.readPstatus]; cases s.pstatus <;> rfl

/-- Settles O14, by the fields of the reset state. -/
theorem resetStateAsStated : Obligations.ResetStateAsStated :=
  fun _ => ⟨rfl, rfl, rfl, rfl, rfl, rfl, rfl, rfl, rfl⟩

/-- Settles O15, by the invariant's parts at reset; the reference build is a legal one. -/
theorem resetMeetsTheInvariant : Obligations.ResetMeetsTheInvariant :=
  ⟨fun _ => inv_resetOf, inv_resetOf legalBuild_reference⟩

/-- Settles O56, by computing the values. -/
theorem arithmeticExamples : Obligations.ArithmeticExamples := by
  unfold Obligations.ArithmeticExamples
  decide

/-- Settles O59: the turn of an interface with nothing waiting only passes. -/
theorem nothingHappensUnasked : Obligations.NothingHappensUnasked := by
  intro s command parameter accesses micro
  unfold step takeTurn
  cases s.nextTurn with
  | command | commandStart | commandReadGain | commandReadDelay => exact commandTurn_of_nil command
  | parameter => exact parameterTurn_of_nil parameter
  | blockAccess => exact blockAccessTurn_of_nil accesses
  | store => exact storeTurn_of_nil micro

end Sys2Proof.Machine
end
